-- ==== Sys2Proof/Word.lean ====
section
/-! DEFINITION. The word types of the block, and the bit-numbering convention of `00_scope.md` R7. -/

namespace Sys2Proof

/-- A command word: 32 bits (`30_encoding.md` R70). -/
abbrev Word := BitVec 32

/-- A cell of data memory: 128 bits (`10_state.md` R36). -/
abbrev Cell := BitVec 128

/-- A byte of a platform bus or of the byte view of a cell (`10_state.md` R32). -/
abbrev Byte := BitVec 8

/-- A complex value `(re, im)` over a carrier of real values (`00_scope.md` R9). -/
structure Cplx (R : Type) where
  re : R
  im : R
deriving DecidableEq, Repr

/-- A cell of data memory in tier `IDEAL`: a tagged value (`10_state.md` R31). -/
inductive IdealCell where
  /-- Written as an integer: a byte or a signed integer by the host (`46_macros_2d.md` R180 (b)), or a table entry by
  `BRTAB` (`10_state.md` R32). -/
  | bits (c : Cell)
  /-- A pair of reals, which has no bit pattern. -/
  | complex (z : Cplx ℝ)
deriving Inhabited

end Sys2Proof
end

