-- ==== Sys2Proof/Syntax.lean ====
section
/-! DEFINITION. The commands of the block, one constructor for each mnemonic of `spec/opcode_table.json`
(`30_encoding.md` R71, R82, R84), and the names their operands use. -/

namespace Sys2Proof

/-- The seven descriptor registers by name (`10_state.md` R21); `SETD` numbers them 0 to 6 in this order. -/
inductive Reg where
  | SRC | SSTR | DST | DSTR | LEN | SPITCH | DPITCH
deriving DecidableEq, Repr

/-- The element type tag (`30_encoding.md` R77): how a source element is read. -/
inductive ElemTy where
  | byte | int | complex
deriving DecidableEq, Repr

/-- The direction of a butterfly's twiddle exponent (`30_encoding.md` R76). -/
inductive Dir where
  | forward | inverse
deriving DecidableEq, Repr

/-- The commands. `m` and `e` are orders (exponents of 2) and `k` is the magnitude of a twiddle exponent, so they are
natural numbers; `imm` goes into a 24-bit register as it is (`30_encoding.md` R78). -/
inductive Instr where
  /-- `HALT` (`45_control.md` R170). -/
  | halt
  /-- `SETD rd, imm` (`45_control.md` R171). -/
  | setd (rd : Reg) (imm : BitVec 24)
  /-- `BRTAB M` (`41_bitrev.md` R123). -/
  | brtab (m : Nat)
  /-- `BRPERM M` (`41_bitrev.md` R124). -/
  | brperm (m : Nat)
  /-- `BFLY.F E, k` (`40_butterfly.md` R101, `dir = 0`). -/
  | bflyF (e k : Nat)
  /-- `BFLY.I E, k` (`40_butterfly.md` R101, `dir = 1`). -/
  | bflyI (e k : Nat)
  /-- `FFT.B M` (`42_fft.md` R131, `ty = 0`). -/
  | fftB (m : Nat)
  /-- `FFT.I M` (`42_fft.md` R131, `ty = 1`). -/
  | fftI (m : Nat)
  /-- `FFT.C M` (`42_fft.md` R131, `ty = 2`). -/
  | fftC (m : Nat)
  /-- `IFFT M` (`43_ifft.md` R151). -/
  | ifft (m : Nat)
  /-- `QSHIFT M` (`44_qshift.md` R161). -/
  | qshift (m : Nat)
deriving DecidableEq, Repr

end Sys2Proof
end

