-- ==== Sys2Proof/WellFormed.lean ====
section
/-! DEFINITION. Which commands have an encoding: the width of every operand field (`30_encoding.md` R73 to R76; the
assembler's limits of R82). `rd <= 6` and `imm < 2^24` hold by the types of `SETD`'s operands. -/

namespace Sys2Proof

/-- An order fits the 4-bit fields `M` and `E` (R74, R75, R76). -/
def orderFits (m : Nat) : Bool := m < 16

/-- A twiddle exponent fits the 10-bit field `k` (R76). -/
def exponentFits (k : Nat) : Bool := k < 1024

/-- A command whose operands fit their fields. -/
def Instr.wf : Instr → Bool
  | .halt => true
  | .setd _ _ => true
  | .brtab m => orderFits m
  | .brperm m => orderFits m
  | .bflyF e k => orderFits e && exponentFits k
  | .bflyI e k => orderFits e && exponentFits k
  | .fftB m => orderFits m
  | .fftI m => orderFits m
  | .fftC m => orderFits m
  | .ifft m => orderFits m
  | .qshift m => orderFits m

end Sys2Proof
end

