-- ==== Sys2Proof/Decode.lean ====
section
/-! DEFINITION. Decoding a command word (`30_encoding.md` R70 to R81), total, every rejection named; and the encoder,
written from the assembler table of R82. -/

namespace Sys2Proof

/-- `w[hi:lo]` as an unsigned integer (`00_scope.md` R7). -/
def bits (w : Word) (hi lo : Nat) : Nat := w.toNat / 2^lo % 2^(hi + 1 - lo)

/-- Why a word spells no command: the cases of R79, and a byte stream that ends inside a word. -/
inductive Reject where
  /-- R79 (a): `op` is 0x8 to 0xF. -/
  | reservedOp
  /-- R79 (b): `op` is 0 and another bit is set. -/
  | haltBits
  /-- R79 (c): `SETD` with `rd` 7 to 15. -/
  | badRegister
  /-- R79 (d), (e), (f): a field that must be zero is not. -/
  | mustBeZero
  /-- R79 (e): `FFT` with `ty = 3`. -/
  | badType
  /-- Fewer than four bytes are left of a byte stream. -/
  | truncated
deriving DecidableEq, Repr

/-- The register number of `SETD`'s `rd` (`10_state.md` R21). -/
def Reg.num : Reg → Nat
  | .SRC => 0
  | .SSTR => 1
  | .DST => 2
  | .DSTR => 3
  | .LEN => 4
  | .SPITCH => 5
  | .DPITCH => 6

/-- The register a 4-bit number names; 7 to 15 name none (R73). -/
def Reg.ofNum : Nat → Option Reg
  | 0 => some .SRC
  | 1 => some .SSTR
  | 2 => some .DST
  | 3 => some .DSTR
  | 4 => some .LEN
  | 5 => some .SPITCH
  | 6 => some .DPITCH
  | _ => none

/-- Format S (R73). -/
def decodeS (w : Word) : Except Reject Instr :=
  match Reg.ofNum (bits w 27 24) with
  | some rd => .ok (.setd rd (BitVec.ofNat 24 (bits w 23 0)))
  | none => .error .badRegister

/-- Format M (R74): `mk` is the command of the opcode. -/
def decodeM (mk : Nat → Instr) (w : Word) : Except Reject Instr :=
  if bits w 27 4 = 0 then .ok (mk (bits w 3 0)) else .error .mustBeZero

/-- Format B (R76): bit 27 is `dir`, 0 forward and 1 inverse. -/
def decodeB (w : Word) : Except Reject Instr :=
  if bits w 26 24 = 0 ∧ bits w 19 10 = 0 then
    if bits w 27 27 = 0 then .ok (.bflyF (bits w 23 20) (bits w 9 0))
    else .ok (.bflyI (bits w 23 20) (bits w 9 0))
  else .error .mustBeZero

/-- Format T (R75) with the type tags of R77. -/
def decodeT (w : Word) : Except Reject Instr :=
  if bits w 25 4 = 0 then
    match bits w 27 26 with
    | 0 => .ok (.fftB (bits w 3 0))
    | 1 => .ok (.fftI (bits w 3 0))
    | 2 => .ok (.fftC (bits w 3 0))
    | _ => .error .badType
  else .error .mustBeZero

/-- The decoding procedure of R80. -/
def decode (w : Word) : Except Reject Instr :=
  match bits w 31 28 with
  | 0x0 => if bits w 27 0 = 0 then .ok .halt else .error .haltBits
  | 0x1 => decodeS w
  | 0x2 => decodeM .brtab w
  | 0x3 => decodeM .brperm w
  | 0x4 => decodeB w
  | 0x5 => decodeT w
  | 0x6 => decodeM .ifft w
  | 0x7 => decodeM .qshift w
  | _ => .error .reservedOp

/-- A command word from the four bytes of a byte-addressed platform bus, little-endian (`20_memory.md` R56). -/
def wordOfBytes (b0 b1 b2 b3 : Byte) : Word :=
  BitVec.ofNat 32 (b0.toNat + 2^8 * b1.toNat + 2^16 * b2.toNat + 2^24 * b3.toNat)

/-- Decoding from a byte stream: the command and the bytes after it. Every command is one word (R81). -/
def decodeBytes : List Byte → Except Reject (Instr × List Byte)
  | b0 :: b1 :: b2 :: b3 :: rest =>
    match decode (wordOfBytes b0 b1 b2 b3) with
    | .ok i => .ok (i, rest)
    | .error e => .error e
  | _ => .error .truncated

/-- The decoder on a word numbered as `spec/opcode_table.json` numbers it: every command is 32 bits, bit 0 least
significant, and the bits above `nbits` are zero. -/
def decodeTableWord (nbits w : Nat) : Option Instr :=
  match decode (BitVec.ofNat 32 (w % 2^nbits)) with
  | .ok i => some i
  | .error _ => none

/-- The word of a well-formed command (the encoding column of R82). -/
def encode : Instr → Word
  | .halt => BitVec.ofNat 32 0x00000000
  | .setd rd imm => BitVec.ofNat 32 (0x10000000 + rd.num * 2^24 + imm.toNat)
  | .brtab m => BitVec.ofNat 32 (0x20000000 + m)
  | .brperm m => BitVec.ofNat 32 (0x30000000 + m)
  | .bflyF e k => BitVec.ofNat 32 (0x40000000 + e * 2^20 + k)
  | .bflyI e k => BitVec.ofNat 32 (0x48000000 + e * 2^20 + k)
  | .fftB m => BitVec.ofNat 32 (0x50000000 + m)
  | .fftI m => BitVec.ofNat 32 (0x54000000 + m)
  | .fftC m => BitVec.ofNat 32 (0x58000000 + m)
  | .ifft m => BitVec.ofNat 32 (0x60000000 + m)
  | .qshift m => BitVec.ofNat 32 (0x70000000 + m)

/-- The mnemonic of a command (R82), as `spec/opcode_table.json` spells it. -/
def mnemonic : Instr → String
  | .halt => "HALT"
  | .setd _ _ => "SETD"
  | .brtab _ => "BRTAB"
  | .brperm _ => "BRPERM"
  | .bflyF _ _ => "BFLY.F"
  | .bflyI _ _ => "BFLY.I"
  | .fftB _ => "FFT.B"
  | .fftI _ => "FFT.I"
  | .fftC _ => "FFT.C"
  | .ifft _ => "IFFT"
  | .qshift _ => "QSHIFT"

/-- A row of `spec/opcode_table.json` (R84): a word is the row's command when `word AND mask = pattern`. -/
structure OpcodeRow where
  name : String
  pattern : Word
  mask : Word
deriving DecidableEq, Repr

/-- The eleven rows (R84). -/
def opcodeTable : List OpcodeRow :=
  [{ name := "HALT", pattern := 0x00000000#32, mask := 0xFFFFFFFF#32 },
   { name := "SETD", pattern := 0x10000000#32, mask := 0xF0000000#32 },
   { name := "BRTAB", pattern := 0x20000000#32, mask := 0xFFFFFFF0#32 },
   { name := "BRPERM", pattern := 0x30000000#32, mask := 0xFFFFFFF0#32 },
   { name := "BFLY.F", pattern := 0x40000000#32, mask := 0xFF0FFC00#32 },
   { name := "BFLY.I", pattern := 0x48000000#32, mask := 0xFF0FFC00#32 },
   { name := "FFT.B", pattern := 0x50000000#32, mask := 0xFFFFFFF0#32 },
   { name := "FFT.I", pattern := 0x54000000#32, mask := 0xFFFFFFF0#32 },
   { name := "FFT.C", pattern := 0x58000000#32, mask := 0xFFFFFFF0#32 },
   { name := "IFFT", pattern := 0x60000000#32, mask := 0xFFFFFFF0#32 },
   { name := "QSHIFT", pattern := 0x70000000#32, mask := 0xFFFFFFF0#32 }]

end Sys2Proof
end

