-- ==== Sys2Proof/Config.lean ====
section
/-! DEFINITION. What an implementation fixes (`00_scope.md` R5) and the values the spec leaves free
(`93_implementation_defined.md` U1, U2, U6; `47_host_software.md` R210). -/

namespace Sys2Proof

/-- `NUM` (R5): the numerics tier, an argument of `Machine.machineOf`. -/
inductive NumTier where
  /-- IEEE 754 binary64: the hardware (`40_butterfly.md` R90). -/
  | f64
  /-- Exact complex arithmetic: the reference. -/
  | ideal
deriving DecidableEq, Repr

/-- The parameters of R5 that size an instance. They are arguments of the model; `exec` has no argument for them, so a
state carries them in its field `par`, which no operation writes (log entry 1). `NUM` is `NumTier`; `TWROM` is the table of
`40_butterfly.md` R95 (`Machine/Twiddle.lean`); `INT_W` is 32. -/
structure Params where
  /-- `MMAX`: the largest transform order. -/
  mmax : Nat
  /-- `DM_CELLS`: the number of 128-bit cells of data memory. -/
  dmCells : Nat
  /-- `CM_WORDS`: the number of 32-bit words of command memory. -/
  cmWords : Nat
deriving DecidableEq, Repr

/-- The constraint column of R5. -/
def Params.ok (p : Params) : Bool :=
  p.mmax ≤ 15 && 1 ≤ p.dmCells && p.dmCells ≤ 2^24 && 1 ≤ p.cmWords && p.cmWords ≤ 65535

/-- The default column of R5. -/
def Params.default : Params := { mmax := 10, dmCells := 2^24, cmWords := 65535 }

/-- The binary64 operations that can answer a NaN (`40_butterfly.md` R91, R97). -/
inductive ArithOp where
  | add | sub | mul | div
deriving DecidableEq, Repr

namespace Config

/-- FREE VALUE (U2, `10_state.md` R41): what word `i` of `CM` holds after reset number `boot` until it is written. -/
opaque launchWord (boot i : Nat) : Word

/-- FREE VALUE (U2, `10_state.md` R41): what cell `a` of `DM` holds after reset number `boot` until it is written. -/
opaque launchCell (boot a : Nat) : Cell

/-- FREE VALUE (U1, `40_butterfly.md` R97): the bits from which a NaN that an operation answers takes its sign and
payload. -/
opaque nanBits (op : ArithOp) (x y : BitVec 64) : BitVec 64

/-- FREE VALUE (U1, `40_butterfly.md` R97): the bits from which draw number `n` takes a stored NaN's sign and payload. -/
opaque freeNaN (n : Nat) : BitVec 64

/-- FREE VALUE (U6, `46_macros_2d.md` R189): the integer a real part outside the signed 32-bit range re-quantizes to. -/
opaque freeInt (re : BitVec 64) : BitVec 32

/-- FREE VALUE (U6, `46_macros_2d.md` R189): the byte a NaN or infinite real part re-quantizes to. -/
opaque freeByte (re : BitVec 64) : Byte

/-- FREE VALUE (`47_host_software.md` R210, log entry 12): what a binary64 host makes of the mean of these squares where
R210 does not say how their sum is rounded. -/
opaque freeMean (squares : List Nat) : Nat

/-! ### Tier `IDEAL` -/

/-- FREE VALUE (U2): what cell `a` of `DM` holds in tier `IDEAL` after reset number `boot` until it is written. -/
noncomputable opaque idealLaunchCell (boot a : Nat) : IdealCell

/-- FREE VALUE (`10_state.md` R31, log entry 9): the byte or the integer a cell that holds a pair of reals is read as; the
byte and integer views do not apply to it. -/
noncomputable opaque idealBitsView (z : Cplx ℝ) : Cell

/-- FREE VALUE (`10_state.md` R31, log entry 9): the real part (`false`) or imaginary part (`true`) a cell that holds an
integer is read as; it holds no pair of reals. -/
noncomputable opaque idealComplexView (c : Cell) (imaginary : Bool) : ℝ

/-- FREE VALUE (U6): `freeInt` in tier `IDEAL`. -/
noncomputable opaque idealFreeInt (re : ℝ) : BitVec 32

/-- FREE VALUE (`10_state.md` R33, log entry 9): `CFG[7:4]` in tier `IDEAL`, which has no code. -/
opaque idealTierCode : BitVec 4

end Config

end Sys2Proof
end

