-- ==== Sys2Proof/Machine/State.lean ====
section
/-! DEFINITION. The state of one instance of the block (`10_state.md` R20), the two agents' turns (`20_memory.md` R58),
and the state after reset (`10_state.md` R41). -/

namespace Sys2Proof.Machine

/-- A memory of units of type `α`: the units written since the last reset, as (address, value) pairs. An address that is
not listed has no value of its own: it reads as a free value (log entry 3). -/
abbrev Memory (α : Type) := List (Nat × α)

/-- The canonical form: addresses strictly rising. No entry is redundant, because an unlisted address has no value. -/
def Memory.wf {α : Type} : Memory α → Bool
  | [] => true
  | [_] => true
  | p :: q :: rest => decide (p.1 < q.1) && Memory.wf (q :: rest)

/-- The seven descriptor registers, 24 bits each (R21). -/
structure Desc where
  src : BitVec 24
  sstr : BitVec 24
  dst : BitVec 24
  dstr : BitVec 24
  len : BitVec 24
  spitch : BitVec 24
  dpitch : BitVec 24
deriving DecidableEq, Repr

/-- All seven descriptor registers cleared (R22, R41). -/
def Desc.zero : Desc := { src := 0, sstr := 0, dst := 0, dstr := 0, len := 0, spitch := 0, dpitch := 0 }

/-- The run state in `STATUS[1:0]` (R27). -/
inductive RunState where
  | idle | run | done | err
deriving DecidableEq, Repr

/-- What `ERR[3:0]` records (`60_exceptions.md` R220). Codes 8 to 15 are not used, so they have no constructor. -/
inductive FaultCode where
  | none | shape | size | dimensionMismatch | illegal | order | addr | fetch
deriving DecidableEq, Repr

/-- What the outside world can do to a block whose `DM` cells are of type `C` (`Cell` in tier `F64`): the six operations of
the host port (`20_memory.md` R58) and the pulse of `rst_n` (`70_reset_and_hazards.md` R250). -/
inductive HostOp (C : Type) where
  | csrRead (n : Nat)
  | csrWrite (n : Nat) (v : BitVec 32)
  | cmRead (i : Nat)
  | cmWrite (i : Nat) (w : Word)
  | dmRead (a : Nat)
  | dmWrite (a : Nat) (c : C)
  | reset
deriving DecidableEq, Repr

/-- Whose move is next: the sequencer's, or the host's and which (`20_memory.md` R58: one total order). -/
inductive Turn (C : Type) where
  | seq
  | host (op : HostOp C)
deriving DecidableEq, Repr

/-- The state of the hardware, tier `F64`. `par` is configuration carried with the state; `boot`, `draws` and `turns` are the model's own. -/
structure State where
  /-- The parameters of the instance (`00_scope.md` R5); no operation writes them. -/
  par : Params
  /-- `d[0..6]` (R21). -/
  d : Desc
  /-- The command counter (R24). -/
  cpc : BitVec 16
  /-- `STATUS` (R27). -/
  status : RunState
  /-- `ERR` (R28). -/
  err : FaultCode
  /-- `EPC` (R29). -/
  epc : BitVec 16
  /-- `CM`: 32-bit words by index (R35). -/
  cm : Memory Word
  /-- `DM`: 128-bit cells by address (R36). -/
  dm : Memory Cell
  /-- How many resets have happened: which free launch contents unwritten memory holds (R250). -/
  boot : Nat
  /-- How many NaN draws have been taken (`40_butterfly.md` R97). -/
  draws : Nat
  /-- The moves still to come, first first; when empty, every move is the sequencer's. -/
  turns : List (Turn Cell)
deriving DecidableEq, Repr

/-- Why the machine stops with a fault. The block's own faults are no such stop: they are a next state with
`STATUS = ERR` (`60_exceptions.md` R228). -/
inductive Fault where
  /-- Raised by `step` alone, before anything else, on a state whose parameters break the constraints of `00_scope.md`
  R5: no such instance exists. SAFE: the machine stops where the spec has no machine. -/
  | badParameters
deriving DecidableEq, Repr

/-- Why the model gives no next state. -/
inductive Refusal where
  /-- Raised by an arm of `exec` for an instruction with no meaning yet. SAFE. No arm raises it. -/
  | notModelled (mnemonic : String)
  /-- Raised by a host move that breaks the ownership rule of `20_memory.md` R60 while `STATUS = RUN`
  (`93_implementation_defined.md` U9: "refuse: the model gives the host no such move"). UNSAFE in the sense of U9: a
  claim about a run then holds for hosts that keep the rule (log entry 6). -/
  | hostOwnership
deriving DecidableEq, Repr

/-- The state after reset with the default parameters of R5 (R41): registers 0, `STATUS` `IDLE`, both memories
unspecified (nothing listed), and no host move pending. -/
def State.reset : State where
  par := Params.default
  d := Desc.zero
  cpc := 0
  status := .idle
  err := .none
  epc := 0
  cm := []
  dm := []
  boot := 0
  draws := 0
  turns := []

end Sys2Proof.Machine
end

