-- ==== Sys2Proof/Machine/Ops.lean ====
section
/-! DEFINITION. The named operations over memory and registers; raising a fault (`60_exceptions.md` R228) and leaving one
(`CTRL.CLEAR`, `10_state.md` R30), the one way out there is (`60_exceptions.md` R230). -/

namespace Sys2Proof.Machine

/-! ### Memory -/

/-- The value written last at address `a`, if one has been written since reset. -/
def Memory.get? {α : Type} : Memory α → Nat → Option α
  | [], _ => none
  | p :: rest, a => if p.1 = a then some p.2 else Memory.get? rest a

/-- Write `v` at address `a`, keeping addresses strictly rising. -/
def Memory.set {α : Type} : Memory α → Nat → α → Memory α
  | [], a, v => [(a, v)]
  | p :: rest, a, v =>
    if a < p.1 then (a, v) :: p :: rest
    else if a = p.1 then (a, v) :: rest
    else p :: Memory.set rest a v

/-- Writes in order, the first pair first: where two addresses coincide the later write remains (`20_memory.md` R53). -/
def Memory.writeAll {α : Type} (m : Memory α) : List (Nat × α) → Memory α
  | [] => m
  | p :: rest => Memory.writeAll (Memory.set m p.1 p.2) rest

/-- Word `i` of `CM`: what was written last, or the free launch content (R41, U2). -/
def State.word (s : State) (i : Nat) : Word :=
  match Memory.get? s.cm i with
  | some w => w
  | none => Config.launchWord s.boot i

/-- Cell `a` of `DM`: what was written last, or the free launch content (R41, U2). -/
def State.cell (s : State) (a : Nat) : Cell :=
  match Memory.get? s.dm a with
  | some c => c
  | none => Config.launchCell s.boot a

/-- Replace word `i` of `CM`. -/
def State.storeWord (i : Nat) (w : Word) (s : State) : State :=
  { s with cm := Memory.set s.cm i w }

/-- A command's writes to `DM`, whole cells in write order (`20_memory.md` R53). -/
def State.writeCells (ws : List (Nat × Cell)) (s : State) : State :=
  { s with dm := Memory.writeAll s.dm ws }

/-! ### Descriptor registers -/

/-- `d[r]` (R21). -/
def Desc.get (d : Desc) : Reg → BitVec 24
  | .SRC => d.src
  | .SSTR => d.sstr
  | .DST => d.dst
  | .DSTR => d.dstr
  | .LEN => d.len
  | .SPITCH => d.spitch
  | .DPITCH => d.dpitch

/-- `d[r] <- v` (R22). -/
def Desc.set (d : Desc) (r : Reg) (v : BitVec 24) : Desc :=
  match r with
  | .SRC => { d with src := v }
  | .SSTR => { d with sstr := v }
  | .DST => { d with dst := v }
  | .DSTR => { d with dstr := v }
  | .LEN => { d with len := v }
  | .SPITCH => { d with spitch := v }
  | .DPITCH => { d with dpitch := v }

/-- Write one descriptor register. -/
def State.setReg (r : Reg) (v : BitVec 24) (s : State) : State := { s with d := s.d.set r v }

/-! ### The sequencer's registers -/

/-- A completed command other than `HALT`: `cpc <- cpc + 1` (R25). -/
def State.advance (s : State) : State := { s with cpc := s.cpc + 1 }

/-- The end of a program: `STATUS <- DONE`, `cpc` unchanged (`45_control.md` R170). -/
def State.finish (s : State) : State := { s with status := .done }

/-- Take `n` free NaN draws (`40_butterfly.md` R97). -/
def State.takeDraws (n : Nat) (s : State) : State := { s with draws := s.draws + n }

/-! ### Faults -/

/-- `raise F(code)` (`60_exceptions.md` R228): `STATUS <- ERR`, `ERR <- code`, `EPC <- cpc`, nothing else. -/
def State.raise (f : FaultCode) (s : State) : State :=
  { s with status := .err, err := f, epc := s.cpc }

/-- The registers a program starts from: `d[0..6]`, `cpc`, `ERR`, `EPC` cleared (R30, `70_reset_and_hazards.md` R251). -/
def State.clearRegs (s : State) : State :=
  { s with d := Desc.zero, cpc := 0, err := .none, epc := 0 }

/-- `CTRL.CLEAR` (R30): the only return from a fault besides reset (`60_exceptions.md` R230). No effect during `RUN`. -/
def State.clear (s : State) : State :=
  match s.status with
  | .run => s
  | _ => { s.clearRegs with status := .idle }

/-- `CTRL.START` (R30): from `IDLE` and `DONE` only, so that a fault cannot be lost. -/
def State.start (s : State) : State :=
  match s.status with
  | .idle => { s.clearRegs with status := .run }
  | .done => { s.clearRegs with status := .run }
  | .run => s
  | .err => s

/-- Assertion and release of `rst_n` (`70_reset_and_hazards.md` R250, `10_state.md` R41): registers 0, `IDLE`, both
memories unspecified afterwards. -/
def State.powerOn (s : State) : State :=
  { s.clearRegs with status := .idle, cm := [], dm := [], boot := s.boot + 1 }

/-! ### Fetching -/

/-- Steps 1 and 2 of the sequencer's step (R26): the word at `cpc`, or none when `cpc >= CM_WORDS`
(`60_exceptions.md` R225). -/
def State.fetch (s : State) : Option Word :=
  if s.par.cmWords ≤ s.cpc.toNat then none else some (s.word s.cpc.toNat)

/-! ### The shape of a command -/

/-- The first check that fails (`60_exceptions.md` R227: at most one fault a step, the first in order). -/
def firstFault : List (Option FaultCode) → Option FaultCode
  | [] => none
  | some f :: _ => some f
  | none :: rest => firstFault rest

/-- Steps 4 to 7 of R26 for a command other than `HALT`: its checks, then either the fault with no other effect or the
command's effect and the advance of `cpc` (`20_memory.md` R54). -/
def guarded (checks : List (Option FaultCode)) (effect : State → State) (s : State) :
    Host.Outcome State Fault Refusal :=
  match firstFault checks with
  | some f => .next (s.raise f)
  | none => .next (effect s).advance

end Sys2Proof.Machine
end

