-- ==== Sys2Proof/Machine/Flags.lean ====
section
/-! DEFINITION. The block has no flags and no condition codes (`10_state.md` R38). What a program leaves besides its
results is `STATUS`, `ERR`, `EPC` and the pin `irq`: their words are here, and the CSRs the host reads (R27 to R34). -/

namespace Sys2Proof.Machine

/-- The encoding of the run state (R27). -/
def RunState.code : RunState → Nat
  | .idle => 0
  | .run => 1
  | .done => 2
  | .err => 3

/-- The fault code (`60_exceptions.md` R220). -/
def FaultCode.code : FaultCode → Nat
  | .none => 0
  | .shape => 1
  | .size => 2
  | .dimensionMismatch => 3
  | .illegal => 4
  | .order => 5
  | .addr => 6
  | .fetch => 7

/-- The fault with a code (`60_exceptions.md` R220), none for the codes that no fault has. -/
def FaultCode.ofCode : Nat → FaultCode
  | 1 => .shape
  | 2 => .size
  | 3 => .dimensionMismatch
  | 4 => .illegal
  | 5 => .order
  | 6 => .addr
  | 7 => .fetch
  | _ => .none

/-- The output pin `irq`: 1 exactly when `STATUS` is `DONE` or `ERR` (R40, `60_exceptions.md` R232). -/
def State.irq (s : State) : Bool :=
  match s.status with
  | .done => true
  | .err => true
  | .idle => false
  | .run => false

/-- `CFG`: bits [3:0] `MMAX`, bits [7:4] the tier, 0 for `F64` (R33). -/
def State.cfg (s : State) : BitVec 32 := BitVec.ofNat 32 (s.par.mmax % 16)

/-- `CsrRead(n)` (R34): reads have no side effect and are allowed in every `STATUS`; an unlisted number reads 0. -/
def State.csrRead (s : State) (n : Nat) : BitVec 32 :=
  match n with
  | 0 => 0
  | 1 => BitVec.ofNat 32 s.status.code
  | 2 => BitVec.ofNat 32 s.err.code
  | 3 => s.epc.setWidth 32
  | 4 => s.cpc.setWidth 32
  | 5 => s.cfg
  | 6 => BitVec.ofNat 32 (s.par.dmCells % 2^25)
  | 7 => BitVec.ofNat 32 (s.par.cmWords % 2^16)
  | 8 => s.d.src.setWidth 32
  | 9 => s.d.sstr.setWidth 32
  | 10 => s.d.dst.setWidth 32
  | 11 => s.d.dstr.setWidth 32
  | 12 => s.d.len.setWidth 32
  | 13 => s.d.spitch.setWidth 32
  | 14 => s.d.dpitch.setWidth 32
  | _ => 0

/-- A write of `CTRL` (R30): first CLEAR if bit 1 is set, then START if bit 0 is set; bits [31:2] are ignored. -/
def State.ctrlWrite (v : BitVec 32) (s : State) : State :=
  let s1 := if v.getLsbD 1 then s.clear else s
  if v.getLsbD 0 then s1.start else s1

/-- `CsrWrite(n, v)` (R34): a write to a read-only or unlisted number is ignored. -/
def State.csrWrite (n : Nat) (v : BitVec 32) (s : State) : State :=
  match n with
  | 0 => s.ctrlWrite v
  | _ => s

end Sys2Proof.Machine
end

