-- ==== Sys2Proof/Machine/F64.lean ====
section
/-! DEFINITION. IEEE 754 binary64 as `40_butterfly.md` R91 and R97 fix it: each operation exact, then rounded once, to
nearest with ties to even; subnormals in full; overflow to infinity; a NaN whose sign and payload are free (log entry 5). A
finite value is an integer multiple of 2^-1074, and that integer is what the functions below compute with. -/

namespace Sys2Proof.Machine

/-- A binary64 bit pattern: sign 63, exponent [62:52], fraction [51:0] (`10_state.md` R31). -/
abbrev F64 := BitVec 64

namespace F64

/-- Bits [62:0] of an infinity. -/
def infMag : Nat := 0x7ff0000000000000

/-- The sign bit. -/
def sign (x : F64) : Bool := 2^63 ≤ x.toNat

/-- Bits [62:0]: exponent and fraction. -/
def mag (x : F64) : Nat := x.toNat % 2^63

def isNaN (x : F64) : Bool := infMag < mag x

def isInf (x : F64) : Bool := mag x == infMag

/-- The magnitude of a finite pattern in units of 2^-1074: a subnormal is its fraction; a normal number is its fraction
with the hidden bit, scaled by its exponent. -/
def magUnits (m : Nat) : Nat :=
  if m / 2^52 = 0 then m else (m % 2^52 + 2^52) * 2^(m / 2^52 - 1)

/-- The value of a finite pattern in units of 2^-1074. -/
def units (x : F64) : Int := if sign x then -(magUnits (mag x) : Int) else magUnits (mag x)

/-- The pattern with a given sign and bits [62:0]. -/
def ofMag (s : Bool) (m : Nat) : F64 := BitVec.ofNat 64 (if s then 2^63 + m else m)

/-- Neither NaN nor infinite. -/
def isFinite (x : F64) : Bool := mag x < infMag

/-- A quiet NaN with the sign and payload of the given bits. -/
def quietNaN (b : BitVec 64) : F64 := b ||| 0x7ff8000000000000#64

/-- The NaN an operation answers (R97): quiet, its sign and payload free. -/
def nan (op : ArithOp) (x y : F64) : F64 := quietNaN (Config.nanBits op x y)

/-- Round to nearest, ties to even: bits [62:0] of the pattern nearest to the non-negative value `num / den` units of
2^-1074. The quotient keeps 53 bits (all of them below 2^53, which is gradual underflow); adding the rounded significand
to the exponent field carries into the exponent by itself, and everything past the largest finite number is infinity. -/
def roundMag (num den : Nat) : Nat :=
  let shift := Nat.log2 (num / den) - 52
  let unit := den * 2^shift
  let q := num / unit
  let r := num % unit
  let up := unit < 2 * r ∨ (2 * r = unit ∧ q % 2 = 1)
  Nat.min (shift * 2^52 + (if up then q + 1 else q)) infMag

/-- The rounding of plus or minus `num / den` units. -/
def ofUnits (s : Bool) (num den : Nat) : F64 := ofMag s (roundMag num den)

/-- The value with the other sign. -/
def neg (x : F64) : F64 := x ^^^ 0x8000000000000000#64

/-- The sum of `radd` and `rsub` (R91). An exact zero sum is `-0` only when both operands are negative. -/
def sum (op : ArithOp) (x y : F64) : F64 :=
  if isNaN x || isNaN y then nan op x y
  else if isInf x then (if isInf y && (sign x != sign y) then nan op x y else x)
  else if isInf y then y
  else
    let v := units x + units y
    if v = 0 then ofMag (sign x && sign y) 0 else ofUnits (decide (v < 0)) v.natAbs 1

/-- `radd` (R91). -/
def add (x y : F64) : F64 := sum .add x y

/-- `rsub` (R91): the sum with the second operand's sign changed. -/
def sub (x y : F64) : F64 := sum .sub x (neg y)

/-- `rmul` (R91): the sign of the product, a zero's included, is the exclusive-or of the operands' signs. -/
def mul (x y : F64) : F64 :=
  let s := sign x != sign y
  if isNaN x || isNaN y then nan .mul x y
  else if isInf x || isInf y then (if mag x = 0 ∨ mag y = 0 then nan .mul x y else ofMag s infMag)
  else ofUnits s (magUnits (mag x) * magUnits (mag y)) (2^1074)

/-- `rdiv` (R91). The block divides by a power of two at least 1 only; the other cases are IEEE 754's. -/
def div (x y : F64) : F64 :=
  let s := sign x != sign y
  if isNaN x || isNaN y then nan .div x y
  else if isInf x then (if isInf y then nan .div x y else ofMag s infMag)
  else if isInf y then ofMag s 0
  else if mag y = 0 then (if mag x = 0 then nan .div x y else ofMag s infMag)
  else ofUnits s (magUnits (mag x) * 2^1074) (magUnits (mag y))

/-- `ofInt` (R91): the binary64 value of an integer, exact up to 2^53 in magnitude. -/
def ofInt (v : Int) : F64 := ofUnits (decide (v < 0)) (v.natAbs * 2^1074) 1

/-- The mean of natural numbers in a binary64 host (`47_host_software.md` R210): the quotient of the exact sum and the count,
rounded once, as long as the sum is below 2^53. Of equal numbers it is that number whatever the sum, since the identities of
R210 hold exactly. Any other mean is a free value, finite and not negative (log entry 12). -/
def mean (xs : List Nat) : F64 :=
  if xs.sum < 2^53 ∨ xs.all (· == xs.headD 0) then ofUnits false (xs.sum * 2^1074) xs.length
  else ofMag false (Config.freeMean xs % infMag)

/-- The value of a finite binary64 pattern as a real number (`10_state.md` R31, `40_butterfly.md` R91). -/
noncomputable def toReal (x : F64) : ℝ := (units x : ℝ) / 2^1074

/-- `trunc` (`46_macros_2d.md` R189): toward zero; a NaN or an infinity has none. -/
def trunc (x : F64) : Option Int := if isFinite x then some ((units x).tdiv (2^1074)) else none

end F64

end Sys2Proof.Machine
end

