-- ==== Sys2Proof/Machine/Numerics.lean ====
section
/-! DEFINITION. The numerics record of `40_butterfly.md` R90, the complex operations and the butterfly stated once over it
(R92, R100), and a numerics tier: the record with the cells of its data memory. -/

namespace Sys2Proof.Machine

/-- The numerics record (R90). `tw E k` is `TW(E, k)`, the twiddle factor of modulus `2^E` and integer exponent `k`. -/
structure Numerics where
  R : Type
  radd : R → R → R
  rsub : R → R → R
  rmul : R → R → R
  rdiv : R → R → R
  ofInt : Int → R
  tw : Nat → Int → Cplx R

namespace Numerics

variable (num : Numerics)

/-- `cadd` (R92). -/
def cadd (a b : Cplx num.R) : Cplx num.R :=
  { re := num.radd a.re b.re, im := num.radd a.im b.im }

/-- `csub` (R92). -/
def csub (a b : Cplx num.R) : Cplx num.R :=
  { re := num.rsub a.re b.re, im := num.rsub a.im b.im }

/-- `cmul(w, b)` (R92): four products and two sums, in this order, none fused. -/
def cmul (w b : Cplx num.R) : Cplx num.R :=
  { re := num.rsub (num.rmul w.re b.re) (num.rmul w.im b.im),
    im := num.radd (num.rmul w.re b.im) (num.rmul w.im b.re) }

/-- `cdivN(a, M)` (R92): both parts divided by `2^M`. -/
def cdivN (a : Cplx num.R) (m : Nat) : Cplx num.R :=
  { re := num.rdiv a.re (num.ofInt (2^m)), im := num.rdiv a.im (num.ofInt (2^m)) }

/-- `(+0, +0)`. -/
def czero : Cplx num.R := { re := num.ofInt 0, im := num.ofInt 0 }

/-- The butterfly (R100): `(a + w·b, a - w·b)`, the product formed once. -/
def bfly (a b w : Cplx num.R) : Cplx num.R × Cplx num.R :=
  let t := num.cmul w b
  (num.cadd a t, num.csub a t)

end Numerics

/-- A numerics tier (`00_scope.md` R5, `NUM`): its arithmetic, its cells and their views. Every command's effect on `DM` and
every routine of the host is stated once over it. -/
structure Tier where
  num : Numerics
  /-- A cell of data memory (`10_state.md` R31). -/
  C : Type
  /-- `elem(ty, ·)`: the complex value of a source cell under a type tag (`20_memory.md` R55). -/
  elem : ElemTy → C → Cplx num.R
  /-- `cell(z)` as a command writes it; a NaN takes the draws `n` and `n + 1` (`40_butterfly.md` R97). -/
  store : Nat → Cplx num.R → C
  /-- `cell(z)` as the host writes it (`46_macros_2d.md` R180 (b)). -/
  cplxCell : Cplx num.R → C
  /-- The cell that holds an integer, given by its 128 bits (`10_state.md` R32). -/
  intBits : Cell → C
  /-- `trunc` (`46_macros_2d.md` R189) of a value that has one. -/
  trunc : num.R → Option Int
  /-- The integer that a real part with no integer of the type re-quantizes to (R189). -/
  freeInt : num.R → BitVec 32
  /-- The byte that a real part without a truncation re-quantizes to (R189). -/
  freeByte : num.R → Byte
  /-- The mean of natural numbers (`47_host_software.md` R210). -/
  mean : List Nat → num.R
  /-- A value lies below a real number (`47_host_software.md` R211). -/
  below : num.R → ℝ → Prop

end Sys2Proof.Machine
end

