-- ==== Sys2Proof/Machine/Twiddle.lean ====
section
/-! DEFINITION. The twiddle table `TWROM` of `40_butterfly.md` R95, computed: cosine and sine of the exact angle in
192-bit fixed point, rounded once to binary64. The fixed-point error is far below the distance of any entry with
`E <= 15` from a rounding boundary, so every such entry is the correctly rounded one (log entry 7). -/

namespace Sys2Proof.Machine

namespace Twiddle

/-- The fixed-point one, 2^192. -/
def one : Nat := 2^192

/-- The integer part of π·2^192. -/
def piFixed : Nat := 0x3243F6A8885A308D313198A2E03707344A4093822299F31D0

/-- `1 - x2/(j(j+1)) + x2^2/(j(j+1)(j+2)(j+3)) - …` by Horner's rule, `n` nested terms, `x2` the fixed-point square of
the argument: the cosine from `j = 1`, the sine divided by its argument from `j = 2`. -/
def series (x2 : Nat) : Nat → Nat → Nat
  | 0, _ => one
  | n + 1, j => one - (x2 * series x2 n (j + 2) / one) / (j * (j + 1))

/-- The fixed-point argument `(π/2)·f/2^E`. -/
def angle (e f : Nat) : Nat := piFixed * f / 2^(e + 1)

/-- The fixed-point cosine of `(π/2)·f/2^E`, for `2f <= 2^E`. -/
def cosFixed (e f : Nat) : Nat :=
  let x := angle e f
  series (x * x / one) 24 1

/-- The fixed-point sine of `(π/2)·f/2^E`, for `2f <= 2^E`. -/
def sinFixed (e f : Nat) : Nat :=
  let x := angle e f
  x * series (x * x / one) 24 2 / one

/-- Cosine and sine of `(π/2)·f/2^E` for `f <= 2^E`; past the half of the quadrant they change places. -/
def quadrant (e f : Nat) : Nat × Nat :=
  if 2 * f ≤ 2^e then (cosFixed e f, sinFixed e f)
  else (sinFixed e (2^e - f), cosFixed e (2^e - f))

/-- A signed fixed-point value as binary64, rounded once; an exact zero becomes `+0` (R95). -/
def toF64 (s : Bool) (v : Nat) : F64 :=
  F64.ofUnits (s && decide (v ≠ 0)) (v * 2^1074) one

/-- `TWROM(E, k)`: `( RN(cos(2πk/2^E)), RN(-sin(2πk/2^E)) )` (R95). The exponent is reduced modulo `2^E`, and the angle is
`q` quadrants and `f/2^E` of the next. -/
def twrom (e : Nat) (k : Int) : Cplx F64 :=
  let r := (k % (2^e : Int)).toNat
  let q := 4 * r / 2^e
  let cs := quadrant e (4 * r % 2^e)
  match q with
  | 0 => { re := toF64 false cs.1, im := toF64 true cs.2 }
  | 1 => { re := toF64 true cs.2, im := toF64 true cs.1 }
  | 2 => { re := toF64 true cs.1, im := toF64 false cs.2 }
  | _ => { re := toF64 false cs.2, im := toF64 false cs.1 }

end Twiddle

/-- Tier `F64`, the hardware (`40_butterfly.md` R90, R91, R95). -/
abbrev f64Numerics : Numerics where
  R := F64
  radd := F64.add
  rsub := F64.sub
  rmul := F64.mul
  rdiv := F64.div
  ofInt := F64.ofInt
  tw := Twiddle.twrom

end Sys2Proof.Machine
end

