-- ==== Sys2Proof/Machine/Operands.lean ====
section
/-! DEFINITION. Operand forms: the addresses of vector and matrix elements (`20_memory.md` R51), the three views of a
cell (`10_state.md` R31, R32), the typed element read (`20_memory.md` R55), and the checks on operands
(`60_exceptions.md` R222, R223, R226). Address arithmetic is on natural numbers, never reduced (`00_scope.md` R7). -/

namespace Sys2Proof.Machine

/-! ### Addresses -/

/-- Source vector element `j`: `SRC + j·SSTR`. -/
def Desc.srcElem (d : Desc) (j : Nat) : Nat := d.src.toNat + j * d.sstr.toNat

/-- Destination vector element `j`: `DST + j·DSTR`. -/
def Desc.dstElem (d : Desc) (j : Nat) : Nat := d.dst.toNat + j * d.dstr.toNat

/-- Source matrix element `(r, c)`: `SRC + r·SPITCH + c·SSTR`. -/
def Desc.srcAt (d : Desc) (r c : Nat) : Nat := d.src.toNat + r * d.spitch.toNat + c * d.sstr.toNat

/-- Destination matrix element `(r, c)`: `DST + r·DPITCH + c·DSTR`. -/
def Desc.dstAt (d : Desc) (r c : Nat) : Nat := d.dst.toNat + r * d.dpitch.toNat + c * d.dstr.toNat

/-! ### Checks -/

/-- OrderError (R222): the order field exceeds `MMAX`. -/
def orderCheck (par : Params) (m : Nat) : Option FaultCode :=
  if par.mmax < m then some .order else none

/-- SizeError (R223): `LEN > 2^M`. -/
def sizeCheck (d : Desc) (m : Nat) : Option FaultCode :=
  if 2^m < d.len.toNat then some .size else none

/-- AddrError (R226) when an operand has an address that is not valid. -/
def addrCheck (valid : Bool) : Option FaultCode :=
  if valid then none else some .addr

/-- The first `n` source vector elements have valid addresses: strides are not negative, so the last one decides, and
an empty vector has no address (R226). -/
def srcVecValid (par : Params) (d : Desc) (n : Nat) : Bool :=
  n == 0 || d.srcElem (n - 1) < par.dmCells

/-- The `n` destination vector elements have valid addresses (R226). -/
def dstVecValid (par : Params) (d : Desc) (n : Nat) : Bool :=
  n == 0 || d.dstElem (n - 1) < par.dmCells

/-- The `n` by `n` source matrix has valid addresses (R226). -/
def srcMatValid (par : Params) (d : Desc) (n : Nat) : Bool :=
  n == 0 || d.srcAt (n - 1) (n - 1) < par.dmCells

/-- The `n` by `n` destination matrix has valid addresses (R226). -/
def dstMatValid (par : Params) (d : Desc) (n : Nat) : Bool :=
  n == 0 || d.dstAt (n - 1) (n - 1) < par.dmCells

/-! ### The views of a cell -/

/-- The complex view (`10_state.md` R31): the real part in the low half. -/
def cplxOf (c : Cell) : Cplx F64 :=
  { re := c.extractLsb' 0 64, im := c.extractLsb' 64 64 }

/-- The byte view (`10_state.md` R32): bits [7:0], unsigned; the other bits are ignored. -/
def byteOf (c : Cell) : Int := (c.extractLsb' 0 8).toNat

/-- The integer view (`10_state.md` R32): bits [31:0], two's complement; the other bits are ignored. -/
def intOf (c : Cell) : Int := (c.extractLsb' 0 32).toInt

/-- The source cell under an element type tag (`20_memory.md` R55): a byte or an integer gets the imaginary part `+0`,
a complex element keeps both parts. -/
def elemOf (ty : ElemTy) (c : Cell) : Cplx F64 :=
  match ty with
  | .byte => { re := F64.ofInt (byteOf c), im := F64.ofInt 0 }
  | .int => { re := F64.ofInt (intOf c), im := F64.ofInt 0 }
  | .complex => cplxOf c

/-- One half of a written cell: the bits of the value, and for a NaN a quiet NaN with free sign and payload, draw
number `n` (`40_butterfly.md` R97). -/
def halfBits (n : Nat) (x : F64) : BitVec 64 :=
  if F64.isNaN x then F64.quietNaN (Config.freeNaN n) else x

/-- `cell(z)` as a command writes it (`10_state.md` R31): `{bits64(im), bits64(re)}`. It takes the draws `n` and `n + 1`. -/
def cellOf (n : Nat) (z : Cplx F64) : Cell :=
  (halfBits (n + 1) z.im ++ halfBits n z.re : BitVec (64 + 64))

/-- `cell(z)` as the host writes it (`46_macros_2d.md` R180 (b)): the bits of `z` as they are. -/
def cplxCell (z : Cplx F64) : Cell := (z.im ++ z.re : BitVec (64 + 64))

/-- Tier `F64`, the hardware (`40_butterfly.md` R90). -/
abbrev f64Tier : Tier where
  num := f64Numerics
  C := Cell
  elem := elemOf
  store := cellOf
  cplxCell := cplxCell
  intBits := fun c => c
  trunc := F64.trunc
  freeInt := Config.freeInt
  freeByte := Config.freeByte
  mean := F64.mean
  below := fun x q => F64.toReal x < q

/-- The pairs that write a list of complex values to given addresses, in order, from draw `n` on. -/
def cplxWrites (T : Tier) (n : Nat) (addr : Nat → Nat) (zs : List (Cplx T.num.R)) : List (Nat × T.C) :=
  zs.zipIdx.map fun p => (addr p.2, T.store (n + 2 * p.2) p.1)

/-- `zext_128(v)`: the integer `BRTAB` writes (`10_state.md` R32). -/
def natCell (T : Tier) (v : Nat) : T.C := T.intBits (BitVec.ofNat 128 v)

end Sys2Proof.Machine
end

