-- ==== Sys2Proof/Machine/Engine.lean ====
section
/-! DEFINITION. The bit-reversal indexer (`41_bitrev.md` R120) and the radix-2 network that the forward and inverse
engines share (`42_fft.md` R132 to R137, `43_ifft.md` R152), over the numerics record. The working buffer `WB` is a list
that lives inside one command (`10_state.md` R37). -/

namespace Sys2Proof.Machine

/-- `rev(M, i)` (R120): the sum over `t` in `[0, M)` of bit `t` of `i` times `2^(M-1-t)`. -/
def rev (m i : Nat) : Nat :=
  ((List.range m).map fun t => i / 2^t % 2 * 2^(m - 1 - t)).sum

section
variable (num : Numerics)

/-- The load through the indexer (`42_fft.md` R134): `WB[j] = x[rev(M, j)]`. -/
def loadReversed (m : Nat) (x : List (Cplx num.R)) : List (Cplx num.R) :=
  (List.range (2^m)).map fun j => x.getD (rev m j) num.czero

/-- One in-place butterfly (R135): `WB[p]` and `WB[q]` become `a' = a + w·b` and `b' = a - w·b`. -/
def butterflyAt (w : Cplx num.R) (p q : Nat) (wb : List (Cplx num.R)) : List (Cplx num.R) :=
  let r := num.bfly (wb.getD p num.czero) (wb.getD q num.czero) w
  (wb.set p r.1).set q r.2

/-- The butterflies of group `g` of stage `m`, positions ascending (R135): `p = g·span + i`, `q = p + half`, twiddle
`TW(m+1, sgn·i)`. The direction `sgn` is `1` forward and `-1` inverse. -/
def groupPass (sgn : Int) (m g : Nat) (wb : List (Cplx num.R)) : List (Cplx num.R) :=
  (List.range (2^m)).foldl
    (fun wb (i : Nat) => butterflyAt num (num.tw (m + 1) (sgn * i)) (g * 2^(m + 1) + i) (g * 2^(m + 1) + i + 2^m) wb) wb

/-- Stage `m` of an order-`M` transform, groups ascending (R135). -/
def stagePass (sgn : Int) (bigM m : Nat) (wb : List (Cplx num.R)) : List (Cplx num.R) :=
  (List.range (2^bigM / 2^(m + 1))).foldl (fun wb g => groupPass num sgn m g wb) wb

/-- All stages, `m = 0, 1, …, M-1` (R135, R136). -/
def stages (sgn : Int) (bigM : Nat) (wb : List (Cplx num.R)) : List (Cplx num.R) :=
  (List.range bigM).foldl (fun wb m => stagePass num sgn bigM m wb) wb

/-- The forward transform of a padded input of `2^M` elements, in natural order (`42_fft.md` R131). -/
def forward (m : Nat) (x : List (Cplx num.R)) : List (Cplx num.R) :=
  stages num 1 m (loadReversed num m x)

/-- The inverse transform (`43_ifft.md` R151): conjugate twiddles, and each output divided by `N` after all stages. -/
def inverse (m : Nat) (x : List (Cplx num.R)) : List (Cplx num.R) :=
  (stages num (-1) m (loadReversed num m x)).map fun z => num.cdivN z m

end

/-- Widening and zero-padding (`42_fft.md` R132): `2^M` elements, the first `LEN` read from the source vector of the
snapshot `read` under the type tag, the tail `(+0, +0)`. -/
def paddedInput (T : Tier) (ty : ElemTy) (m : Nat) (d : Desc) (read : Nat → T.C) : List (Cplx T.num.R) :=
  (List.range (2^m)).map fun j =>
    if j < d.len.toNat then T.elem ty (read (d.srcElem j)) else T.num.czero

/-- The checks of `FFT` and `IFFT`, in order (`60_exceptions.md` R227). -/
def transformChecks (par : Params) (d : Desc) (m : Nat) : List (Option FaultCode) :=
  [orderCheck par m, sizeCheck d m,
    addrCheck (srcVecValid par d d.len.toNat && dstVecValid par d (2^m))]

end Sys2Proof.Machine
end

