-- ==== Sys2Proof/Machine/BitReversal.lean ====
section
/-! DEFINITION. The bit-reversal indexer's commands: `BRTAB` and `BRPERM` (`41_bitrev.md`). -/

namespace Sys2Proof.Machine

/-- `BRTAB`'s writes (R123): `rev(M, i)` to `DST + i·DSTR`. -/
def brtabWrites (T : Tier) (m : Nat) (d : Desc) : List (Nat × T.C) :=
  (List.range (2^m)).map fun i => (d.dstElem i, natCell T (rev m i))

/-- `BRTAB M` (R123). -/
def execBrtab (m : Nat) (s : State) : Host.Outcome State Fault Refusal :=
  guarded [orderCheck s.par m, addrCheck (dstVecValid s.par s.d (2^m))]
    (fun s => s.writeCells (brtabWrites f64Tier m s.d)) s

/-- `BRPERM`'s writes (R124): source element `rev(M, i)`, a raw cell of the snapshot `read`, to `DST + i·DSTR`. -/
def brpermWrites {C : Type} (m : Nat) (d : Desc) (read : Nat → C) : List (Nat × C) :=
  (List.range (2^m)).map fun i => (d.dstElem i, read (d.srcElem (rev m i)))

/-- `BRPERM M` (R124). -/
def execBrperm (m : Nat) (s : State) : Host.Outcome State Fault Refusal :=
  guarded
    [orderCheck s.par m, addrCheck (srcVecValid s.par s.d (2^m) && dstVecValid s.par s.d (2^m))]
    (fun s => s.writeCells (brpermWrites m s.d s.cell)) s

end Sys2Proof.Machine
end

