-- ==== Sys2Proof/Machine/Butterfly.lean ====
section
/-! DEFINITION. The butterfly unit's command, `BFLY` (`40_butterfly.md` R101). -/

namespace Sys2Proof.Machine

/-- The checks of `BFLY` (R101): `E > MMAX`, then the addresses `SRC`, `SRC + SSTR`, `DST`, `DST + DSTR`. -/
def bflyChecks (par : Params) (d : Desc) (e : Nat) : List (Option FaultCode) :=
  [orderCheck par e, addrCheck (srcVecValid par d 2 && dstVecValid par d 2)]

/-- `BFLY`'s writes (R101): one butterfly with twiddle exponent `k` on two cells of the snapshot `read`, `a'` to `DST`, then
`b'` to `DST + DSTR`. -/
def bflyWrites (T : Tier) (e : Nat) (k : Int) (d : Desc) (read : Nat → T.C) (n : Nat) : List (Nat × T.C) :=
  let r := T.num.bfly (T.elem .complex (read (d.srcElem 0))) (T.elem .complex (read (d.srcElem 1))) (T.num.tw e k)
  cplxWrites T n d.dstElem [r.1, r.2]

/-- The effect of one `BFLY` once its checks have passed. -/
def bflyEffect (e : Nat) (k : Int) (s : State) : State :=
  (s.writeCells (bflyWrites f64Tier e k s.d s.cell s.draws)).takeDraws 4

/-- `BFLY.F E, k` (R101, `dir = 0`): twiddle `TW(E, k)`. -/
def execBflyF (e k : Nat) (s : State) : Host.Outcome State Fault Refusal :=
  guarded (bflyChecks s.par s.d e) (bflyEffect e (k : Int)) s

/-- `BFLY.I E, k` (R101, `dir = 1`): twiddle `TW(E, -k)`. -/
def execBflyI (e k : Nat) (s : State) : Host.Outcome State Fault Refusal :=
  guarded (bflyChecks s.par s.d e) (bflyEffect e (-(k : Int))) s

end Sys2Proof.Machine
end

