-- ==== Sys2Proof/Machine/Fft.lean ====
section
/-! DEFINITION. The forward engine's commands, `FFT.B`, `FFT.I` and `FFT.C` (`42_fft.md` R131). -/

namespace Sys2Proof.Machine

/-- The writes of `FFT ty, M` (R131, R137): output element `j` to `DST + j·DSTR`, ascending. -/
def fftWrites (T : Tier) (ty : ElemTy) (m : Nat) (d : Desc) (read : Nat → T.C) (n : Nat) : List (Nat × T.C) :=
  cplxWrites T n d.dstElem (forward T.num m (paddedInput T ty m d read))

/-- The effect of `FFT ty, M` once its checks have passed. -/
def fftEffect (ty : ElemTy) (m : Nat) (s : State) : State :=
  (s.writeCells (fftWrites f64Tier ty m s.d s.cell s.draws)).takeDraws (2 * 2^m)

/-- `FFT.B M` (R131, `ty = 0`): unsigned bytes. -/
def execFftB (m : Nat) (s : State) : Host.Outcome State Fault Refusal :=
  guarded (transformChecks s.par s.d m) (fftEffect .byte m) s

/-- `FFT.I M` (R131, `ty = 1`): signed 32-bit integers. -/
def execFftI (m : Nat) (s : State) : Host.Outcome State Fault Refusal :=
  guarded (transformChecks s.par s.d m) (fftEffect .int m) s

/-- `FFT.C M` (R131, `ty = 2`): complex values. -/
def execFftC (m : Nat) (s : State) : Host.Outcome State Fault Refusal :=
  guarded (transformChecks s.par s.d m) (fftEffect .complex m) s

end Sys2Proof.Machine
end

