-- ==== Sys2Proof/Machine/Ifft.lean ====
section
/-! DEFINITION. The inverse engine's command, `IFFT` (`43_ifft.md` R151). -/

namespace Sys2Proof.Machine

/-- The writes of `IFFT M` (R151): complex source elements, conjugate twiddles, division by `N`. -/
def ifftWrites (T : Tier) (m : Nat) (d : Desc) (read : Nat → T.C) (n : Nat) : List (Nat × T.C) :=
  cplxWrites T n d.dstElem (inverse T.num m (paddedInput T .complex m d read))

/-- The effect of `IFFT M` once its checks have passed. -/
def ifftEffect (m : Nat) (s : State) : State :=
  (s.writeCells (ifftWrites f64Tier m s.d s.cell s.draws)).takeDraws (2 * 2^m)

/-- `IFFT M` (R151). -/
def execIfft (m : Nat) (s : State) : Host.Outcome State Fault Refusal :=
  guarded (transformChecks s.par s.d m) (ifftEffect m) s

end Sys2Proof.Machine
end

