-- ==== Sys2Proof/Machine/QShift.lean ====
section
/-! DEFINITION. The quadrant shifter's command, `QSHIFT` (`44_qshift.md` R161). -/

namespace Sys2Proof.Machine

/-- The row or column the quadrant swap takes index `i` from: `(i + N div 2) mod N` (R161). -/
def shifted (n i : Nat) : Nat := (i + n / 2) % n

/-- `QSHIFT`'s writes (R161), row by row: raw cells of the snapshot `read`. -/
def qshiftWrites {C : Type} (m : Nat) (d : Desc) (read : Nat → C) : List (Nat × C) :=
  (List.range (2^m)).flatMap fun r => (List.range (2^m)).map fun c =>
    (d.dstAt r c, read (d.srcAt (shifted (2^m) r) (shifted (2^m) c)))

/-- `QSHIFT M` (R161). -/
def execQshift (m : Nat) (s : State) : Host.Outcome State Fault Refusal :=
  guarded
    [orderCheck s.par m, addrCheck (srcMatValid s.par s.d (2^m) && dstMatValid s.par s.d (2^m))]
    (fun s => s.writeCells (qshiftWrites m s.d s.cell)) s

end Sys2Proof.Machine
end

