-- ==== Sys2Proof/Machine/Sequencer.lean ====
section
/-! DEFINITION. The sequencer's own commands: `HALT` and `SETD` (`45_control.md`). -/

namespace Sys2Proof.Machine

/-- `HALT` (R170): `STATUS <- DONE`; `cpc` keeps the index of this command. -/
def execHalt (s : State) : Host.Outcome State Fault Refusal := .next s.finish

/-- `SETD rd, imm24` (R171): `d[rd] <- imm24`. No check. -/
def execSetd (rd : Reg) (imm : BitVec 24) (s : State) : Host.Outcome State Fault Refusal :=
  guarded [] (fun s => s.setReg rd imm) s

end Sys2Proof.Machine
end

