-- ==== Sys2Proof/Machine/Dispatch.lean ====
section
/-! DEFINITION. The dispatch: one arm per command, each one direct call of its meaning. -/

namespace Sys2Proof.Machine

/-- The meaning of a decoded command: steps 4 to 7 of `10_state.md` R26. -/
def exec (i : Instr) (s : State) : Host.Outcome State Fault Refusal :=
  match i with
  | .halt => Sys2Proof.Machine.execHalt s
  | .setd rd imm => Sys2Proof.Machine.execSetd rd imm s
  | .brtab m => Sys2Proof.Machine.execBrtab m s
  | .brperm m => Sys2Proof.Machine.execBrperm m s
  | .bflyF e k => Sys2Proof.Machine.execBflyF e k s
  | .bflyI e k => Sys2Proof.Machine.execBflyI e k s
  | .fftB m => Sys2Proof.Machine.execFftB m s
  | .fftI m => Sys2Proof.Machine.execFftI m s
  | .fftC m => Sys2Proof.Machine.execFftC m s
  | .ifft m => Sys2Proof.Machine.execIfft m s
  | .qshift m => Sys2Proof.Machine.execQshift m s

end Sys2Proof.Machine
end

