-- ==== Sys2Proof/Machine/Footprint.lean ====
section
/-! DEFINITION. What a command checks and which cells it reads and writes, as functions of the command and the
descriptor registers alone (`60_exceptions.md` R227, `20_memory.md` R69), and the cells the rest of a running program
owns (`20_memory.md` R60). -/

namespace Sys2Proof.Machine

/-- The addresses of a vector of `n` elements. -/
def vecSet (elem : Nat → Nat) (n : Nat) : List Nat := (List.range n).map elem

/-- The addresses of an `n` by `n` matrix, row by row. -/
def matSet (at_ : Nat → Nat → Nat) (n : Nat) : List Nat :=
  (List.range n).flatMap fun r => (List.range n).map fun c => at_ r c

/-- The source set of a command (R69). -/
def srcSet (i : Instr) (d : Desc) : List Nat :=
  match i with
  | .halt => []
  | .setd _ _ => []
  | .brtab _ => []
  | .brperm m => vecSet d.srcElem (2^m)
  | .bflyF _ _ => vecSet d.srcElem 2
  | .bflyI _ _ => vecSet d.srcElem 2
  | .fftB _ => vecSet d.srcElem d.len.toNat
  | .fftI _ => vecSet d.srcElem d.len.toNat
  | .fftC _ => vecSet d.srcElem d.len.toNat
  | .ifft _ => vecSet d.srcElem d.len.toNat
  | .qshift m => matSet d.srcAt (2^m)

/-- The destination set of a command (R69). -/
def dstSet (i : Instr) (d : Desc) : List Nat :=
  match i with
  | .halt => []
  | .setd _ _ => []
  | .brtab m => vecSet d.dstElem (2^m)
  | .brperm m => vecSet d.dstElem (2^m)
  | .bflyF _ _ => vecSet d.dstElem 2
  | .bflyI _ _ => vecSet d.dstElem 2
  | .fftB m => vecSet d.dstElem (2^m)
  | .fftI m => vecSet d.dstElem (2^m)
  | .fftC m => vecSet d.dstElem (2^m)
  | .ifft m => vecSet d.dstElem (2^m)
  | .qshift m => matSet d.dstAt (2^m)

/-- The order field of a command (R222), 0 for the two that have none. -/
def orderField : Instr → Nat
  | .halt => 0
  | .setd _ _ => 0
  | .brtab m => m
  | .brperm m => m
  | .bflyF e _ => e
  | .bflyI e _ => e
  | .fftB m => m
  | .fftI m => m
  | .fftC m => m
  | .ifft m => m
  | .qshift m => m

/-- `FFT` and `IFFT`, the commands that read `LEN` (R223). -/
def readsLen : Instr → Bool
  | .halt => false
  | .setd _ _ => false
  | .brtab _ => false
  | .brperm _ => false
  | .bflyF _ _ => false
  | .bflyI _ _ => false
  | .fftB _ => true
  | .fftI _ => true
  | .fftC _ => true
  | .ifft _ => true
  | .qshift _ => false

/-- The fault of a decoded command, if it has one: the table of R227, from the command word, the descriptor registers
and the parameters alone. -/
def faultOf (i : Instr) (par : Params) (d : Desc) : Option FaultCode :=
  if par.mmax < orderField i then some .order
  else if readsLen i ∧ 2^(orderField i) < d.len.toNat then some .size
  else if (srcSet i d).any (fun a => par.dmCells ≤ a) ∨ (dstSet i d).any (fun a => par.dmCells ≤ a) then some .addr
  else none

/-- The descriptor registers after a command that completed (`10_state.md` R22). -/
def descAfter (i : Instr) (d : Desc) : Desc :=
  match i with
  | .setd rd imm => d.set rd imm
  | _ => d

/-- A command's writes to `DM`, in order, from the snapshot `read` and draw `n` on (`20_memory.md` R52, R53). -/
def writesOf (T : Tier) (i : Instr) (d : Desc) (read : Nat → T.C) (n : Nat) : List (Nat × T.C) :=
  match i with
  | .halt => []
  | .setd _ _ => []
  | .brtab m => brtabWrites T m d
  | .brperm m => brpermWrites m d read
  | .bflyF e k => bflyWrites T e (k : Int) d read n
  | .bflyI e k => bflyWrites T e (-(k : Int)) d read n
  | .fftB m => fftWrites T .byte m d read n
  | .fftI m => fftWrites T .int m d read n
  | .fftC m => fftWrites T .complex m d read n
  | .ifft m => ifftWrites T m d read n
  | .qshift m => qshiftWrites m d read

/-- How many NaN draws a command takes (`40_butterfly.md` R97). -/
def drawsOf (i : Instr) : Nat :=
  match i with
  | .halt => 0
  | .setd _ _ => 0
  | .brtab _ => 0
  | .brperm _ => 0
  | .bflyF _ _ => 4
  | .bflyI _ _ => 4
  | .fftB m => 2 * 2^m
  | .fftI m => 2 * 2^m
  | .fftC m => 2 * 2^m
  | .ifft m => 2 * 2^m
  | .qshift _ => 0

/-- The command at index `pc` or a later one of the straight-line program (`45_control.md` R175), up to its HALT or its
fault, reads or writes cell `a`; `fuel` bounds the commands looked at. A command that faults touches nothing. -/
def ownedFrom (s : State) (a : Nat) : Nat → Nat → Desc → Bool
  | 0, _, _ => false
  | fuel + 1, pc, d =>
    if s.par.cmWords ≤ pc then false
    else
      match decode (s.word pc) with
      | .error _ => false
      | .ok i =>
        if (faultOf i s.par d).isSome then false
        else if (srcSet i d).contains a || (dstSet i d).contains a then true
        else if i = .halt then false
        else ownedFrom s a fuel (pc + 1) (descAfter i d)

/-- Cell `a` is in the source or destination set of a command the running program will still execute (R60). -/
def State.owned (s : State) (a : Nat) : Bool :=
  ownedFrom s a (s.par.cmWords - s.cpc.toNat) s.cpc.toNat s.d

end Sys2Proof.Machine
end

