-- ==== Sys2Proof/Machine/HostPort.lean ====
section
/-! DEFINITION. The host port (`20_memory.md` R56, R58 to R60) and the reset pin (`70_reset_and_hazards.md` R250). -/

namespace Sys2Proof.Machine

/-- The host may not write `CM` during a run, and reads it only outside one (R59, R60, `10_state.md` R35). -/
def State.cmOwned (s : State) : Bool := s.status == .run

/-- The host may not touch a cell a remaining command of the running program touches (R60). -/
def State.dmOwned (s : State) (a : Nat) : Bool := s.status == .run && s.owned a

/-- `CmRead(i)`: the word, or none for an index outside `CM` (R59); refused during a run. -/
def cmRead (i : Nat) (s : State) : Host.Outcome (Option Word) Fault Refusal :=
  if s.cmOwned then .refused .hostOwnership
  else .next (if i < s.par.cmWords then some (s.word i) else none)

/-- `DmRead(a)`: the cell, or none for an address outside `DM` (R59); refused where R60 forbids it. -/
def dmRead (a : Nat) (s : State) : Host.Outcome (Option Cell) Fault Refusal :=
  if s.dmOwned a then .refused .hostOwnership
  else .next (if a < s.par.dmCells then some (s.cell a) else none)

/-- `CmWrite(i, w)` (R59): no effect outside `CM`; refused during a run (R60). -/
def cmWrite (i : Nat) (w : Word) (s : State) : Host.Outcome State Fault Refusal :=
  if s.cmOwned then .refused .hostOwnership
  else .next (if i < s.par.cmWords then s.storeWord i w else s)

/-- `DmWrite(a, c)` (R59): no effect outside `DM`; refused where R60 forbids it. -/
def dmWrite (a : Nat) (c : Cell) (s : State) : Host.Outcome State Fault Refusal :=
  if s.dmOwned a then .refused .hostOwnership
  else .next (if a < s.par.dmCells then s.writeCells [(a, c)] else s)

/-- The state after a read, which changes nothing (`10_state.md` R34, `20_memory.md` R61). -/
def afterRead {α : Type} (answer : Host.Outcome α Fault Refusal) (s : State) :
    Host.Outcome State Fault Refusal :=
  match answer with
  | .next _ => .next s
  | .fault f => .fault f
  | .refused r => .refused r

/-- One host move (R58): atomic, between two steps of the sequencer. -/
def hostMove (op : HostOp Cell) (s : State) : Host.Outcome State Fault Refusal :=
  match op with
  | .csrRead _ => .next s
  | .csrWrite n v => .next (s.csrWrite n v)
  | .cmRead i => afterRead (cmRead i s) s
  | .cmWrite i w => cmWrite i w s
  | .dmRead a => afterRead (dmRead a s) s
  | .dmWrite a c => dmWrite a c s
  | .reset => .next s.powerOn

/-- Byte `b` of the `DM` window of a byte-addressed platform bus, little-endian (R56). -/
def State.dmByte (s : State) (b : Nat) : Byte := (s.cell (b / 16)).extractLsb' (8 * (b % 16)) 8

/-- Byte `b` of the `CM` window of a byte-addressed platform bus, little-endian (R56). -/
def State.cmByte (s : State) (b : Nat) : Byte := (s.word (b / 4)).extractLsb' (8 * (b % 4)) 8

/-- One step of the sequencer while `STATUS = RUN` (`10_state.md` R26): fetch, decode, run. -/
def runStep (s : State) : Host.Outcome State Fault Refusal :=
  match s.fetch with
  | none => .next (s.raise .fetch)
  | some w =>
    match decode w with
    | .error _ => .next (s.raise .illegal)
    | .ok i => exec i s

/-- The sequencer's move: a step of the running program, and nothing in `IDLE`, `DONE` and `ERR`
(`60_exceptions.md` R230, R245). -/
def sequencerMove (s : State) : Host.Outcome State Fault Refusal :=
  match s.status with
  | .run => runStep s
  | .idle => .next s
  | .done => .next s
  | .err => .next s

end Sys2Proof.Machine
end

