-- ==== Sys2Proof/Machine/Step.lean ====
section
/-! DEFINITION. One step of the whole machine: the next move of the one total order of host operations and sequencer
steps (`20_memory.md` R58). -/

namespace Sys2Proof.Machine

/-- The next state. The list `turns` says whose move it is; when it is empty the sequencer moves. -/
def step (s : State) : Host.Outcome State Fault Refusal :=
  if s.par.ok then
    match s.turns with
    | [] => sequencerMove s
    | .seq :: rest => sequencerMove { s with turns := rest }
    | .host op :: rest => hostMove op { s with turns := rest }
  else .fault .badParameters

/-- `s` with a command word placed where the next step fetches: the word at `cpc`, the sequencer running and on the
move. `cpc` is changed only when it points past `CM`, where no word can be placed. -/
def State.withFetchWord (s : State) (nbits w : Nat) : State :=
  let pc : BitVec 16 := if s.cpc.toNat < s.par.cmWords then s.cpc else 0
  { s with
    cm := Memory.set s.cm pc.toNat (BitVec.ofNat 32 (w % 2^nbits))
    cpc := pc
    status := .run
    turns := [] }

end Sys2Proof.Machine
end

