-- ==== Sys2Proof/Machine/Driver.lean ====
section
/-! DEFINITION. The host driver routines of `46_macros_2d.md`, `fft1d`, `ifft1d`, `fft2d` and `ifft2d`: their checks, their
results as functions on values, their expansions into commands, and the job each gives to the block. None of them is a
command. How a job is run is in `Machine/Protocol.lean`. -/

namespace Sys2Proof.Machine

/-! ### Matrices and images -/

/-- A matrix in row-major order (R180 (a)). -/
structure Mat (α : Type) where
  rows : Nat
  cols : Nat
  entries : List α
deriving DecidableEq, Repr

/-- Entry `(r, c)`. -/
def Mat.at {α : Type} (m : Mat α) (dflt : α) (r c : Nat) : α := m.entries.getD (r * m.cols + c) dflt

/-- The `rows` by `cols` matrix of a function of row and column. -/
def Mat.tabulate {α : Type} (rows cols : Nat) (f : Nat → Nat → α) : Mat α :=
  { rows := rows, cols := cols,
    entries := (List.range rows).flatMap fun r => (List.range cols).map fun c => f r c }

/-- A function applied to every entry. -/
def Mat.map {α β : Type} (f : α → β) (m : Mat α) : Mat β :=
  { rows := m.rows, cols := m.cols, entries := m.entries.map f }

/-- The top-left corner (R187). -/
def Mat.crop {α : Type} (m : Mat α) (dflt : α) (rows cols : Nat) : Mat α :=
  Mat.tabulate rows cols fun r c => m.at dflt r c

/-- Column `c` of a matrix. -/
def Mat.column {α : Type} (m : Mat α) (dflt : α) (c : Nat) : List α :=
  (List.range m.rows).map fun r => m.at dflt r c

/-- The addresses of a `rows` by `cols` matrix stored row-major at `base` with pitch `pitch` (R180 (a)). -/
def cellsAt (base pitch rows cols : Nat) : List Nat :=
  (List.range rows).flatMap fun r => (List.range cols).map fun c => base + r * pitch + c

/-- A matrix of elements of one type, with its tag: an input or a result of a routine. A sequence is an image of one row. -/
inductive Image (R : Type) where
  | byte (m : Mat Byte)
  | int (m : Mat (BitVec 32))
  | complex (m : Mat (Cplx R))
deriving DecidableEq, Repr

/-- The element type tag. -/
def Image.ty {R : Type} : Image R → ElemTy
  | .byte _ => .byte
  | .int _ => .int
  | .complex _ => .complex

def Image.rows {R : Type} : Image R → Nat
  | .byte m => m.rows
  | .int m => m.rows
  | .complex m => m.rows

def Image.cols {R : Type} : Image R → Nat
  | .byte m => m.cols
  | .int m => m.cols
  | .complex m => m.cols

/-- Why a routine gives its caller no result: an error with its code (R192), or an argument the spec gives no result
for, which the model refuses (`93_implementation_defined.md` U7, U8, U18, and log entry 10). -/
inductive DriverError where
  | code (f : FaultCode)
  | precondition
deriving DecidableEq, Repr

/-! ### Elements (R180) -/

section
variable (T : Tier)

/-- How the host stores element `(r, c)` (R180 (b)): a byte and the two's complement of an integer with zeros above, a
complex value as `cell(z)`. -/
def Image.cell (x : Image T.num.R) (r c : Nat) : T.C :=
  match x with
  | .byte m => T.intBits ((m.at 0 r c).setWidth 128)
  | .int m => T.intBits ((m.at 0 r c).setWidth 128)
  | .complex m => T.cplxCell (m.at T.num.czero r c)

/-- `widen(ty, ·)` of element `(r, c)` (R180 (d)): what a command reads from its cell. -/
def Image.widened (x : Image T.num.R) (r c : Nat) : Cplx T.num.R := T.elem x.ty (x.cell T r c)

/-- The image stored row-major at `base` (R180 (a), (b)). -/
def Image.stored (x : Image T.num.R) (base : Nat) : List (Nat × T.C) :=
  (List.range x.rows).flatMap fun r => (List.range x.cols).map fun c => (base + r * x.cols + c, x.cell T r c)

/-- Complex values as a command leaves them, the first with draw `n` (R180 (c), `40_butterfly.md` R97). -/
def asWritten (n : Nat) (zs : List (Cplx T.num.R)) : List (Cplx T.num.R) :=
  zs.zipIdx.map fun p => T.elem .complex (T.store (n + 2 * p.2) p.1)

/-- A list of complex values zero-padded to `2^m` (`42_fft.md` R132). -/
def padTo (num : Numerics) (m : Nat) (xs : List (Cplx num.R)) : List (Cplx num.R) :=
  (List.range (2^m)).map fun j => xs.getD j num.czero

/-- `FFT1D` on widened elements (R180 (e)): what `FFT` writes when its first draw is `n`. -/
def fft1dValue (n m : Nat) (xs : List (Cplx T.num.R)) : List (Cplx T.num.R) :=
  asWritten T n (forward T.num m (padTo T.num m xs))

/-- `IFFT1D` (R180 (e)). -/
def ifft1dValue (n m : Nat) (xs : List (Cplx T.num.R)) : List (Cplx T.num.R) :=
  asWritten T n (inverse T.num m (padTo T.num m xs))

end

/-- `QS` (R180 (e)). -/
def quadrantSwap {α : Type} (dflt : α) (n : Nat) (a : Mat α) : Mat α :=
  Mat.tabulate n n fun r c => a.at dflt (shifted n r) (shifted n c)

/-! ### The routines as functions on values

`n` is the number of NaN draws taken before the routine (`40_butterfly.md` R97); it plays no part where no NaN arises. -/

/-- The order of a size: `m <= MMAX` with `2^m = n`. -/
def sizeOrder (par : Params) (n : Nat) : Option Nat :=
  (List.range (par.mmax + 1)).find? fun m => 2^m == n

/-- The checks of `fft1d` and `ifft1d` (R181), in order: one row, a power of two within `MMAX`, `L <= N`. They answer the
order. -/
def oneRow {R : Type} (par : Params) (x : Image R) (size : Nat) : Except DriverError Nat :=
  if x.rows ≠ 1 then .error (.code .shape)
  else
    match sizeOrder par size with
    | none => .error (.code .order)
    | some m => if size < x.cols then .error (.code .size) else .ok m

/-- The least `m` with `2^m >= rows` (R183). -/
def paddedOrder (rows : Nat) : Nat :=
  ((List.range (rows + 1)).find? fun m => rows ≤ 2^m).getD 0

/-- The checks of `fft2d` (R183): not empty, and a padded extent within `NMAX`. They answer the order, which comes from the
row count alone. -/
def paddedSquare {R : Type} (par : Params) (x : Image R) : Except DriverError Nat :=
  if x.rows = 0 ∨ x.cols = 0 then .error (.code .shape)
  else if par.mmax < paddedOrder x.rows then .error (.code .order)
  else .ok (paddedOrder x.rows)

/-- The checks of `ifft2d` (R187): the precondition that the spectrum is an `N` by `N` matrix with `N = 2^M` and `M <= MMAX`
(U18), then the crop extents. They answer the order. -/
def cropsSquare {α : Type} (par : Params) (s : Mat α) (rows cols : Nat) : Except DriverError Nat :=
  match sizeOrder par s.rows with
  | none => .error .precondition
  | some m =>
    if s.cols ≠ s.rows then .error .precondition
    else if s.rows < rows ∨ s.rows < cols then .error (.code .size)
    else .ok m

/-- The column pass and then the row pass of a 2D transform (R183, R187): column `c` through `f c`, then row `r` through
`f (n + r)`. -/
def columnsThenRows {α : Type} (dflt : α) (n : Nat) (f : Nat → List α → List α) (cols : List (List α)) : Mat α :=
  let t := cols.zipIdx.map fun p => f p.2 p.1
  let u := (List.range n).map fun r => f (n + r) (t.map fun col => col.getD r dflt)
  Mat.tabulate n n fun r c => (u.getD r []).getD c dflt

section
variable (T : Tier)

/-- Row 0 of an image, widened. -/
def Image.sequence (x : Image T.num.R) : List (Cplx T.num.R) := (List.range x.cols).map (x.widened T 0)

/-- Column `c` of the padded image (R183): the elements of a column the image has, nothing of one it has not. -/
def Image.paddedColumn (x : Image T.num.R) (c : Nat) : List (Cplx T.num.R) :=
  if c < x.cols then (List.range x.rows).map fun r => x.widened T r c else []

/-- `fft1d(seq, N, type)` (R181). -/
def fft1d (par : Params) (n : Nat) (x : Image T.num.R) (size : Nat) : Except DriverError (List (Cplx T.num.R)) :=
  (oneRow par x size).map fun m => fft1dValue T n m (x.sequence T)

/-- `ifft1d(spec, N)` (R182). -/
def ifft1d (par : Params) (n : Nat) (x : Mat (Cplx T.num.R)) (size : Nat) : Except DriverError (List (Cplx T.num.R)) :=
  (oneRow par (.complex x) size).map fun m => ifft1dValue T n m ((Image.complex x).sequence T)

/-- The transforms of `fft2d` and the centering, on the columns of the padded image (R183). -/
def fft2dValue (n m : Nat) (cols : List (List (Cplx T.num.R))) : Mat (Cplx T.num.R) :=
  quadrantSwap T.num.czero (2^m)
    (columnsThenRows T.num.czero (2^m) (fun k => fft1dValue T (n + k * (2 * 2^m)) m) cols)

/-- The un-centering and the transforms of `ifft2d`, before the crop (R187). -/
def ifft2dValue (n m : Nat) (s : Mat (Cplx T.num.R)) : Mat (Cplx T.num.R) :=
  columnsThenRows T.num.czero (2^m) (fun k => ifft1dValue T (n + k * (2 * 2^m)) m)
    ((List.range (2^m)).map ((quadrantSwap T.num.czero (2^m) s).column T.num.czero))

/-- `fft2d(image, type)` (R183), with the warning `TRUNCATED` (R185): columns past the padded extent are dropped. -/
def fft2d (par : Params) (n : Nat) (x : Image T.num.R) : Except DriverError (Mat (Cplx T.num.R) × Bool) :=
  (paddedSquare par x).map fun m =>
    (fft2dValue T n m ((List.range (2^m)).map (x.paddedColumn T)), decide (2^m < x.cols))

/-! ### Re-quantization (R189) -/

/-- `NARROW_MODE` (`00_scope.md` R6): open, so an argument. -/
inductive NarrowMode where
  | wrap | saturate
deriving DecidableEq, Repr

/-- `narrow(t)` (R189). -/
def narrow (mode : NarrowMode) (t : Int) : Byte :=
  match mode with
  | .wrap => BitVec.ofInt 8 (t % 256)
  | .saturate => BitVec.ofInt 8 (min (max t 0) 255)

/-- `requant(byte, z)` (R189). Where the spec leaves the value unspecified (U6) it is a free byte. -/
def requantByte (mode : NarrowMode) (z : Cplx T.num.R) : Byte :=
  match T.trunc z.re with
  | some t => narrow mode t
  | none => T.freeByte z.re

/-- `requant(int, z)` (R189). Where the spec leaves the value unspecified (U6) it is a free integer. -/
def requantInt (z : Cplx T.num.R) : BitVec 32 :=
  match T.trunc z.re with
  | some t => if -(2^31) ≤ t ∧ t < 2^31 then BitVec.ofInt 32 t else T.freeInt z.re
  | none => T.freeInt z.re

/-- `requant(ty, ·)` on every entry of a matrix (R189). -/
def requant (mode : NarrowMode) (ty : ElemTy) (y : Mat (Cplx T.num.R)) : Image T.num.R :=
  match ty with
  | .byte => .byte (y.map (requantByte T mode))
  | .int => .int (y.map (requantInt T))
  | .complex => .complex y

/-- `ifft2d(spectrum, rows, cols, type)` (R187). -/
def ifft2d (par : Params) (mode : NarrowMode) (n : Nat) (s : Mat (Cplx T.num.R)) (rows cols : Nat) (ty : ElemTy) :
    Except DriverError (Image T.num.R) :=
  (cropsSquare par s rows cols).map fun m =>
    requant T mode ty ((ifft2dValue T n m s).crop T.num.czero rows cols)

end

/-! ### The expansions into commands (R181, R182, R184, R188) -/

/-- `SETD` of a natural number. One that does not fit 24 bits has no `SETD` (R180 (a), `00_scope.md` R7). -/
def setd (r : Reg) (v : Nat) : Option Instr := if v < 2^24 then some (.setd r (BitVec.ofNat 24 v)) else none

/-- `FFT.ty M`. -/
def fftOf (ty : ElemTy) (m : Nat) : Instr :=
  match ty with
  | .byte => .fftB m
  | .int => .fftI m
  | .complex => .fftC m

/-- The descriptors of a transform of a vector, in the order of the listings. -/
def vectorSetup (src sstr dst dstr len : Nat) : List (Option Instr) :=
  [setd .SRC src, setd .SSTR sstr, setd .DST dst, setd .DSTR dstr, setd .LEN len]

/-- The descriptors of a quadrant swap, in the order of the listings. -/
def matrixSetup (src dst pitch : Nat) : List (Option Instr) :=
  [setd .SRC src, setd .SSTR 1, setd .SPITCH pitch, setd .DST dst, setd .DSTR 1, setd .DPITCH pitch]

/-- The expansion of `fft1d` (R181), input at `a`, output at `b`, as groups: a command after the SETDs it needs. -/
def fft1dGroups (a b l m : Nat) (ty : ElemTy) : List (List (Option Instr)) :=
  [vectorSetup a 1 b 1 l ++ [some (fftOf ty m)]]

/-- The expansion of `ifft1d` (R182). -/
def ifft1dGroups (a b l m : Nat) : List (List (Option Instr)) :=
  [vectorSetup a 1 b 1 l ++ [some (.ifft m)]]

/-- The expansion of `fft2d` (R184): image at `a`, intermediate at `t`, result at `b`. -/
def fft2dGroups (a t b rows cols m : Nat) (ty : ElemTy) : List (List (Option Instr)) :=
  ((List.range (2^m)).map fun c =>
    (if c < Nat.min cols (2^m) then [setd .SRC (a + c), setd .SSTR cols, setd .LEN rows] else [setd .LEN 0])
      ++ [setd .DST (t + c), setd .DSTR (2^m), some (fftOf ty m)])
  ++ ((List.range (2^m)).map fun r =>
    vectorSetup (t + r * 2^m) 1 (t + r * 2^m) 1 (2^m) ++ [some (.fftC m)])
  ++ [matrixSetup t b (2^m) ++ [some (.qshift m)]]

/-- The expansion of `ifft2d` (R188): spectrum at `a`, work region at `t`. -/
def ifft2dGroups (a t m : Nat) : List (List (Option Instr)) :=
  [matrixSetup a t (2^m) ++ [some (.qshift m)]]
  ++ ((List.range (2^m)).map fun c => vectorSetup (t + c) (2^m) (t + c) (2^m) (2^m) ++ [some (.ifft m)])
  ++ ((List.range (2^m)).map fun r => vectorSetup (t + r * 2^m) 1 (t + r * 2^m) 1 (2^m) ++ [some (.ifft m)])

/-- The values of a list of which none is missing. -/
def allSome {α : Type} : List (Option α) → Option (List α)
  | [] => some []
  | none :: _ => none
  | some x :: rest => (allSome rest).map (x :: ·)

/-- Groups packed in order into runs of at most `room` commands, the first continuing `cur`. -/
def pack (room : Nat) : List Instr → List (List Instr) → List (List Instr)
  | cur, [] => [cur]
  | cur, g :: rest =>
    if cur.length + g.length ≤ room then pack room (cur ++ g) rest else cur :: pack room g rest

/-- The programs of an expansion, each with its HALT: one, or several where `CM` does not hold it whole. They are split
between groups, so that each run sets every register it needs (R180 (g)). None if a number does not fit its register, or a
group does not fit `CM`. -/
def programsOf (cmWords : Nat) (groups : List (List (Option Instr))) : Option (List (List Instr)) :=
  (allSome (groups.map allSome)).bind fun gs =>
    if gs.all fun g => g.length < cmWords then some ((pack (cmWords - 1) [] gs).map (· ++ [.halt])) else none

/-! ### Jobs -/

/-- What a routine gives to the block: the cells to place, the programs to run, the cells to read. -/
structure Job (C : Type) where
  inputs : List (Nat × C)
  programs : List (List Instr)
  outputs : List Nat

/-- A job, once every region (its base and its number of cells) lies below `DM_CELLS` (R180 (a)), AddrError otherwise
(R192), and its expansion exists. That a region of no cells is judged like any other, so that its base must not pass
`DM_CELLS`, is a DESIGN CHOICE (log entry 17). -/
def makeJob {C : Type} (par : Params) (regions : List (Nat × Nat)) (inputs : List (Nat × C))
    (groups : List (List (Option Instr))) (outputs : List Nat) : Except DriverError (Job C) :=
  if regions.all fun r => r.1 + r.2 ≤ par.dmCells then
    match programsOf par.cmWords groups with
    | some ps => .ok { inputs := inputs, programs := ps, outputs := outputs }
    | none => .error .precondition
  else .error (.code .addr)

section
variable (T : Tier)

/-- `fft1d` on the block (R181), input at `a`, output at `b`. -/
def fft1dJob (par : Params) (a b : Nat) (x : Image T.num.R) (size : Nat) : Except DriverError (Job T.C) :=
  match oneRow par x size with
  | .error e => .error e
  | .ok m => makeJob par [(a, x.cols), (b, size)] (x.stored T a) (fft1dGroups a b x.cols m x.ty) (cellsAt b size 1 size)

/-- `ifft1d` on the block (R182). -/
def ifft1dJob (par : Params) (a b : Nat) (x : Mat (Cplx T.num.R)) (size : Nat) : Except DriverError (Job T.C) :=
  match oneRow par (.complex x : Image T.num.R) size with
  | .error e => .error e
  | .ok m =>
    makeJob par [(a, x.cols), (b, size)] ((Image.complex x).stored T a) (ifft1dGroups a b x.cols m) (cellsAt b size 1 size)

/-- `fft2d` on the block (R184), image at `a`, intermediate at `t`, result at `b`. -/
def fft2dJob (par : Params) (a t b : Nat) (x : Image T.num.R) : Except DriverError (Job T.C) :=
  match paddedSquare par x with
  | .error e => .error e
  | .ok m =>
    makeJob par [(a, x.rows * x.cols), (t, 2^m * 2^m), (b, 2^m * 2^m)] (x.stored T a)
      (fft2dGroups a t b x.rows x.cols m x.ty) (cellsAt b (2^m) (2^m) (2^m))

/-- `ifft2d` on the block (R188), spectrum at `a`, work region at `t`; the cells it reads are those of the crop. -/
def ifft2dJob (par : Params) (a t : Nat) (s : Mat (Cplx T.num.R)) (rows cols : Nat) : Except DriverError (Job T.C) :=
  match cropsSquare par s rows cols with
  | .error e => .error e
  | .ok m =>
    makeJob par [(a, 2^m * 2^m), (t, 2^m * 2^m)] ((Image.complex s).stored T a) (ifft2dGroups a t m)
      (cellsAt t (2^m) rows cols)

end

end Sys2Proof.Machine
end

