-- ==== Sys2Proof/Machine/Protocol.lean ====
section
/-! DEFINITION. The run protocol of `70_reset_and_hazards.md` R253, over the host port of an instance in any tier, and the
driver routines of `46_macros_2d.md` as calls of it. The moves are those of `step` (`20_memory.md` R58): host moves, and the
sequencer's moves while the host waits. -/

namespace Sys2Proof.Machine

/-- The host port of an instance in tier `T`, and the sequencer's move. -/
structure Port (T : Tier) where
  /-- The states of the instance. -/
  S : Type
  par : S → Params
  csrRead : S → Nat → BitVec 32
  csrWrite : Nat → BitVec 32 → S → S
  cmWrite : Nat → Word → S → Host.Outcome S Fault Refusal
  dmRead : Nat → S → Host.Outcome (Option T.C) Fault Refusal
  dmWrite : Nat → T.C → S → Host.Outcome S Fault Refusal
  move : S → Host.Outcome S Fault Refusal

/-- The host port of the hardware. -/
abbrev f64Port : Port f64Tier where
  S := State
  par := State.par
  csrRead := State.csrRead
  csrWrite := State.csrWrite
  cmWrite := cmWrite
  dmRead := dmRead
  dmWrite := dmWrite
  move := sequencerMove

/-! ### Moves in order -/

/-- The outcome of a move and then of what follows it. -/
def andThen {α β : Type} (o : Host.Outcome α Fault Refusal) (f : α → Host.Outcome β Fault Refusal) :
    Host.Outcome β Fault Refusal :=
  match o with
  | .next x => f x
  | .fault e => .fault e
  | .refused e => .refused e

/-- Moves one after the other. -/
def inOrder {α S : Type} (f : α → S → Host.Outcome S Fault Refusal) : List α → S → Host.Outcome S Fault Refusal
  | [], s => .next s
  | x :: rest, s => andThen (f x s) (inOrder f rest)

section
variable {T : Tier} (P : Port T)

/-- `CmWrite` of a program from word 0 on. -/
def loadProgram (prog : List Instr) (s : P.S) : Host.Outcome P.S Fault Refusal :=
  inOrder (fun p : Instr × Nat => P.cmWrite p.2 (encode p.1)) prog.zipIdx s

/-- `DmWrite` of cells. -/
def placeCells (cells : List (Nat × T.C)) (s : P.S) : Host.Outcome P.S Fault Refusal :=
  inOrder (fun p : Nat × T.C => P.dmWrite p.1 p.2) cells s

/-- `DmRead` of cells. -/
def readCells (s : P.S) : List Nat → Host.Outcome (List T.C) Fault Refusal
  | [] => .next []
  | a :: rest => andThen (P.dmRead a s) fun c => andThen (readCells s rest) fun cs => .next (c.toList ++ cs)

/-- Step 4: `CsrRead(STATUS)` until it is not `RUN`, the sequencer moving in between, at most so many times. -/
def wait : Nat → P.S → Host.Outcome P.S Fault Refusal
  | 0, s => .next s
  | k + 1, s => if (P.csrRead s 1).toNat = RunState.run.code then andThen (P.move s) (wait k) else .next s

/-! ### The run protocol (R253) -/

/-- How a run can give no result. -/
inductive RunError where
  /-- `STATUS` is `RUN` before the run: the calls on one instance are serial (R255). -/
  | busy
  /-- The run ended in `ERR`: the contents of `ERR` and `EPC`. -/
  | fault (err epc : BitVec 32)
  /-- `STATUS` is `RUN` after the longest wait (R261 excludes it). -/
  | unfinished
deriving DecidableEq, Repr

/-- One run (R253): CLEAR after an error; the program and the inputs; START; wait; then the result cells, or `ERR`, `EPC`
and a CLEAR. It answers the state it leaves beside the result. -/
def runProgram (inputs : List (Nat × T.C)) (prog : List Instr) (outputs : List Nat) (s : P.S) :
    Host.Outcome (Except RunError (List T.C) × P.S) Fault Refusal :=
  if (P.csrRead s 1).toNat = RunState.run.code then .next (.error .busy, s)
  else
    let s1 := if (P.csrRead s 1).toNat = RunState.err.code then P.csrWrite 0 2 s else s
    andThen (loadProgram P prog s1) fun s2 =>
    andThen (placeCells P inputs s2) fun s3 =>
    andThen (wait P ((P.par s).cmWords + 1) (P.csrWrite 0 1 s3)) fun s4 =>
    if (P.csrRead s4 1).toNat = RunState.done.code then
      andThen (readCells P s4 outputs) fun cs => .next (.ok cs, s4)
    else if (P.csrRead s4 1).toNat = RunState.err.code then
      .next (.error (.fault (P.csrRead s4 2) (P.csrRead s4 3)), P.csrWrite 0 2 s4)
    else .next (.error .unfinished, s4)

/-- The programs of an expansion, in order: the inputs are placed before the first and the outputs read after the last
(R180 (g)). The first run that fails ends the call. -/
def runPrograms (inputs : List (Nat × T.C)) (outputs : List Nat) :
    List (List Instr) → P.S → Host.Outcome (Except RunError (List T.C) × P.S) Fault Refusal
  | [], s => .next (.ok [], s)
  | [prog], s => runProgram P inputs prog outputs s
  | prog :: rest, s =>
    andThen (runProgram P inputs prog [] s) fun r =>
      match r.1 with
      | .ok _ => runPrograms [] outputs rest r.2
      | .error e => .next (.error e, r.2)

/-- What a routine returns for a run without a result (R192): the code in `ERR`. -/
def RunError.toDriver : RunError → DriverError
  | .busy => .precondition
  | .fault err _ => .code (FaultCode.ofCode err.toNat)
  | .unfinished => .precondition

/-- A call of a routine: its error before any run (R180 (f)), or its job run and the cells it read. -/
def callJob (job : Except DriverError (Job T.C)) (s : P.S) :
    Host.Outcome (Except DriverError (List T.C) × P.S) Fault Refusal :=
  match job with
  | .error e => .next (.error e, s)
  | .ok j => andThen (runPrograms P j.inputs j.outputs j.programs s) fun r => .next (r.1.mapError RunError.toDriver, r.2)

/-- The result of a call as the routine returns it. -/
def answering {α β S : Type} (f : α → β) (o : Host.Outcome (Except DriverError α × S) Fault Refusal) :
    Host.Outcome (Except DriverError β × S) Fault Refusal :=
  andThen o fun r => .next (r.1.map f, r.2)

/-! ### The routines (`46_macros_2d.md`) -/

/-- The complex views of result cells (R180 (c)). -/
def complexViews (T : Tier) (cells : List T.C) : List (Cplx T.num.R) := cells.map (T.elem .complex)

/-- `fft1d(seq, N, type)` with the input at `a` and the output at `b` (R181). -/
def fft1dCall (a b : Nat) (x : Image T.num.R) (size : Nat) (s : P.S) :
    Host.Outcome (Except DriverError (List (Cplx T.num.R)) × P.S) Fault Refusal :=
  answering (complexViews T) (callJob P (fft1dJob T (P.par s) a b x size) s)

/-- `ifft1d(spec, N)` (R182). -/
def ifft1dCall (a b : Nat) (x : Mat (Cplx T.num.R)) (size : Nat) (s : P.S) :
    Host.Outcome (Except DriverError (List (Cplx T.num.R)) × P.S) Fault Refusal :=
  answering (complexViews T) (callJob P (ifft1dJob T (P.par s) a b x size) s)

/-- `fft2d(image, type)` with the image at `a`, the intermediate at `t` and the result at `b` (R184), and the warning
`TRUNCATED` (R185). -/
def fft2dCall (a t b : Nat) (x : Image T.num.R) (s : P.S) :
    Host.Outcome (Except DriverError (Mat (Cplx T.num.R) × Bool) × P.S) Fault Refusal :=
  let n := 2^(paddedOrder x.rows)
  answering (fun cs => ({ rows := n, cols := n, entries := complexViews T cs }, decide (n < x.cols)))
    (callJob P (fft2dJob T (P.par s) a t b x) s)

/-- The host lines of `ifft2d` after its run (R188): the cells of the crop re-quantized. -/
def reconstruct (T : Tier) (mode : NarrowMode) (ty : ElemTy) (rows cols : Nat) (cells : List T.C) : Image T.num.R :=
  requant T mode ty { rows := rows, cols := cols, entries := complexViews T cells }

/-- `ifft2d(spectrum, rows, cols, type)` with the spectrum at `a` and the work region at `t` (R188). -/
def ifft2dCall (mode : NarrowMode) (a t : Nat) (x : Mat (Cplx T.num.R)) (rows cols : Nat) (ty : ElemTy) (s : P.S) :
    Host.Outcome (Except DriverError (Image T.num.R) × P.S) Fault Refusal :=
  answering (reconstruct T mode ty rows cols) (callJob P (ifft2dJob T (P.par s) a t x rows cols) s)

end

end Sys2Proof.Machine
end

