-- ==== Sys2Proof/Machine/HostSoftware.lean ====
section
/-! DEFINITION. The host software around the block (`47_host_software.md`): filter kernels, the filter step, the fidelity
metrics, and the whole data flow of `46_macros_2d.md` R191. No command implements any of it. Functions the spec leaves to
the host's library (`exp`, `log10`) are arguments (`93_implementation_defined.md` U17). -/

namespace Sys2Proof.Machine

/-! ### Kernels -/

/-- The squared distance of entry `(i, j)` from the centre `(size div 2, size div 2)` (R200). -/
def sqDist (size i j : Nat) : Nat :=
  let c0 : Int := (size / 2 : Nat)
  (((i : Int) - c0)^2 + ((j : Int) - c0)^2).toNat

/-- The kernel that is 1 on a passband and 0 elsewhere. -/
def bandKernel (num : Numerics) (size : Nat) (passes : Nat → Bool) : Mat (Cplx num.R) :=
  Mat.tabulate size size fun i j =>
    { re := num.ofInt (if passes (sqDist size i j) then 1 else 0), im := num.ofInt 0 }

/-- `idealLPF(size, radius)` (R202): the comparison `d <= radius` on exact values; a negative radius passes nothing. -/
def idealLPF (num : Numerics) (size : Nat) (radius : Rat) : Mat (Cplx num.R) :=
  bandKernel num size fun d2 => decide (0 ≤ radius ∧ (d2 : Rat) ≤ radius * radius)

/-- The argument of `exp` for one entry of the Gaussian kernel: `-d2/(2·sigma^2)`, and `-0` at the centre. -/
def gaussianArg (sigma : F64) (d2 : Nat) : F64 :=
  if d2 = 0 then F64.neg (F64.ofInt 0)
  else F64.neg (F64.div (F64.ofInt d2) (F64.mul (F64.ofInt 2) (F64.mul sigma sigma)))

/-- `gaussianLPF(size, sigma)` in a binary64 host whose exponential is `hexp` (R201). `sigma <= 0` and NaN break the
precondition (U7). -/
def gaussianLPF (hexp : F64 → F64) (size : Nat) (sigma : F64) : Except DriverError (Mat (Cplx F64)) :=
  if F64.isNaN sigma || F64.sign sigma || F64.mag sigma == 0 then .error .precondition
  else .ok (Mat.tabulate size size fun i j =>
    { re := hexp (gaussianArg sigma (sqDist size i j)), im := F64.ofInt 0 })

/-! ### The filter step -/

/-- The filter step (R204): a point-wise complex multiply of a centered spectrum by a kernel of the same dimensions,
which is a precondition (U18). That equal dimensions which are not square have a product too, though R204's pseudocode has
both N by N, is a DESIGN CHOICE (log entry 10). -/
def filterStep (num : Numerics) (s k : Mat (Cplx num.R)) : Except DriverError (Mat (Cplx num.R)) :=
  if s.rows = k.rows ∧ s.cols = k.cols then
    .ok (Mat.tabulate s.rows s.cols fun r c => num.cmul (s.at num.czero r c) (k.at num.czero r c))
  else .error .precondition

/-- The filter step where there is a kernel (R191: it is optional). -/
def filterIfAny (num : Numerics) (s : Mat (Cplx num.R)) (kernel : Option (Mat (Cplx num.R))) :
    Except DriverError (Mat (Cplx num.R)) :=
  match kernel with
  | some k => filterStep num s k
  | none => .ok s

/-! ### Metrics -/

/-- The squared differences of two byte matrices of the extents of the first, row by row, exact integers (R210). -/
def squares (p q : Mat Byte) : List Nat :=
  (List.range p.rows).flatMap fun r => (List.range p.cols).map fun c =>
    (((p.at 0 r c).toNat : Int) - ((q.at 0 r c).toNat : Int)).natAbs^2

/-- `mse(a, b)` (R210) in a host of tier `T`. Images without pixels have no mean (U8). -/
def mse (T : Tier) {R : Type} (a b : Image R) : Except DriverError T.num.R :=
  match a, b with
  | .byte p, .byte q =>
    if p.rows ≠ q.rows ∨ p.cols ≠ q.cols then .error (.code .dimensionMismatch)
    else if p.rows * p.cols = 0 then .error .precondition
    else .ok (T.mean (squares p q))
  | _, _ => .error (.code .dimensionMismatch)

/-- `EPS_PSNR` (`00_scope.md` R6): a positive real, open, so an argument. -/
abbrev EpsPsnr := { q : ℝ // 0 < q }

open Classical in
/-- `psnr(a, b)` (R211) in a host of tier `T` whose decimal logarithm is `log10` (U17): the ceiling 100 below the epsilon, and
`10 · log10(255^2 / e)` in the tier's arithmetic otherwise (log entry 12). -/
noncomputable def psnr (T : Tier) (log10 : T.num.R → T.num.R) (eps : EpsPsnr) {R : Type} (a b : Image R) :
    Except DriverError T.num.R :=
  (mse T a b).map fun e =>
    if T.below e eps.1 then T.num.ofInt 100
    else T.num.rmul (T.num.ofInt 10) (log10 (T.num.rdiv (T.num.ofInt 65025) e))

/-- The fidelity report (R212): the pair (MSE, PSNR) of an original and its reconstruction. -/
noncomputable def fidelityReport (T : Tier) (log10 : T.num.R → T.num.R) (eps : EpsPsnr) {R : Type}
    (original reconstruction : Image R) : Except DriverError (T.num.R × T.num.R) :=
  match mse T original reconstruction, psnr T log10 eps original reconstruction with
  | .ok e, .ok p => .ok (e, p)
  | .error e, _ => .error e
  | .ok _, .error e => .error e

/-! ### The data flow (`46_macros_2d.md` R191) -/

/-- Image, `fft2d`, the filter step, `ifft2d` with the image's own extents and type, on values; `n` NaN draws were taken
before, and `fft2d` takes two for each of the `2·N·N` cells its transforms write. -/
def filtered (T : Tier) (par : Params) (mode : NarrowMode) (n : Nat) (x : Image T.num.R)
    (kernel : Option (Mat (Cplx T.num.R))) : Except DriverError (Image T.num.R) :=
  match fft2d T par n x with
  | .error e => .error e
  | .ok (s, _) =>
    match filterIfAny T.num s kernel with
    | .error e => .error e
    | .ok f => ifft2d T par mode (n + 4 * (s.rows * s.rows)) f x.rows x.cols x.ty

/-- The end of the data flow: a reconstruction, and its fidelity report against the original (R212). -/
noncomputable def reported (T : Tier) (log10 : T.num.R → T.num.R) (eps : EpsPsnr) (original : Image T.num.R)
    (reconstruction : Except DriverError (Image T.num.R)) : Except DriverError (Image T.num.R × T.num.R × T.num.R) :=
  match reconstruction with
  | .error e => .error e
  | .ok y => (fidelityReport T log10 eps original y).map fun report => (y, report)

section
variable {T : Tier} (P : Port T)

/-- The filter step on the block's memory (R206): the host reads the `size` by `size` cells at `b` while the block is not
running, multiplies, and writes the products back. R206 gives no result where the region passes `DM_CELLS`: AddrError, as
R192 has it of any routine of `46_macros_2d.md`, with nothing touched, is a DESIGN CHOICE (log entry 17). -/
def filterCall (b size : Nat) (kernel : Mat (Cplx T.num.R)) (s : P.S) :
    Host.Outcome (Except DriverError (Mat (Cplx T.num.R)) × P.S) Fault Refusal :=
  if (P.csrRead s 1).toNat = RunState.run.code then .next (.error .precondition, s)
  else if (P.par s).dmCells < b + size * size then .next (.error (.code .addr), s)
  else
    andThen (readCells P s (cellsAt b size size size)) fun cells =>
    match filterStep T.num { rows := size, cols := size, entries := complexViews T cells } kernel with
    | .error e => .next (.error e, s)
    | .ok f => andThen (placeCells P ((Image.complex f).stored T b) s) fun t => .next (.ok f, t)

/-- The data flow on the block: `fft2d` of an image at `a` through `t` into `b`, the filter step on the cells at `b`, and
`ifft2d` of those cells through `t`. -/
def filteredCall (mode : NarrowMode) (a t b : Nat) (x : Image T.num.R) (kernel : Option (Mat (Cplx T.num.R))) (s : P.S) :
    Host.Outcome (Except DriverError (Image T.num.R) × P.S) Fault Refusal :=
  andThen (fft2dCall P a t b x s) fun r =>
    match r.1 with
    | .error e => .next (.error e, r.2)
    | .ok (spectrum, _) =>
      andThen
        (match kernel with
         | some k => filterCall P b spectrum.rows k r.2
         | none => .next (.ok spectrum, r.2)) fun q =>
        match q.1 with
        | .error e => .next (.error e, q.2)
        | .ok f => ifft2dCall P mode b t f x.rows x.cols x.ty q.2

/-- The whole data flow (R191): the reconstruction made on the block, and its fidelity report. -/
noncomputable def dataFlowCall (log10 : T.num.R → T.num.R) (eps : EpsPsnr) (mode : NarrowMode) (a t b : Nat)
    (x : Image T.num.R) (kernel : Option (Mat (Cplx T.num.R))) (s : P.S) :
    Host.Outcome (Except DriverError (Image T.num.R × T.num.R × T.num.R) × P.S) Fault Refusal :=
  andThen (filteredCall P mode a t b x kernel s) fun r => .next (reported T log10 eps x r.1, r.2)

end

end Sys2Proof.Machine
end

