-- ==== Sys2Proof/Machine/Ideal.lean ====
section
/-! DEFINITION. Tier `IDEAL` (`40_butterfly.md` R90): the machine over exact complex arithmetic, the reference the source's
algebraic properties are stated over. Its cells are tagged values (`10_state.md` R31); its commands, sequencer and host
port are those of the hardware over another `Tier`. The definitions are not executable (real arithmetic). -/

namespace Sys2Proof.Machine

/-! ### Arithmetic -/

/-- The exact twiddle factor `W(2^E, k) = ( cos(2πk/2^E), -sin(2πk/2^E) )` (R93). -/
noncomputable def exactTwiddle (e : Nat) (k : Int) : Cplx ℝ :=
  { re := Real.cos (2 * Real.pi * k / 2^e), im := -Real.sin (2 * Real.pi * k / 2^e) }

/-- The numerics record of tier `IDEAL` (R90): real numbers, exact operations, exact twiddle factors. -/
noncomputable abbrev idealNumerics : Numerics where
  R := ℝ
  radd := fun x y => x + y
  rsub := fun x y => x - y
  rmul := fun x y => x * y
  rdiv := fun x y => x / y
  ofInt := fun v => (v : ℝ)
  tw := exactTwiddle

/-- A complex value of tier `IDEAL` as a complex number. -/
def toComplex (z : Cplx ℝ) : ℂ := ⟨z.re, z.im⟩

/-- Element `k` of a list of tier-`IDEAL` values as a complex number, zero past the end. -/
noncomputable def elemC (xs : List (Cplx ℝ)) (k : Nat) : ℂ := toComplex (xs.getD k idealNumerics.czero)

/-- The twiddle factor `W(N, k) = exp(-2πi·k/N)` for any modulus (R93). -/
noncomputable def W (n : Nat) (k : Int) : ℂ := Complex.exp (-(2 * Real.pi * Complex.I * k / n))

/-! ### Cells -/

/-- The bits in which a cell holds an integer, for the byte and integer views (`10_state.md` R31, R32). -/
noncomputable def idealBits : IdealCell → Cell
  | .bits c => c
  | .complex z => Config.idealBitsView z

/-- The complex view of a cell (`10_state.md` R31). -/
noncomputable def idealComplex : IdealCell → Cplx ℝ
  | .bits c => { re := Config.idealComplexView c false, im := Config.idealComplexView c true }
  | .complex z => z

/-- The source cell under an element type tag (`20_memory.md` R55). -/
noncomputable def idealElem (ty : ElemTy) (c : IdealCell) : Cplx ℝ :=
  match ty with
  | .byte => { re := (byteOf (idealBits c) : ℝ), im := 0 }
  | .int => { re := (intOf (idealBits c) : ℝ), im := 0 }
  | .complex => idealComplex c

/-- `trunc` of a real number (`46_macros_2d.md` R189): toward zero. -/
noncomputable def truncReal (x : ℝ) : Int := if 0 ≤ x then ⌊x⌋ else ⌈x⌉

/-- Tier `IDEAL`. It has no NaN, so nothing is drawn and every real part has a truncation. -/
noncomputable abbrev idealTier : Tier where
  num := idealNumerics
  C := IdealCell
  elem := idealElem
  store := fun _ z => .complex z
  cplxCell := .complex
  intBits := .bits
  trunc := fun x => some (truncReal x)
  freeInt := Config.idealFreeInt
  freeByte := fun _ => 0
  mean := fun xs => (xs.sum : ℝ) / xs.length
  below := fun x q => x < q

/-! ### State -/

/-- The state of an instance in tier `IDEAL`: the registers and `CM` of `10_state.md` R20, and a `DM` of tagged cells. -/
structure IdealState where
  par : Params
  d : Desc
  cpc : BitVec 16
  status : RunState
  err : FaultCode
  epc : BitVec 16
  cm : Memory Word
  dm : Memory IdealCell
  boot : Nat
  turns : List (Turn IdealCell)

/-- The state after reset (`10_state.md` R41). -/
def IdealState.reset : IdealState where
  par := Params.default
  d := Desc.zero
  cpc := 0
  status := .idle
  err := .none
  epc := 0
  cm := []
  dm := []
  boot := 0
  turns := []

/-- Registers and `CM` as a state of the hardware with nothing in `DM` and no moves: what the operations on registers and
`CM` act on, which are the same in both tiers. -/
def IdealState.control (s : IdealState) : State :=
  { par := s.par, d := s.d, cpc := s.cpc, status := s.status, err := s.err, epc := s.epc, cm := s.cm, dm := [],
    boot := s.boot, draws := 0, turns := [] }

/-- The registers and `CM` replaced. -/
def IdealState.withControl (s : IdealState) (r : State) : IdealState :=
  { s with par := r.par, d := r.d, cpc := r.cpc, status := r.status, err := r.err, epc := r.epc, cm := r.cm, boot := r.boot }

/-- An operation on registers and `CM`. -/
def IdealState.onControl (f : State → State) (s : IdealState) : IdealState := s.withControl (f s.control)

/-- Cell `a` of `DM`: what was written last, or the free launch content (R41, U2). -/
noncomputable def IdealState.cell (s : IdealState) (a : Nat) : IdealCell :=
  match Memory.get? s.dm a with
  | some c => c
  | none => Config.idealLaunchCell s.boot a

/-- A command's writes to `DM`, whole cells in write order (`20_memory.md` R53). -/
def IdealState.writeCells (ws : List (Nat × IdealCell)) (s : IdealState) : IdealState :=
  { s with dm := Memory.writeAll s.dm ws }

/-! ### The sequencer -/

/-- A command that has passed its checks (`10_state.md` R26, steps 5 to 7): HALT ends the program; every other writes its
cells, and SETD its register, and advances `cpc`. -/
noncomputable def idealEffect (i : Instr) (s : IdealState) : IdealState :=
  if i = .halt then s.onControl State.finish
  else ({ s.writeCells (writesOf idealTier i s.d s.cell 0) with d := descAfter i s.d }).onControl State.advance

/-- The meaning of a decoded command in tier `IDEAL`: the checks of `60_exceptions.md` R227, then the fault or the effect. -/
noncomputable def idealExec (i : Instr) (s : IdealState) : Host.Outcome IdealState Fault Refusal :=
  match faultOf i s.par s.d with
  | some f => .next (s.onControl (State.raise f))
  | none => .next (idealEffect i s)

/-- One step of the sequencer while `STATUS = RUN` (R26). -/
noncomputable def idealRunStep (s : IdealState) : Host.Outcome IdealState Fault Refusal :=
  match s.control.fetch with
  | none => .next (s.onControl (State.raise .fetch))
  | some w =>
    match decode w with
    | .error _ => .next (s.onControl (State.raise .illegal))
    | .ok i => idealExec i s

/-- The sequencer's move. -/
noncomputable def idealSequencerMove (s : IdealState) : Host.Outcome IdealState Fault Refusal :=
  match s.status with
  | .run => idealRunStep s
  | .idle => .next s
  | .done => .next s
  | .err => .next s

/-! ### The host port -/

/-- `CsrRead(n)` (`10_state.md` R34). The tier has no code in `CFG` (R33): bits [7:4] are free. -/
noncomputable def IdealState.csrRead (s : IdealState) (n : Nat) : BitVec 32 :=
  if n = 5 then s.control.csrRead 5 ||| (Config.idealTierCode.setWidth 32 <<< 4) else s.control.csrRead n

/-- `CmWrite(i, w)` (`20_memory.md` R59, R60). -/
def idealCmWrite (i : Nat) (w : Word) (s : IdealState) : Host.Outcome IdealState Fault Refusal :=
  andThen (cmWrite i w s.control) fun r => .next (s.withControl r)

/-- `DmRead(a)` (`20_memory.md` R59, R60). -/
noncomputable def idealDmRead (a : Nat) (s : IdealState) : Host.Outcome (Option IdealCell) Fault Refusal :=
  if s.control.dmOwned a then .refused .hostOwnership
  else .next (if a < s.par.dmCells then some (s.cell a) else none)

/-- `DmWrite(a, c)` (`20_memory.md` R59, R60). -/
def idealDmWrite (a : Nat) (c : IdealCell) (s : IdealState) : Host.Outcome IdealState Fault Refusal :=
  if s.control.dmOwned a then .refused .hostOwnership
  else .next (if a < s.par.dmCells then s.writeCells [(a, c)] else s)

/-- Assertion and release of `rst_n` (`70_reset_and_hazards.md` R250). -/
def IdealState.powerOn (s : IdealState) : IdealState := { s.onControl State.powerOn with dm := [] }

/-- One host move (`20_memory.md` R58). -/
noncomputable def idealHostMove (op : HostOp IdealCell) (s : IdealState) : Host.Outcome IdealState Fault Refusal :=
  match op with
  | .csrRead _ => .next s
  | .csrWrite n v => .next (s.onControl (State.csrWrite n v))
  | .cmRead i => andThen (cmRead i s.control) fun _ => .next s
  | .cmWrite i w => idealCmWrite i w s
  | .dmRead a => andThen (idealDmRead a s) fun _ => .next s
  | .dmWrite a c => idealDmWrite a c s
  | .reset => .next s.powerOn

/-! ### The machine -/

/-- One step: the next move of the one total order. -/
noncomputable def idealStep (s : IdealState) : Host.Outcome IdealState Fault Refusal :=
  if s.par.ok then
    match s.turns with
    | [] => idealSequencerMove s
    | .seq :: rest => idealSequencerMove { s with turns := rest }
    | .host op :: rest => idealHostMove op { s with turns := rest }
  else .fault .badParameters

/-- The machine in each tier: `NUM` of `00_scope.md` R5 is its argument, and `F64` is the hardware. -/
noncomputable def machineOf : NumTier → Host.Core
  | .f64 => Sys2Proof.core
  | .ideal => { State := IdealState, Fault := Fault, Refusal := Refusal, step := idealStep, reset := IdealState.reset }

/-- The host port of an instance in tier `IDEAL`: the routines of `Machine/Protocol.lean` run on it as on the hardware. -/
noncomputable abbrev idealPort : Port idealTier where
  S := IdealState
  par := IdealState.par
  csrRead := IdealState.csrRead
  csrWrite := fun n v => IdealState.onControl (State.csrWrite n v)
  cmWrite := idealCmWrite
  dmRead := idealDmRead
  dmWrite := idealDmWrite
  move := idealSequencerMove

/-! ### Host software in exact arithmetic (`47_host_software.md`) -/

/-- An entry of the Gaussian kernel (R201). -/
noncomputable def gaussianEntry (size : Nat) (sigma : ℝ) (i j : Nat) : ℝ :=
  Real.exp (-(sqDist size i j : ℝ) / (2 * sigma^2))

/-- `gaussianLPF(size, sigma)` (R201). A width that is not positive breaks the precondition (U7). -/
noncomputable def gaussianLPFExact (size : Nat) (sigma : ℝ) : Except DriverError (Mat (Cplx ℝ)) :=
  if 0 < sigma then .ok (Mat.tabulate size size fun i j => { re := gaussianEntry size sigma i j, im := 0 })
  else .error .precondition

/-- `idealLPF(size, radius)` for a real radius (R202). -/
noncomputable def idealLPFExact (size : Nat) (radius : ℝ) : Mat (Cplx ℝ) :=
  bandKernel idealNumerics size fun d2 => decide (Real.sqrt d2 ≤ radius)

/-- `psnr` (R211): the ceiling 100, and ten times the decimal logarithm. -/
noncomputable def psnrExact (eps : EpsPsnr) {R : Type} (a b : Image R) : Except DriverError ℝ :=
  psnr idealTier (Real.logb 10) eps a b

end Sys2Proof.Machine
end

