-- ==== Sys2Proof/Safety.lean ====
section
/-! DEFINITION. What claims about the machine are stated in terms of: the legal states (an invariant of every step), the
transitions of `STATUS` (`10_state.md` R27), and a run without a fault. -/

namespace Sys2Proof.Machine

/-- The fault codes the block itself writes: 2, 4, 5, 6 and 7 (`10_state.md` R28). -/
def FaultCode.isBlocks : FaultCode → Bool
  | .none => false
  | .shape => false
  | .size => true
  | .dimensionMismatch => false
  | .illegal => true
  | .order => true
  | .addr => true
  | .fetch => true

/-- Every listed address of a memory is below its size (`20_memory.md` R50). -/
def Memory.below {α : Type} (m : Memory α) (size : Nat) : Prop := ∀ p ∈ m, p.1 < size

/-- A legal state of an instance. -/
structure State.Inv (s : State) : Prop where
  /-- The parameters meet `00_scope.md` R5. -/
  par : s.par.ok = true
  /-- Both memories are in canonical form. -/
  cmWf : Memory.wf s.cm = true
  dmWf : Memory.wf s.dm = true
  /-- Nothing is stored outside `CM` or `DM` (`20_memory.md` R50). -/
  cmBelow : Memory.below s.cm s.par.cmWords
  dmBelow : Memory.below s.dm s.par.dmCells
  /-- `cpc` never passes `CM_WORDS` (`10_state.md` R25). -/
  cpcLe : s.cpc.toNat ≤ s.par.cmWords
  /-- `ERR` and `EPC` are 0 unless `STATUS` is `ERR` (`10_state.md` R28, R29). -/
  quiet : s.status ≠ .err → s.err = .none ∧ s.epc = 0
  /-- In `ERR`, one of the block's codes is recorded and `CPC = EPC` (`10_state.md` R28, `60_exceptions.md` R228). -/
  fault : s.status = .err → s.err.isBlocks = true ∧ s.epc = s.cpc
  /-- A FetchError is recorded exactly at `EPC = CM_WORDS` (`60_exceptions.md` R225). -/
  fetch : s.status = .err → (s.err = .fetch ↔ s.epc.toNat = s.par.cmWords)
  /-- In `IDLE` the registers a program starts from are clear (`70_reset_and_hazards.md` R251). -/
  idle : s.status = .idle → s.d = Desc.zero ∧ s.cpc = 0
  /-- In `DONE`, `cpc` is the index of a HALT (`45_control.md` R177). -/
  done : s.status = .done → s.cpc.toNat < s.par.cmWords

/-- The transitions of `STATUS` that a step of the sequencer can make (`10_state.md` R27): out of `RUN` by HALT or a
fault, and none out of the other states. -/
def seqTransition : RunState → RunState → Bool
  | .run, .run => true
  | .run, .done => true
  | .run, .err => true
  | .idle, .idle => true
  | .done, .done => true
  | .err, .err => true
  | _, _ => false

/-- The transitions of `STATUS` that a write of `CTRL` can make (`10_state.md` R27, R30). -/
def ctrlTransition : RunState → RunState → Bool
  | .run, .run => true
  | .idle, .idle => true
  | .idle, .run => true
  | .done, .done => true
  | .done, .run => true
  | .done, .idle => true
  | .err, .err => true
  | .err, .idle => true
  | .err, .run => true
  | _, _ => false

/-! ### What a completed command leaves -/

/-- The command completed and changed nothing but `cpc`, cells listed in `touched`, and the count of NaN draws: the frame
of every command other than `HALT` and `SETD`. -/
structure State.Completes (s t : State) (touched : List Nat) : Prop where
  par : t.par = s.par
  d : t.d = s.d
  cpc : t.cpc = s.cpc + 1
  status : t.status = s.status
  err : t.err = s.err
  epc : t.epc = s.epc
  cm : t.cm = s.cm
  boot : t.boot = s.boot
  turns : t.turns = s.turns
  cells : ∀ a, a ∉ touched → t.cell a = s.cell a

/-- Write `k` of `n` is the last one to its address (`20_memory.md` R53). -/
def lastWrite (addr : Nat → Nat) (n k : Nat) : Prop :=
  ∀ j, k < j → j < n → addr j ≠ addr k

/-- The write of matrix entry `(r, c)` is the last one to its address in row-major order (`20_memory.md` R53). -/
def lastEntry (addr : Nat → Nat → Nat) (n r c : Nat) : Prop :=
  ∀ r' < n, ∀ c' < n, r < r' ∨ (r = r' ∧ c < c') → addr r' c' ≠ addr r c

/-- The bits of a written half: the value's own, and for a NaN some quiet NaN (`40_butterfly.md` R97). -/
def F64.StoredAs (x : F64) (b : BitVec 64) : Prop :=
  if F64.isNaN x then F64.isNaN b = true ∧ b.getLsbD 51 = true else b = x

/-- The cell `cell(z)`, up to the free sign and payload of a NaN (`10_state.md` R31). -/
def holdsCplx (c : Cell) (z : Cplx F64) : Prop :=
  F64.StoredAs z.re (c.extractLsb' 0 64) ∧ F64.StoredAs z.im (c.extractLsb' 64 64)

/-- `r` is the value of sign `s` and magnitude `num / den`, in units of 2^-1074, rounded once as `40_butterfly.md` R91 says:
an infinity exactly from half a unit past the largest finite value on; otherwise no finite value is nearer, and of two
equally near ones the even. -/
structure F64.IsRounding (s : Bool) (num den : Nat) (r : F64) : Prop where
  sign : F64.sign r = s
  notNaN : F64.mag r ≤ F64.infMag
  overflow : F64.mag r = F64.infMag ↔ den * ((2^54 - 1) * 2^2044) ≤ num
  nearest : F64.mag r < F64.infMag → ∀ c < F64.infMag,
    |(F64.magUnits (F64.mag r) * den : Int) - num| ≤ |(F64.magUnits c * den : Int) - num| ∧
    (|(F64.magUnits (F64.mag r) * den : Int) - num| = |(F64.magUnits c * den : Int) - num| → c ≠ F64.mag r →
      F64.mag r % 2 = 0)

/-- Element `j` of the padded input of a transform (`42_fft.md` R132). -/
def inputElem (ty : ElemTy) (s : State) (j : Nat) : Cplx F64 :=
  if j < s.d.len.toNat then elemOf ty (s.cell (s.d.src.toNat + j * s.d.sstr.toNat)) else { re := 0, im := 0 }

/-- The checks of a transform of order `m` pass (`60_exceptions.md` R227): the order, the length, the first `LEN` source
addresses and the `2^m` destination addresses. -/
structure TransformRuns (m : Nat) (s : State) : Prop where
  order : m ≤ s.par.mmax
  size : s.d.len.toNat ≤ 2^m
  src : ∀ j < s.d.len.toNat, s.d.src.toNat + j * s.d.sstr.toNat < s.par.dmCells
  dst : ∀ j < 2^m, s.d.dst.toNat + j * s.d.dstr.toNat < s.par.dmCells

/-! ### The driver routines (`46_macros_2d.md`) -/

/-- A routine on the block, from state `s`: where its arguments give a job, the programs' commands decode as meant, and the
call returns the routine's value with `STATUS` `DONE`; where they give an error, the call returns it and no run is started
(R180 (f)). -/
structure RoutineRuns {α : Type} (s : State) (job : Except DriverError (Job Cell)) (value : Except DriverError α)
    (call : Host.Outcome (Except DriverError α × State) Fault Refusal) : Prop where
  decodes : ∀ j, job = .ok j → ∀ p ∈ j.programs, ∀ i ∈ p, decode (encode i) = .ok i
  runs : ∀ j, job = .ok j → ∃ v t, value = .ok v ∧ call = .next (.ok v, t) ∧ t.status = .done
  fails : ∀ e, job = .error e → call = .next (.error e, s)

/-! ### The forward engine in the source's own words (`42_fft.md` R133) -/

/-- A stage over a buffer `B` in natural order whose butterflies reach their operands through the bit-reversal table. -/
def naturalStage (num : Numerics) (bigM m : Nat) (b : List (Cplx num.R)) : List (Cplx num.R) :=
  (List.range (2^bigM / 2^(m + 1))).foldl
    (fun b (g : Nat) => (List.range (2^m)).foldl
      (fun b (i : Nat) => butterflyAt num (num.tw (m + 1) i) (rev bigM (g * 2^(m + 1) + i))
        (rev bigM (g * 2^(m + 1) + i + 2^m)) b) b) b

/-- All stages over the natural-order buffer, then `out[j] = B[rev(M, j)]`. -/
def naturalForward (num : Numerics) (m : Nat) (x : List (Cplx num.R)) : List (Cplx num.R) :=
  let b := (List.range m).foldl (fun b (k : Nat) => naturalStage num m k b) x
  (List.range (2^m)).map fun j => b.getD (rev m j) num.czero

/-- A run ends well: `n` steps of the machine reach `DONE`. -/
def State.halts (s : State) (n : Nat) : Prop :=
  ∃ t, Sys2Proof.core.run n s = .next t ∧ t.status = .done

end Sys2Proof.Machine
end

