-- ==== Sys2Proof/Certificates/Slice0/Obligations.lean ====
section
/-! DEFINITION. The statements for the provers, in the order of the spec's files. -/

open Sys2Proof Sys2Proof.Machine

/-! ### Encoding (`30_encoding.md`) -/

/-- Words written out from the table of R82 and the vectors T1 decode as the spec says. -/
def Obligations.WordsOfTheSpecDecode : Prop :=
  decode 0x00000000#32 = .ok .halt ∧
  decode 0x14000003#32 = .ok (.setd .LEN 3#24) ∧
  decode 0x16FFFFFF#32 = .ok (.setd .DPITCH 0xFFFFFF#24) ∧
  decode 0x2000000F#32 = .ok (.brtab 15) ∧
  decode 0x3000000A#32 = .ok (.brperm 10) ∧
  decode 0x40A003FF#32 = .ok (.bflyF 10 1023) ∧
  decode 0x48F003FF#32 = .ok (.bflyI 15 1023) ∧
  decode 0x5000000A#32 = .ok (.fftB 10) ∧
  decode 0x54000000#32 = .ok (.fftI 0) ∧
  decode 0x5800000F#32 = .ok (.fftC 15) ∧
  decode 0x6000000A#32 = .ok (.ifft 10) ∧
  decode 0x7000000B#32 = .ok (.qshift 11)

/-- Every well-formed command decodes from its word, with every operand at every value its field admits. -/
def Obligations.DecodeOfEncode : Prop :=
  ∀ i : Instr, i.wf = true → decode (encode i) = .ok i

/-- Every word that decodes is the word of the command it decodes to, and that command is well formed: no word has two
readings and no command two words. -/
def Obligations.EncodeOfDecode : Prop :=
  ∀ (w : Word) (i : Instr), decode w = .ok i → i.wf = true ∧ encode i = w

/-- R79: exactly the listed words spell no command, and fetching one raises IllegalCommand; every other word is one of the
commands and is run; the all-zero word is HALT and the all-ones word is illegal. -/
def Obligations.IllegalWordsAreExactlyThose : Prop :=
  let illegal : Word → Prop := fun w =>
    8 ≤ bits w 31 28 ∨
    (bits w 31 28 = 0 ∧ bits w 27 0 ≠ 0) ∨
    (bits w 31 28 = 1 ∧ 7 ≤ bits w 27 24) ∨
    ((bits w 31 28 = 2 ∨ bits w 31 28 = 3 ∨ bits w 31 28 = 6 ∨ bits w 31 28 = 7) ∧ bits w 27 4 ≠ 0) ∨
    (bits w 31 28 = 5 ∧ (bits w 25 4 ≠ 0 ∨ bits w 27 26 = 3)) ∨
    (bits w 31 28 = 4 ∧ (bits w 26 24 ≠ 0 ∨ bits w 19 10 ≠ 0))
  (∀ (s : State) (w : Word), s.fetch = some w → illegal w → runStep s = .next (s.raise .illegal)) ∧
  (∀ (s : State) (w : Word), s.fetch = some w → ¬ illegal w → ∃ i, decode w = .ok i ∧ runStep s = exec i s) ∧
  decode 0#32 = .ok .halt ∧ illegal 0xFFFFFFFF#32

/-- R84: a word matches a row of the opcode table, with `rd <= 6` for SETD, exactly when it decodes to that row's
command. -/
def Obligations.OpcodeRowsMatchDecoding : Prop :=
  ∀ row ∈ opcodeTable, ∀ w : Word,
    (w &&& row.mask = row.pattern ∧ (row.name = "SETD" → bits w 27 24 ≤ 6)) ↔
      ∃ i, decode w = .ok i ∧ mnemonic i = row.name

/-! ### The sequencer's step (`10_state.md` R24 to R26, `60_exceptions.md`) -/

/-- A step runs the decoded command: when it is the sequencer's move, `STATUS` is `RUN` and the word at `cpc` decodes to
`i`, the step is `exec i`; `cpc` is still that command's own index. The list of turns is the model's (log entry 2). -/
def Obligations.StepRunsTheDecodedCommand : Prop :=
  ∀ (s : State) (i : Instr), s.par.ok = true → s.status = .run → s.cpc.toNat < s.par.cmWords →
    decode (s.word s.cpc.toNat) = .ok i →
    (s.turns = [] → step s = exec i s) ∧
    (∀ rest, s.turns = .seq :: rest → step s = exec i { s with turns := rest })

/-- Steps 1 to 3 of R26: a fetch at or past `CM_WORDS` raises FetchError, before the word is looked at; a word that
spells no command raises IllegalCommand. -/
def Obligations.FetchAndDecodeFaults : Prop :=
  ∀ s : State, s.par.ok = true → s.turns = [] → s.status = .run →
    (s.par.cmWords ≤ s.cpc.toNat → step s = .next (s.raise .fetch)) ∧
    (s.cpc.toNat < s.par.cmWords → ∀ e, decode (s.word s.cpc.toNat) = .error e → step s = .next (s.raise .illegal))

/-- In `IDLE`, `DONE` and `ERR` the sequencer makes no step: its move leaves the state as it is. That the machine's step
is then a step that changes nothing is the model's choice (log entry 2). -/
def Obligations.StoppedSequencerDoesNothing : Prop :=
  ∀ s : State, s.par.ok = true → s.status ≠ .run →
    (s.turns = [] → step s = .next s) ∧
    (∀ rest, s.turns = .seq :: rest → step s = .next { s with turns := rest })

/-- The host's move is one operation of the host port or a reset, taken whole between two steps of the sequencer; and a
state whose parameters break R5 is no machine (the model's own fault, log entry 1; the turns are log entry 2). -/
def Obligations.HostMovesAreWholeSteps : Prop :=
  (∀ (s : State) (op : HostOp Cell) (rest : List (Turn Cell)), s.par.ok = true → s.turns = .host op :: rest →
    step s = hostMove op { s with turns := rest }) ∧
  (∀ s : State, s.par.ok = false → step s = .fault .badParameters)

/-- R228: raising a fault is exactly these changes. -/
def Obligations.RaisingAFault : Prop :=
  ∀ (s : State) (f : FaultCode),
    let t := s.raise f
    t.status = .err ∧ t.err = f ∧ t.epc = s.cpc ∧ t.irq = true ∧ (t.csrRead 2).toNat = f.code ∧
    t.cpc = s.cpc ∧ t.d = s.d ∧ t.cm = s.cm ∧ t.dm = s.dm ∧ t.par = s.par ∧ t.boot = s.boot ∧
    t.draws = s.draws ∧ t.turns = s.turns

/-- The checks of a decoded command, in the order of R227 and over the sets of R69: OrderError, SizeError for the
transforms, AddrError; a command that passes them completes, and HALT alone ends the program. -/
def Obligations.ChecksInOrder : Prop :=
  ∀ (i : Instr) (s : State),
    let badAddress := ∃ a, (a ∈ srcSet i s.d ∨ a ∈ dstSet i s.d) ∧ s.par.dmCells ≤ a
    let tooLong := readsLen i = true ∧ 2^(orderField i) < s.d.len.toNat
    (s.par.mmax < orderField i → exec i s = .next (s.raise .order)) ∧
    (orderField i ≤ s.par.mmax → tooLong → exec i s = .next (s.raise .size)) ∧
    (orderField i ≤ s.par.mmax → ¬ tooLong → badAddress → exec i s = .next (s.raise .addr)) ∧
    (orderField i ≤ s.par.mmax → ¬ tooLong → ¬ badAddress →
      ∃ t, exec i s = .next t ∧ t.status = if i = .halt then .done else s.status)

/-- The checks read the command word, the descriptor registers and the parameters, never memory (R227): two running states
that agree on the registers agree on them after any command, whatever their memories hold. -/
def Obligations.FaultsDoNotDependOnData : Prop :=
  ∀ (i : Instr) (s s' t t' : State),
    s.par = s'.par → s.d = s'.d → s.cpc = s'.cpc → s.status = s'.status → s.err = s'.err → s.epc = s'.epc →
    exec i s = .next t → exec i s' = .next t' →
    t.par = t'.par ∧ t.d = t'.d ∧ t.cpc = t'.cpc ∧ t.status = t'.status ∧ t.err = t'.err ∧ t.epc = t'.epc

/-- R229: every fault is precise. A step that leaves `RUN` by a fault has changed nothing but `STATUS`, `ERR` and `EPC`. -/
def Obligations.FaultsArePrecise : Prop :=
  ∀ s t : State, s.status = .run → runStep s = .next t → t.status = .err →
    t = s.raise t.err ∧ t.err.isBlocks = true

/-! ### The commands -/

/-- R170: HALT sets `STATUS` to `DONE` and changes nothing else; `irq` becomes 1. -/
def Obligations.HaltEndsTheProgram : Prop :=
  ∀ s : State, ∃ t, exec .halt s = .next t ∧ t.status = .done ∧ t.irq = true ∧
    t.cpc = s.cpc ∧ t.d = s.d ∧ t.err = s.err ∧ t.epc = s.epc ∧ t.cm = s.cm ∧ t.dm = s.dm ∧ t.par = s.par ∧
    t.boot = s.boot ∧ t.draws = s.draws ∧ t.turns = s.turns

/-- R171: SETD writes one descriptor register, for every register and value, and advances `cpc`; nothing else changes. -/
def Obligations.SetdWritesOneRegister : Prop :=
  ∀ (rd : Reg) (imm : BitVec 24) (s : State), ∃ t, exec (.setd rd imm) s = .next t ∧
    t.d.get rd = imm ∧ (∀ r, r ≠ rd → t.d.get r = s.d.get r) ∧ t.cpc = s.cpc + 1 ∧
    t.status = s.status ∧ t.err = s.err ∧ t.epc = s.epc ∧ t.cm = s.cm ∧ t.dm = s.dm ∧ t.par = s.par ∧
    t.boot = s.boot ∧ t.draws = s.draws ∧ t.turns = s.turns

/-- BRTAB (R123) completes and writes `rev(M, i)` to `DST + i·DSTR`, the last write to a cell remaining. -/
def Obligations.BrtabWritesTheTable : Prop :=
  ∀ (m : Nat) (s : State), m ≤ s.par.mmax →
    (∀ i < 2^m, s.d.dst.toNat + i * s.d.dstr.toNat < s.par.dmCells) →
    ∃ t, exec (.brtab m) s = .next t ∧ s.Completes t (dstSet (.brtab m) s.d) ∧ t.draws = s.draws ∧
      ∀ i < 2^m, lastWrite s.d.dstElem (2^m) i →
        t.cell (s.d.dst.toNat + i * s.d.dstr.toNat) = BitVec.ofNat 128 (rev m i)

/-- BRPERM (R124) completes and copies source element `rev(M, i)`, as it was before the command, to destination element
`i`. -/
def Obligations.BrpermPermutesTheVector : Prop :=
  ∀ (m : Nat) (s : State), m ≤ s.par.mmax →
    (∀ j < 2^m, s.d.src.toNat + j * s.d.sstr.toNat < s.par.dmCells) →
    (∀ i < 2^m, s.d.dst.toNat + i * s.d.dstr.toNat < s.par.dmCells) →
    ∃ t, exec (.brperm m) s = .next t ∧ s.Completes t (dstSet (.brperm m) s.d) ∧ t.draws = s.draws ∧
      ∀ i < 2^m, lastWrite s.d.dstElem (2^m) i →
        t.cell (s.d.dst.toNat + i * s.d.dstr.toNat) = s.cell (s.d.src.toNat + rev m i * s.d.sstr.toNat)

/-- BFLY.F and BFLY.I (R101) complete: `a'` to `DST`, then `b'` to `DST + DSTR`, with the twiddle `TW(E, k)` forward and
`TW(E, -k)` inverse. The bits of a stored NaN are free (log entry 5). -/
def Obligations.BflyDoesOneButterfly : Prop :=
  ∀ (e k : Nat) (s : State), e ≤ s.par.mmax →
    s.d.src.toNat < s.par.dmCells → s.d.src.toNat + s.d.sstr.toNat < s.par.dmCells →
    s.d.dst.toNat < s.par.dmCells → s.d.dst.toNat + s.d.dstr.toNat < s.par.dmCells →
    ∀ (i : Instr) (kk : Int), (i = .bflyF e k ∧ kk = k) ∨ (i = .bflyI e k ∧ kk = -(k : Int)) →
      let r := f64Numerics.bfly (cplxOf (s.cell s.d.src.toNat)) (cplxOf (s.cell (s.d.src.toNat + s.d.sstr.toNat)))
        (Twiddle.twrom e kk)
      ∃ t, exec i s = .next t ∧ s.Completes t [s.d.dst.toNat, s.d.dst.toNat + s.d.dstr.toNat] ∧
        (s.d.dstr ≠ 0 → holdsCplx (t.cell s.d.dst.toNat) r.1) ∧
        holdsCplx (t.cell (s.d.dst.toNat + s.d.dstr.toNat)) r.2

/-- FFT.B, FFT.I and FFT.C (R131) complete: the forward transform of the padded input goes to the destination vector. Every
stored NaN is quiet with free sign and payload (R97); that this holds of a NaN that FFT.C 0 passes through without an
operation is the model's choice (log entry 5). -/
def Obligations.FftWritesTheSpectrum : Prop :=
  ∀ (m : Nat) (s : State), TransformRuns m s →
    ∀ (i : Instr) (ty : ElemTy), (i = .fftB m ∧ ty = .byte) ∨ (i = .fftI m ∧ ty = .int) ∨ (i = .fftC m ∧ ty = .complex) →
      let out := forward f64Numerics m ((List.range (2^m)).map (inputElem ty s))
      ∃ t, exec i s = .next t ∧ s.Completes t (dstSet i s.d) ∧
        ∀ j < 2^m, lastWrite s.d.dstElem (2^m) j →
          holdsCplx (t.cell (s.d.dst.toNat + j * s.d.dstr.toNat)) (out.getD j f64Numerics.czero)

/-- IFFT (R151) completes: the inverse transform of the padded complex input goes to the destination vector. Every stored
NaN is quiet with free sign and payload (R97, and log entry 5 for the way they are drawn). -/
def Obligations.IfftWritesTheSequence : Prop :=
  ∀ (m : Nat) (s : State), TransformRuns m s →
    let out := inverse f64Numerics m ((List.range (2^m)).map (inputElem .complex s))
    ∃ t, exec (.ifft m) s = .next t ∧ s.Completes t (dstSet (.ifft m) s.d) ∧
      ∀ j < 2^m, lastWrite s.d.dstElem (2^m) j →
        holdsCplx (t.cell (s.d.dst.toNat + j * s.d.dstr.toNat)) (out.getD j f64Numerics.czero)

/-- QSHIFT (R161) completes: destination entry `(r, c)` is the source entry half the extent away in both directions, as it
was before the command. -/
def Obligations.QshiftSwapsQuadrants : Prop :=
  ∀ (m : Nat) (s : State), m ≤ s.par.mmax →
    (∀ r < 2^m, ∀ c < 2^m, s.d.src.toNat + r * s.d.spitch.toNat + c * s.d.sstr.toNat < s.par.dmCells) →
    (∀ r < 2^m, ∀ c < 2^m, s.d.dst.toNat + r * s.d.dpitch.toNat + c * s.d.dstr.toNat < s.par.dmCells) →
    ∃ t, exec (.qshift m) s = .next t ∧ s.Completes t (dstSet (.qshift m) s.d) ∧ t.draws = s.draws ∧
      ∀ r < 2^m, ∀ c < 2^m, lastEntry s.d.dstAt (2^m) r c →
        t.cell (s.d.dst.toNat + r * s.d.dpitch.toNat + c * s.d.dstr.toNat) =
          s.cell (s.d.src.toNat + ((r + 2^m / 2) % 2^m) * s.d.spitch.toNat + ((c + 2^m / 2) % 2^m) * s.d.sstr.toNat)

/-! ### Rules over the whole machine -/

/-- The state after reset is a legal state. -/
def Obligations.ResetStateIsLegal : Prop := State.reset.Inv

/-- The values of R41 after reset: registers 0, `IDLE`, `irq` 0, and every word and cell free. How a free value is written
(a launch content numbered by reset) is the model's choice (log entries 3 and 4). -/
def Obligations.ResetValues : Prop :=
  let s := State.reset
  (∀ r, s.d.get r = 0) ∧ s.cpc = 0 ∧ s.csrRead 1 = 0 ∧ s.csrRead 2 = 0 ∧ s.csrRead 3 = 0 ∧ s.irq = false ∧
  (∀ i, s.word i = Config.launchWord 0 i) ∧ (∀ a, s.cell a = Config.launchCell 0 a)

/-- Every step of the machine, the host's moves included, keeps a legal state legal. -/
def Obligations.StepKeepsLegalStates : Prop :=
  ∀ s t : State, s.Inv → step s = .next t → t.Inv

/-- R27: the transitions of `STATUS`, by the sequencer, by a write of `CTRL`, by reset, and by nothing else. -/
def Obligations.StatusTransitions : Prop :=
  (∀ s t : State, sequencerMove s = .next t → seqTransition s.status t.status = true) ∧
  (∀ (s : State) (n : Nat) (v : BitVec 32), ctrlTransition s.status (s.csrWrite n v).status = true) ∧
  (∀ s : State, s.powerOn.status = .idle) ∧
  (∀ (s t : State) (op : HostOp Cell), hostMove op s = .next t → op ≠ .reset →
    (∀ v, op ≠ .csrWrite 0 v) → t.status = s.status)

/-- A descriptor register is written by SETD alone among the commands (R22). -/
def Obligations.OnlySetdWritesDescriptors : Prop :=
  ∀ (i : Instr) (s t : State) (r : Reg), exec i s = .next t → t.d.get r ≠ s.d.get r → ∃ imm, i = .setd r imm

/-- R25, for a running program in legal parameters: every command advances `cpc` by exactly 1, HALT and a fault leave it;
it never wraps, and the fetch at `CM_WORDS` raises FetchError. -/
def Obligations.CpcAdvancesByOne : Prop :=
  ∀ s t : State, s.par.ok = true → s.status = .run → s.cpc.toNat ≤ s.par.cmWords → runStep s = .next t →
    (t.status = .run → t.cpc.toNat = s.cpc.toNat + 1) ∧ (t.status ≠ .run → t.cpc = s.cpc) ∧
    t.cpc.toNat ≤ s.par.cmWords ∧ (s.cpc.toNat = s.par.cmWords → t = s.raise .fetch)

/-- No command and no fault changes `CM`, the parameters or which launch contents are in force (R35, R67). -/
def Obligations.ProgramsCannotChangeCommandMemory : Prop :=
  ∀ s t : State, sequencerMove s = .next t →
    t.cm = s.cm ∧ t.par = s.par ∧ t.boot = s.boot ∧ t.turns = s.turns

/-- Every run ends (R175, R261): from a running state, with no host move pending, `DONE` or `ERR` within
`CM_WORDS + 1` steps. -/
def Obligations.EveryRunEnds : Prop :=
  ∀ s : State, s.par.ok = true → s.status = .run → s.turns = [] → s.cpc.toNat ≤ s.par.cmWords →
    ∃ n ≤ s.par.cmWords + 1, ∃ t : State, Sys2Proof.core.run n s = .next t ∧ (t.status = .done ∨ t.status = .err)

/-! ### The host port (`10_state.md` R30 to R34, `20_memory.md` R58 to R60) -/

/-- R30: a write of `CTRL` is first CLEAR if bit 1 is set, then START if bit 0 is set; the other bits are ignored. -/
def Obligations.CtrlClearsThenStarts : Prop :=
  (∀ (s : State) (v : BitVec 32), s.csrRead 0 = 0 ∧
    s.csrWrite 0 v =
      (let s1 := if v.getLsbD 1 then s.clear else s
       if v.getLsbD 0 then s1.start else s1)) ∧
  (∀ s : State, (s.status = .run → s.clear = s) ∧
    (s.status ≠ .run →
      s.clear = { s with status := .idle, err := .none, epc := 0, cpc := 0, d := Desc.zero })) ∧
  (∀ s : State, (s.status = .run ∨ s.status = .err → s.start = s) ∧
    (s.status = .idle ∨ s.status = .done →
      s.start = { s with status := .run, err := .none, epc := 0, cpc := 0, d := Desc.zero }))

/-- R34 and R33: what each CSR reads, in every `STATUS` and without a side effect, what it reads after reset, and that a write
to any CSR but `CTRL` is ignored. -/
def Obligations.CsrMap : Prop :=
  (∀ n, n ≤ 4 ∨ 8 ≤ n → State.reset.csrRead n = 0) ∧
  ∀ s : State, s.par.ok = true →
    (s.csrRead 0).toNat = 0 ∧ (s.csrRead 1).toNat = s.status.code ∧ (s.csrRead 2).toNat = s.err.code ∧
    (s.csrRead 3).toNat = s.epc.toNat ∧ (s.csrRead 4).toNat = s.cpc.toNat ∧ (s.csrRead 5).toNat = s.par.mmax ∧
    (s.csrRead 6).toNat = s.par.dmCells ∧ (s.csrRead 7).toNat = s.par.cmWords ∧
    (∀ r : Reg, (s.csrRead (8 + r.num)).toNat = (s.d.get r).toNat) ∧
    (∀ n, 15 ≤ n → s.csrRead n = 0) ∧
    (∀ (n : Nat) (v : BitVec 32), n ≠ 0 → s.csrWrite n v = s) ∧
    (∀ n : Nat, hostMove (.csrRead n) s = .next s)

/-- R23: nothing set by one run is read by the next. Of one instance with the same memories, two states that a START leaves
(`IDLE`, `DONE`) start in states that agree in every field but `draws` and `turns`, and so do any two stopped states,
`ERR` included, by a write of 3 to `CTRL`. The two fields that may differ are the model's own: the count of NaN draws (log
entry 5) and the moves to come (log entry 2). That the memories are the same includes the launch contents `boot` (log
entries 3 and 4). -/
def Obligations.StartForgetsThePreviousRun : Prop :=
  ∀ s s' : State, s.par = s'.par → s.cm = s'.cm → s.dm = s'.dm → s.boot = s'.boot →
    ((s.status = .idle ∨ s.status = .done) → (s'.status = .idle ∨ s'.status = .done) →
      s.start.status = .run ∧ s.start = { s'.start with draws := s.draws, turns := s.turns }) ∧
    (s.status ≠ .run → s'.status ≠ .run →
      (s.csrWrite 0 3).status = .run ∧
      s.csrWrite 0 3 = { s'.csrWrite 0 3 with draws := s.draws, turns := s.turns })

/-- R59: while the block is not running the host reads back what it wrote to `DM` and to `CM`, every other cell and word
as before, each write changes its own memory alone and no register, and an access outside the memories has no effect. That a
read outside them answers `none` is the model's choice (log entry 15): R59 gives it no value. -/
def Obligations.HostReadsBackItsWrites : Prop :=
  ∀ s : State, s.status ≠ .run →
    (∀ (a : Nat) (c : Cell), a < s.par.dmCells → ∃ t, hostMove (.dmWrite a c) s = .next t ∧ t = { s with dm := t.dm } ∧
      ∀ b < s.par.dmCells, dmRead b t = .next (some (if b = a then c else s.cell b))) ∧
    (∀ (i : Nat) (w : Word), i < s.par.cmWords → ∃ t, hostMove (.cmWrite i w) s = .next t ∧ t = { s with cm := t.cm } ∧
      ∀ j < s.par.cmWords, cmRead j t = .next (some (if j = i then w else s.word j))) ∧
    (∀ (a : Nat) (c : Cell), s.par.dmCells ≤ a → hostMove (.dmWrite a c) s = .next s ∧ dmRead a s = .next none) ∧
    (∀ (i : Nat) (w : Word), s.par.cmWords ≤ i → hostMove (.cmWrite i w) s = .next s ∧ cmRead i s = .next none)

/-- R60 while `STATUS = RUN`: the model refuses a host write of `CM` and any touch of a cell a remaining command touches;
a cell no remaining command touches is read and written as in R59. Refusing is one of the treatments U9 offers, and the
model's choice (log entry 6). -/
def Obligations.HostOwnershipDuringRun : Prop :=
  ∀ s : State, s.status = .run →
    (∀ (i : Nat) (w : Word), hostMove (.cmWrite i w) s = .refused .hostOwnership) ∧
    (∀ (a : Nat) (c : Cell), s.owned a = true →
      hostMove (.dmWrite a c) s = .refused .hostOwnership ∧ dmRead a s = .refused .hostOwnership) ∧
    (∀ (a : Nat) (c : Cell), s.owned a = false → a < s.par.dmCells →
      hostMove (.dmWrite a c) s = .next (s.writeCells [(a, c)]) ∧ dmRead a s = .next (some (s.cell a))) ∧
    (∀ v : BitVec 32, hostMove (.csrWrite 0 v) s = .next s)

/-- The ownership rule is the right one (R60, R64): a cell that no remaining command touches can be changed by the host
before a step or after it with the same result, and stays untouched by the rest of the run. -/
def Obligations.UnownedCellsCannotBeSeen : Prop :=
  ∀ (s t : State) (a : Nat) (c : Cell), s.Inv → s.status = .run → s.turns = [] → s.owned a = false →
    step s = .next t →
    step (s.writeCells [(a, c)]) = .next (t.writeCells [(a, c)]) ∧ (t.status = .run → t.owned a = false)

/-- Reset (R250) in any state: the registers of R41, `irq` 0, memories unspecified whatever they were before, parameters
kept. The numbering of the launch contents by reset is the model's choice (log entry 4). -/
def Obligations.ResetPulse : Prop :=
  ∀ s : State, ∃ t, hostMove .reset s = .next t ∧ (∀ r, t.d.get r = 0) ∧ t.cpc = 0 ∧ t.status = .idle ∧
    t.err = .none ∧ t.epc = 0 ∧ t.irq = false ∧ t.par = s.par ∧
    (∀ i, t.word i = Config.launchWord (s.boot + 1) i) ∧ (∀ a, t.cell a = Config.launchCell (s.boot + 1) a)

/-! ### The data path (`40_butterfly.md`, `41_bitrev.md`) -/

/-- R121 (a) to (f): the properties of the bit reversal, and its tables for the orders 0 to 4. -/
def Obligations.BitReversalProperties : Prop :=
  (∀ m, ∀ i < 2^m, rev m i < 2^m ∧ rev m (rev m i) = i) ∧
  (∀ m, ∀ j < 2^m, ∃ i < 2^m, rev m i = j) ∧
  (∀ m, rev m 0 = 0 ∧ rev m (2^m - 1) = 2^m - 1) ∧
  (rev 0 0 = 0 ∧ ∀ i < 2, rev 1 i = i) ∧
  (∀ m, ∀ i < 2^m, rev (m + 1) (2 * i) = rev m i ∧ rev (m + 1) (2 * i + 1) = rev m i + 2^m) ∧
  (∀ m, ∀ i < 2^m, rev m i = i ↔ ∀ t < m, i.testBit t = i.testBit (m - 1 - t)) ∧
  (List.range 1).map (rev 0) = [0] ∧ (List.range 2).map (rev 1) = [0, 1] ∧ (List.range 4).map (rev 2) = [0, 2, 1, 3] ∧
  (List.range 8).map (rev 3) = [0, 4, 2, 6, 1, 5, 3, 7] ∧
  (List.range 16).map (rev 4) = [0, 8, 4, 12, 2, 10, 6, 14, 1, 9, 5, 13, 3, 11, 7, 15]

/-- R125: two BRPERM commands of the same order, the second reading what the first wrote with the same stride, restore the
vector bit for bit, when the destination addresses of each are pairwise distinct. -/
def Obligations.BrpermTwiceRestores : Prop :=
  ∀ (m : Nat) (s t u v : State), exec (.brperm m) s = .next t → s.status = .run → t.status = .run →
    u.dm = t.dm → u.boot = t.boot → u.status = .run → u.d.src = s.d.dst → u.d.sstr = s.d.dstr →
    exec (.brperm m) u = .next v → v.status = .run →
    (s.d.dstr ≠ 0 ∨ m = 0) → (u.d.dstr ≠ 0 ∨ m = 0) →
    ∀ i < 2^m, v.cell (u.d.dst.toNat + i * u.d.dstr.toNat) = s.cell (s.d.src.toNat + i * s.d.sstr.toNat)

/-- R162 (a): QSHIFT twice, the second reading what the first wrote with the same strides and pitches, restores every cell
bit for bit, when the destination addresses of each are pairwise distinct. -/
def Obligations.QshiftTwiceRestores : Prop :=
  ∀ (m : Nat) (s t u v : State), exec (.qshift m) s = .next t → s.status = .run → t.status = .run →
    u.dm = t.dm → u.boot = t.boot → u.status = .run →
    u.d.src = s.d.dst → u.d.sstr = s.d.dstr → u.d.spitch = s.d.dpitch →
    exec (.qshift m) u = .next v → v.status = .run →
    (∀ r < 2^m, ∀ c < 2^m, lastEntry s.d.dstAt (2^m) r c) → (∀ r < 2^m, ∀ c < 2^m, lastEntry u.d.dstAt (2^m) r c) →
    ∀ r < 2^m, ∀ c < 2^m,
      v.cell (u.d.dst.toNat + r * u.d.dpitch.toNat + c * u.d.dstr.toNat) =
        s.cell (s.d.src.toNat + r * s.d.spitch.toNat + c * s.d.sstr.toNat)

/-- R55: a byte or integer element is exactly that integer with imaginary part `+0`; a complex element keeps both halves
of the cell. -/
def Obligations.TypedElementRead : Prop :=
  ∀ c : Cell,
    (F64.isFinite (elemOf .byte c).re = true ∧ (elemOf .byte c).im = 0 ∧
      F64.units (elemOf .byte c).re = (c.toNat % 2^8 : Nat) * 2^1074) ∧
    (F64.isFinite (elemOf .int c).re = true ∧ (elemOf .int c).im = 0 ∧
      F64.units (elemOf .int c).re = (BitVec.ofNat 32 c.toNat).toInt * 2^1074) ∧
    ((elemOf .complex c).re = BitVec.ofNat 64 c.toNat ∧ (elemOf .complex c).im = BitVec.ofNat 64 (c.toNat / 2^64))

/-- R91 and R97: `radd`, `rsub`, `rmul` and `rdiv` of finite values are the exact result rounded once, to nearest, ties to
even, with gradual underflow, and to an infinity of the right sign from half a unit past the largest finite value on; a NaN
operand, `inf - inf` and `0 × inf` give a quiet NaN; an infinity otherwise stays one of the right sign, against a finite
operand and against another infinity, and divided by a finite value; and `cmul((0, -1), (inf, 0))` is `(NaN, -inf)`. Values
are in units of 2^-1074. -/
def Obligations.RoundsToNearestTiesToEven : Prop :=
  (∀ (s : Bool) (num den : Nat), 0 < den → F64.IsRounding s num den (F64.ofUnits s num den)) ∧
  (∀ x y : F64, F64.isFinite x = true → F64.isFinite y = true →
    let ux := F64.units x
    let uy := F64.units y
    let signs := F64.sign x != F64.sign y
    (ux + uy ≠ 0 → F64.IsRounding (decide (ux + uy < 0)) (ux + uy).natAbs 1 (F64.add x y)) ∧
    (ux - uy ≠ 0 → F64.IsRounding (decide (ux - uy < 0)) (ux - uy).natAbs 1 (F64.sub x y)) ∧
    F64.IsRounding signs (ux.natAbs * uy.natAbs) (2^1074) (F64.mul x y) ∧
    (uy ≠ 0 → F64.IsRounding signs (ux.natAbs * 2^1074) uy.natAbs (F64.div x y))) ∧
  (∀ x y : F64, F64.isNaN x = true ∨ F64.isNaN y = true → ∀ r ∈ [F64.add x y, F64.sub x y, F64.mul x y, F64.div x y],
    F64.isNaN r = true ∧ r.getLsbD 51 = true) ∧
  (∀ x y : F64, F64.isInf x = true → F64.isInf y = true →
    (F64.sign x ≠ F64.sign y →
      F64.isNaN (F64.add x y) = true ∧ (F64.add x y).getLsbD 51 = true ∧ F64.sub x y = x) ∧
    (F64.sign x = F64.sign y →
      F64.isNaN (F64.sub x y) = true ∧ (F64.sub x y).getLsbD 51 = true ∧ F64.add x y = x) ∧
    F64.mul x y = F64.ofMag (F64.sign x != F64.sign y) F64.infMag) ∧
  (∀ x y : F64, F64.isInf x = true → F64.mag y = 0 → ∀ r ∈ [F64.mul x y, F64.mul y x],
    F64.isNaN r = true ∧ r.getLsbD 51 = true) ∧
  (∀ x y : F64, F64.isInf x = true → F64.isFinite y = true →
    F64.add x y = x ∧ F64.add y x = x ∧ F64.sub x y = x ∧ F64.sub y x = F64.neg x ∧
    F64.div x y = F64.ofMag (F64.sign x != F64.sign y) F64.infMag ∧
    (F64.mag y ≠ 0 → F64.mul x y = F64.ofMag (F64.sign x != F64.sign y) F64.infMag ∧
      F64.mul y x = F64.ofMag (F64.sign x != F64.sign y) F64.infMag)) ∧
  (let inf := F64.ofMag false F64.infMag
   let r := f64Numerics.cmul { re := 0, im := F64.ofInt (-1) } { re := inf, im := 0 }
   F64.isNaN r.re = true ∧ r.re.getLsbD 51 = true ∧ r.im = F64.neg inf)

/-- Signs of zero (R91): `x - x = +0` for finite `x`; `(+0) + (-0) = (-0) + (+0) = +0`; `(-0) + (-0) = -0`; a zero factor,
first or second, gives a zero with the exclusive-or of the signs. -/
def Obligations.SignsOfZeroResults : Prop :=
  (∀ x : F64, F64.isFinite x = true → F64.sub x x = 0) ∧
  F64.add 0 0x8000000000000000#64 = 0 ∧ F64.add 0x8000000000000000#64 0 = 0 ∧
  F64.add 0x8000000000000000#64 0x8000000000000000#64 = 0x8000000000000000#64 ∧
  (∀ x : F64, F64.isFinite x = true →
    F64.mul 0 x = F64.ofMag (F64.sign x) 0 ∧ F64.mul x 0 = F64.ofMag (F64.sign x) 0 ∧
    F64.mul 0x8000000000000000#64 x = F64.ofMag (!F64.sign x) 0 ∧
    F64.mul x 0x8000000000000000#64 = F64.ofMag (!F64.sign x) 0)

/-- `cdivN` (R92): dividing by `2^M` is multiplying by `2^-M`, subnormal results, infinities and zeros included; both are NaN
for a NaN. -/
def Obligations.DivisionByNIsScaling : Prop :=
  ∀ (x : F64) (m : Nat), m ≤ 15 →
    let quotient := F64.div x (F64.ofInt (2^m))
    let product := F64.mul x (BitVec.ofNat 64 ((1023 - m) * 2^52))
    (F64.isNaN x = false → quotient = product) ∧
    (F64.isNaN x = true → F64.isNaN quotient = true ∧ F64.isNaN product = true)

/-- The first entries of the twiddle table, every row that R95 lists, and the half turn that gives the rest for `E = 4`. -/
def Obligations.FirstTwiddleEntries : Prop :=
  (∀ k : Int, Twiddle.twrom 0 k = { re := 0x3ff0000000000000#64, im := 0x0000000000000000#64 }) ∧
  Twiddle.twrom 1 0 = { re := 0x3ff0000000000000#64, im := 0x0000000000000000#64 } ∧
  Twiddle.twrom 1 1 = { re := 0xbff0000000000000#64, im := 0x0000000000000000#64 } ∧
  Twiddle.twrom 2 0 = { re := 0x3ff0000000000000#64, im := 0x0000000000000000#64 } ∧
  Twiddle.twrom 2 1 = { re := 0x0000000000000000#64, im := 0xbff0000000000000#64 } ∧
  Twiddle.twrom 2 2 = { re := 0xbff0000000000000#64, im := 0x0000000000000000#64 } ∧
  Twiddle.twrom 2 3 = { re := 0x0000000000000000#64, im := 0x3ff0000000000000#64 } ∧
  Twiddle.twrom 3 1 = { re := 0x3fe6a09e667f3bcd#64, im := 0xbfe6a09e667f3bcd#64 } ∧
  Twiddle.twrom 3 2 = { re := 0x0000000000000000#64, im := 0xbff0000000000000#64 } ∧
  Twiddle.twrom 3 3 = { re := 0xbfe6a09e667f3bcd#64, im := 0xbfe6a09e667f3bcd#64 } ∧
  Twiddle.twrom 3 4 = { re := 0xbff0000000000000#64, im := 0x0000000000000000#64 } ∧
  Twiddle.twrom 3 5 = { re := 0xbfe6a09e667f3bcd#64, im := 0x3fe6a09e667f3bcd#64 } ∧
  Twiddle.twrom 3 6 = { re := 0x0000000000000000#64, im := 0x3ff0000000000000#64 } ∧
  Twiddle.twrom 3 7 = { re := 0x3fe6a09e667f3bcd#64, im := 0x3fe6a09e667f3bcd#64 } ∧
  Twiddle.twrom 4 1 = { re := 0x3fed906bcf328d46#64, im := 0xbfd87de2a6aea963#64 } ∧
  Twiddle.twrom 4 2 = { re := 0x3fe6a09e667f3bcd#64, im := 0xbfe6a09e667f3bcd#64 } ∧
  Twiddle.twrom 4 3 = { re := 0x3fd87de2a6aea963#64, im := 0xbfed906bcf328d46#64 } ∧
  Twiddle.twrom 4 4 = { re := 0x0000000000000000#64, im := 0xbff0000000000000#64 } ∧
  Twiddle.twrom 4 5 = { re := 0xbfd87de2a6aea963#64, im := 0xbfed906bcf328d46#64 } ∧
  Twiddle.twrom 4 6 = { re := 0xbfe6a09e667f3bcd#64, im := 0xbfe6a09e667f3bcd#64 } ∧
  Twiddle.twrom 4 7 = { re := 0xbfed906bcf328d46#64, im := 0xbfd87de2a6aea963#64 } ∧
  (∀ k ∈ List.range 8,
    let turned : F64 → F64 := fun x => if F64.mag x = 0 then 0 else F64.neg x
    Twiddle.twrom 4 ((k + 8 : Nat) : Int) =
      { re := turned (Twiddle.twrom 4 (k : Int)).re, im := turned (Twiddle.twrom 4 (k : Int)).im })

/-- P1 to P3 of R96 for the table of R95: conjugate symmetry with every zero `+0`, periodicity, the exact points. -/
def Obligations.TwiddleTableSymmetry : Prop :=
  (∀ (e : Nat) (k : Int), (Twiddle.twrom e (-k)).re = (Twiddle.twrom e k).re ∧
    (Twiddle.twrom e (-k)).im =
      if F64.mag (Twiddle.twrom e k).im = 0 then 0 else F64.neg (Twiddle.twrom e k).im) ∧
  (∀ (e : Nat) (k : Int), Twiddle.twrom e (k + 2^e) = Twiddle.twrom e k) ∧
  (∀ k : Int, Twiddle.twrom 0 k = { re := F64.ofInt 1, im := 0 }) ∧
  (∀ e : Nat, Twiddle.twrom e 0 = { re := F64.ofInt 1, im := 0 }) ∧
  (∀ e : Nat, Twiddle.twrom (e + 1) (2^e) = { re := F64.ofInt (-1), im := 0 }) ∧
  (∀ e : Nat, Twiddle.twrom (e + 2) (2^e) = { re := 0, im := F64.ofInt (-1) } ∧
    Twiddle.twrom (e + 2) (3 * 2^e) = { re := 0, im := F64.ofInt 1 })

/-- P4 of R96: every part of every entry an engine uses differs from the exact value by at most 2^-53. -/
def Obligations.TwiddleTableIsAccurate : Prop :=
  ∀ (e : Nat) (k : Int), e ≤ 15 →
    |F64.toReal (Twiddle.twrom e k).re - (exactTwiddle e k).re| ≤ 1 / 2^53 ∧
    |F64.toReal (Twiddle.twrom e k).im - (exactTwiddle e k).im| ≤ 1 / 2^53

/-- R94 (a) to (g), for every modulus: the properties of the exact twiddle factor; and `TW(E, k)` of tier IDEAL is that
factor for the modulus `2^E` (R93). -/
def Obligations.ExactTwiddleProperties : Prop :=
  (∀ (e : Nat) (k : Int), toComplex (exactTwiddle e k) = W (2^e) k) ∧
  (∀ (n : Nat) (k : Int), 0 < n → W n (-k) = starRingEnd ℂ (W n k)) ∧
  (∀ (n : Nat) (k : Int), 0 < n → W n (k + n) = W n k) ∧
  (∀ (n : Nat) (k : Int), 0 < n → ‖W n k‖ = 1) ∧
  (∀ (n : Nat) (j k : Int), 0 < n → W n j * W n k = W n (j + k)) ∧
  (∀ (n : Nat) (k : Int), 0 < n → W (2 * n) (k + n) = -W (2 * n) k) ∧
  (∀ (n : Nat) (k : Int), 0 < n → W (2 * n) (2 * k) = W n k) ∧
  (∀ n : Nat, 0 < n → W n 0 = 1 ∧ W (2 * n) n = -1 ∧ W (4 * n) n = -Complex.I ∧ W (4 * n) (3 * n) = Complex.I) ∧
  (∀ k : Int, W 1 k = 1)

/-- R102 (a) to (d) in tier IDEAL: the butterfly is linear, is undone by half sums and half differences for a twiddle of
modulus 1, and its special cases. -/
def Obligations.ButterflyInExactArithmetic : Prop :=
  let A := fun (a b w : Cplx ℝ) => toComplex (idealNumerics.bfly a b w).1
  let B := fun (a b w : Cplx ℝ) => toComplex (idealNumerics.bfly a b w).2
  (∀ a b w, A a b w = toComplex a + toComplex w * toComplex b ∧ B a b w = toComplex a - toComplex w * toComplex b) ∧
  (∀ (a b w : Cplx ℝ), A a b w + B a b w = 2 * toComplex a ∧
    A a b w - B a b w = 2 * toComplex w * toComplex b) ∧
  (∀ (a b w : Cplx ℝ), ‖toComplex w‖ = 1 →
    toComplex a = (A a b w + B a b w) / 2 ∧ toComplex b = starRingEnd ℂ (toComplex w) * (A a b w - B a b w) / 2) ∧
  (∀ (a w : Cplx ℝ), A a { re := 0, im := 0 } w = toComplex a ∧ B a { re := 0, im := 0 } w = toComplex a) ∧
  (∀ (a b : Cplx ℝ), A a b { re := 1, im := 0 } = toComplex a + toComplex b ∧
    B a b { re := 1, im := 0 } = toComplex a - toComplex b)

/-! ### The engines (`42_fft.md`, `43_ifft.md`) -/

/-- R136: the index pairs of one stage's butterflies contain every index of the buffer exactly once, and the butterflies may
be run in any order, in any arithmetic. -/
def Obligations.ButterfliesOfAStageCommute : Prop :=
  ∀ bigM m : Nat, m < bigM →
    let pairs := (List.range (2^bigM / 2^(m + 1))).flatMap fun g => (List.range (2^m)).map fun i => (g, i)
    let p : Nat × Nat → Nat := fun gi => gi.1 * 2^(m + 1) + gi.2
    (pairs.flatMap fun gi => [p gi, p gi + 2^m]).Perm (List.range (2^bigM)) ∧
    ∀ (num : Numerics) (sgn : Int) (wb : List (Cplx num.R)), wb.length = 2^bigM →
      ∀ order : List (Nat × Nat), order.Perm pairs →
        order.foldl (fun wb gi => butterflyAt num (num.tw (m + 1) (sgn * gi.2)) (p gi) (p gi + 2^m) wb) wb =
          stagePass num sgn bigM m wb

/-- R133: the transform in the source's own words, over a natural-order buffer `B` reached through the bit-reversal table,
is the transform of R131, in any arithmetic: after any number of stages `WB[j] = B[rev(M, j)]`, and the outputs agree. -/
def Obligations.SourceWordingIsTheSameTransform : Prop :=
  ∀ (num : Numerics) (m : Nat) (x : List (Cplx num.R)), x.length = 2^m →
    (∀ k ≤ m,
      let b := (List.range k).foldl (fun b i => naturalStage num m i b) x
      (List.range (2^m)).map (fun j => b.getD (rev m j) num.czero) =
        (List.range k).foldl (fun wb i => stagePass num 1 m i wb) (loadReversed num m x)) ∧
    naturalForward num m x = forward num m x

/-- R138: in tier IDEAL the FFT command computes the discrete Fourier transform of the padded sequence, by the invariant that
after `s` stages every group of `2^s` elements holds the transform of its own decimated input. -/
def Obligations.ForwardEngineIsTheDft : Prop :=
  ∀ (m : Nat) (x : List (Cplx ℝ)), x.length = 2^m →
    (∀ s ≤ m, ∀ g < 2^(m - s), ∀ k < 2^s,
      elemC ((List.range s).foldl (fun wb j => stagePass idealNumerics 1 m j wb) (loadReversed idealNumerics m x))
        (g * 2^s + k) =
      ∑ n ∈ Finset.range (2^s), elemC x (n * 2^(m - s) + rev (m - s) g) * W (2^s) (n * k)) ∧
    (∀ k < 2^m, elemC (forward idealNumerics m x) k = ∑ n ∈ Finset.range (2^m), elemC x n * W (2^m) (n * k)) ∧
    -- the command, on the machine of tier IDEAL
    ∀ (s : IdealState) (i : Instr) (ty : ElemTy),
      (i = .fftB m ∧ ty = .byte) ∨ (i = .fftI m ∧ ty = .int) ∨ (i = .fftC m ∧ ty = .complex) →
      TransformRuns m s.control → (s.d.dstr ≠ 0 ∨ m = 0) →
      ∃ t, idealExec i s = .next t ∧ ∀ k < 2^m,
        toComplex (idealComplex (t.cell (s.d.dst.toNat + k * s.d.dstr.toNat))) =
          ∑ n ∈ Finset.range (2^m),
            (if n < s.d.len.toNat then toComplex (idealElem ty (s.cell (s.d.src.toNat + n * s.d.sstr.toNat))) else 0) *
              W (2^m) (n * k)

/-- R153: in tier `IDEAL` the IFFT command computes the inverse discrete Fourier transform of the padded input, which is also
the conjugate of the forward transform of the conjugates, divided by `N`. -/
def Obligations.InverseEngineIsTheInverseDft : Prop :=
  (∀ (m : Nat) (x : List (Cplx ℝ)), x.length = 2^m → ∀ n < 2^m,
    elemC (inverse idealNumerics m x) n = 1 / 2^m * ∑ k ∈ Finset.range (2^m), elemC x k * W (2^m) (-(n * k)) ∧
    elemC (inverse idealNumerics m x) n =
      starRingEnd ℂ (elemC (forward idealNumerics m (x.map fun z => ({ re := z.re, im := -z.im } : Cplx ℝ))) n) / 2^m) ∧
  -- the command, on the machine of tier IDEAL
  ∀ (m : Nat) (s : IdealState), TransformRuns m s.control → (s.d.dstr ≠ 0 ∨ m = 0) →
    ∃ t, idealExec (.ifft m) s = .next t ∧ ∀ n < 2^m,
      toComplex (idealComplex (t.cell (s.d.dst.toNat + n * s.d.dstr.toNat))) =
        1 / 2^m * ∑ k ∈ Finset.range (2^m),
          (if k < s.d.len.toNat then toComplex (idealComplex (s.cell (s.d.src.toNat + k * s.d.sstr.toNat))) else 0) *
            W (2^m) (-(n * k))

/-- The round trip of R154 in tier IDEAL, both ways. -/
def Obligations.RoundTripInExactArithmetic : Prop :=
  ∀ (m : Nat) (x : List (Cplx ℝ)), x.length = 2^m →
    inverse idealNumerics m (forward idealNumerics m x) = x ∧
    forward idealNumerics m (inverse idealNumerics m x) = x

/-- R139 (a) in tier F64, on the machine: an impulse of bytes gives a spectrum with every bin `(1, +0)`, bit for bit. -/
def Obligations.ImpulseSpectrumBitForBit : Prop :=
  ∀ (m : Nat) (s : State), TransformRuns m s → 1 ≤ s.d.len.toNat →
    byteOf (s.cell s.d.src.toNat) = 1 →
    (∀ j, 1 ≤ j → j < s.d.len.toNat → byteOf (s.cell (s.d.src.toNat + j * s.d.sstr.toNat)) = 0) →
    ∃ t, exec (.fftB m) s = .next t ∧
      ∀ j < 2^m, t.cell (s.d.dst.toNat + j * s.d.dstr.toNat) = 0x00000000000000003ff0000000000000#128

/-- R140 (b) and R155 (b): an empty input completes without looking at any source address, and every destination cell
is 128 zero bits. -/
def Obligations.EmptyInputGivesZeros : Prop :=
  ∀ (m : Nat) (s : State), m ≤ s.par.mmax → s.d.len = 0 →
    (∀ j < 2^m, s.d.dst.toNat + j * s.d.dstr.toNat < s.par.dmCells) →
    ∀ i ∈ [Instr.fftB m, .fftI m, .fftC m, .ifft m],
      ∃ t, exec i s = .next t ∧ ∀ j < 2^m, t.cell (s.d.dst.toNat + j * s.d.dstr.toNat) = 0

/-! ### The routines around the block (`46_macros_2d.md`, `47_host_software.md`) -/

/-- The round trip of R190 in tier IDEAL: un-centering, inverse columns and rows undo forward columns, rows and centering,
on every entry of the padded image; and `ifft2d(fft2d(image, ty), R, C, complex)` returns the widened image exactly, for
every image with `C <= N`. -/
def Obligations.TwoDimensionalRoundTrip : Prop :=
  (∀ (m n n' : Nat) (cols : List (List (Cplx ℝ))), cols.length = 2^m → (∀ col ∈ cols, col.length ≤ 2^m) →
    ∀ r < 2^m, ∀ c < 2^m,
      (ifft2dValue idealTier n' m (fft2dValue idealTier n m cols)).at idealNumerics.czero r c =
        (cols.getD c []).getD r idealNumerics.czero) ∧
  (∀ (par : Params) (x : Image ℝ) (mode : NarrowMode) (n n' : Nat), x.rows ≠ 0 → x.cols ≠ 0 →
    paddedOrder x.rows ≤ par.mmax → x.cols ≤ 2^(paddedOrder x.rows) →
    ∃ spectrum y, fft2d idealTier par n x = .ok (spectrum, false) ∧
      ifft2d idealTier par mode n' spectrum x.rows x.cols .complex = .ok (.complex y) ∧
      y.rows = x.rows ∧ y.cols = x.cols ∧
      ∀ r < x.rows, ∀ c < x.cols, y.at idealNumerics.czero r c = x.widened idealTier r c)

/-- What running the expansions leaves (R181, R182, R184, R188, by the protocol of R253): from any stopped state of a legal
instance, where the regions lie below `DM_CELLS` and the numbers fit their registers, each routine's programs run to `DONE`
and the call returns the routine's value, which `fft1d` has left in the cells from `b` on; where a check fails the call
returns the error and changes nothing. The regions of the image and of the intermediate of `fft2d` are apart. Where `CM` is
short the expansion takes several runs (R180 (g)). How it is split, and the refusal of numbers and programs that do not fit,
are the model's choice (log entry 17). So is that the call and the function on values agree where R189 and R97 give no one
value: a real part that is a NaN, infinite or out of range re-quantizes to a free value of that real part alone (log entry
11, unsafe), and the bits of a NaN are those of its draw, which both sides number from `s.draws` on (log entry 5). -/
def Obligations.RunningTheExpansions : Prop :=
  ∀ s : State, s.par.ok = true → s.status ≠ .run →
    (∀ (a b : Nat) (x : Image F64) (size : Nat),
      RoutineRuns s (fft1dJob f64Tier s.par a b x size) (fft1d f64Tier s.par s.draws x size)
        (fft1dCall f64Port a b x size s)) ∧
    (∀ (a b : Nat) (x : Image F64) (size : Nat) (v : List (Cplx F64)) (t : State),
      fft1dCall f64Port a b x size s = .next (.ok v, t) → ∀ k < size, cplxOf (t.cell (b + k)) = v.getD k f64Numerics.czero) ∧
    (∀ (a b : Nat) (x : Mat (Cplx F64)) (size : Nat),
      RoutineRuns s (ifft1dJob f64Tier s.par a b x size) (ifft1d f64Tier s.par s.draws x size)
        (ifft1dCall f64Port a b x size s)) ∧
    (∀ (a t b : Nat) (x : Image F64),
      (a + x.rows * x.cols ≤ t ∨ t + 2^(paddedOrder x.rows) * 2^(paddedOrder x.rows) ≤ a) →
      RoutineRuns s (fft2dJob f64Tier s.par a t b x) (fft2d f64Tier s.par s.draws x) (fft2dCall f64Port a t b x s)) ∧
    (∀ (mode : NarrowMode) (a t : Nat) (x : Mat (Cplx F64)) (rows cols : Nat) (ty : ElemTy),
      RoutineRuns s (ifft2dJob f64Tier s.par a t x rows cols) (ifft2d f64Tier s.par mode s.draws x rows cols ty)
        (ifft2dCall f64Port mode a t x rows cols ty s))

/-- R210: in tier `F64` the mean squared error is the exact mean of the squared differences rounded once, as long as their
sum is below 2^53 (values in units of 2^-1074), and in tier `IDEAL` it is that mean. The identities hold exactly in both tiers,
whatever the sum: an image with pixels against itself gives 0, and against an image that differs by `c` in every pixel, without
saturation, `c^2`. -/
def Obligations.MseIdentities : Prop :=
  ∀ (R : Type) (p q : Mat Byte), 0 < p.rows * p.cols → q.rows = p.rows → q.cols = p.cols →
    (let total := ∑ i ∈ Finset.range p.rows, ∑ j ∈ Finset.range p.cols,
        (((p.at 0 i j).toNat : Int) - ((q.at 0 i j).toNat : Int))^2
     mse idealTier (R := R) (.byte p) (.byte q) = .ok ((total : ℝ) / ((p.rows * p.cols : Nat) : ℝ)) ∧
     (total < 2^53 → ∃ e, mse f64Tier (R := R) (.byte p) (.byte q) = .ok e ∧
       F64.IsRounding false (total.natAbs * 2^1074) (p.rows * p.cols) e)) ∧
    (mse f64Tier (R := R) (.byte p) (.byte p) = .ok (0 : F64) ∧ mse idealTier (R := R) (.byte p) (.byte p) = .ok (0 : ℝ)) ∧
    ∀ c : Int, (∀ i < p.rows, ∀ j < p.cols, ((q.at 0 i j).toNat : Int) = (p.at 0 i j).toNat + c) →
      mse f64Tier (R := R) (.byte p) (.byte q) = .ok (F64.ofInt (c * c)) ∧
      mse idealTier (R := R) (.byte p) (.byte q) = .ok (((c * c : Int) : ℝ))

/-- R211 with R210 and R212. In any host: below the epsilon `psnr` is the ceiling 100 and otherwise `10·log10(255^2 / MSE)`, the
fidelity report is the pair of both metrics, and images of different extents, or that are not both 8-bit, are refused with
DimensionMismatchError. In both tiers: identical images give 100, and images that differ by `c` in every pixel give
`10·log10(255^2 / c^2)` when `c^2` is not below the epsilon, and 100 when it is. In tier `F64` the logarithm is any function (U17);
that the division and the product by 10 around it are each rounded is the model's choice (log entry 12). -/
def Obligations.PsnrRules : Prop :=
  ∀ (R : Type) (eps : EpsPsnr),
    (∀ (T : Tier) (log10 : T.num.R → T.num.R) (a b : Image R),
      (∀ e, mse T a b = .ok e →
        (T.below e eps.1 → psnr T log10 eps a b = .ok (T.num.ofInt 100) ∧
          fidelityReport T log10 eps a b = .ok (e, T.num.ofInt 100)) ∧
        (¬ T.below e eps.1 →
          let v := T.num.rmul (T.num.ofInt 10) (log10 (T.num.rdiv (T.num.ofInt 65025) e))
          psnr T log10 eps a b = .ok v ∧ fidelityReport T log10 eps a b = .ok (e, v))) ∧
      (a.rows ≠ b.rows ∨ a.cols ≠ b.cols ∨ a.ty ≠ .byte ∨ b.ty ≠ .byte →
        mse T a b = .error (.code .dimensionMismatch) ∧ psnr T log10 eps a b = .error (.code .dimensionMismatch) ∧
          fidelityReport T log10 eps a b = .error (.code .dimensionMismatch))) ∧
    ∀ (log10 : F64 → F64) (p : Mat Byte), 0 < p.rows * p.cols →
      (psnr f64Tier log10 eps (R := R) (.byte p) (.byte p) = .ok (F64.ofInt 100) ∧
        psnrExact eps (R := R) (.byte p) (.byte p) = .ok 100 ∧
        fidelityReport f64Tier log10 eps (R := R) (.byte p) (.byte p) = .ok ((0 : F64), F64.ofInt 100) ∧
        fidelityReport idealTier (Real.logb 10) eps (R := R) (.byte p) (.byte p) = .ok ((0 : ℝ), (100 : ℝ))) ∧
      ∀ (q : Mat Byte) (c : Int), q.rows = p.rows → q.cols = p.cols →
        (∀ i < p.rows, ∀ j < p.cols, ((q.at 0 i j).toNat : Int) = (p.at 0 i j).toNat + c) →
        (eps.1 ≤ (c : ℝ)^2 →
          let v := F64.mul (F64.ofInt 10) (log10 (F64.div (F64.ofInt 65025) (F64.ofInt (c * c))))
          let w : ℝ := 10 * Real.logb 10 (255^2 / (c : ℝ)^2)
          psnr f64Tier log10 eps (R := R) (.byte p) (.byte q) = .ok v ∧
          psnrExact eps (R := R) (.byte p) (.byte q) = .ok w ∧
          fidelityReport f64Tier log10 eps (R := R) (.byte p) (.byte q) = .ok (F64.ofInt (c * c), v) ∧
          fidelityReport idealTier (Real.logb 10) eps (R := R) (.byte p) (.byte q) = .ok ((c : ℝ)^2, w)) ∧
        ((c : ℝ)^2 < eps.1 →
          psnr f64Tier log10 eps (R := R) (.byte p) (.byte q) = .ok (F64.ofInt 100) ∧
          psnrExact eps (R := R) (.byte p) (.byte q) = .ok 100 ∧
          fidelityReport f64Tier log10 eps (R := R) (.byte p) (.byte q) = .ok (F64.ofInt (c * c), F64.ofInt 100) ∧
          fidelityReport idealTier (Real.logb 10) eps (R := R) (.byte p) (.byte q) = .ok ((c : ℝ)^2, (100 : ℝ)))

/-- R201 to R205: an ideal kernel is 1 exactly where the distance is at most the radius and 0 elsewhere; in exact arithmetic
a Gaussian kernel lies in (0, 1], is symmetric, and is 1 at the centre; its binary64 centre is exactly 1. In tier IDEAL the
filter step with real entries `k` gives `(k·re, k·im)`, and an ideal kernel whose radius reaches the corner leaves the
spectrum unchanged. That the step has this product also where the equal dimensions are not square is the model's choice (log
entry 10). -/
def Obligations.KernelEntries : Prop :=
  (∀ size i j : Nat, i < size → j < size →
    let distSq : Int := ((i : Int) - (size / 2 : Nat))^2 + ((j : Int) - (size / 2 : Nat))^2
    (∀ radius : Rat, (idealLPF f64Numerics size radius).at f64Numerics.czero i j =
      { re := if 0 ≤ radius ∧ (distSq : Rat) ≤ radius^2 then F64.ofInt 1 else 0, im := 0 }) ∧
    (∀ radius : ℝ, (idealLPFExact size radius).at idealNumerics.czero i j =
      { re := if Real.sqrt (distSq : ℝ) ≤ radius then 1 else 0, im := 0 }) ∧
    (∀ sigma : ℝ, 0 < sigma →
      0 < gaussianEntry size sigma i j ∧ gaussianEntry size sigma i j ≤ 1 ∧
      gaussianEntry size sigma j i = gaussianEntry size sigma i j ∧
      gaussianEntry size sigma (size / 2) (size / 2) = 1 ∧
      ∃ k, gaussianLPFExact size sigma = .ok k ∧
        k.at idealNumerics.czero i j = { re := Real.exp (-(distSq : ℝ) / (2 * sigma^2)), im := 0 }) ∧
    (∀ (hexp : F64 → F64) (sigma : F64), hexp (F64.neg 0) = F64.ofInt 1 →
      F64.isNaN sigma = false → F64.sign sigma = false → F64.mag sigma ≠ 0 →
      ∃ k, gaussianLPF hexp size sigma = .ok k ∧
        k.at f64Numerics.czero (size / 2) (size / 2) = { re := F64.ofInt 1, im := 0 })) ∧
  (∀ s k : Mat (Cplx ℝ), s.rows = k.rows → s.cols = k.cols →
    ∃ f, filterStep idealNumerics s k = .ok f ∧ f.rows = s.rows ∧ f.cols = s.cols ∧
      ∀ r < s.rows, ∀ c < s.cols, (k.at idealNumerics.czero r c).im = 0 →
        f.at idealNumerics.czero r c =
          { re := (k.at idealNumerics.czero r c).re * (s.at idealNumerics.czero r c).re,
            im := (k.at idealNumerics.czero r c).re * (s.at idealNumerics.czero r c).im }) ∧
  (∀ (s : Mat (Cplx ℝ)) (size : Nat) (radius : ℝ), s.rows = size → s.cols = size →
    ((size / 2 : Nat) : ℝ) * Real.sqrt 2 ≤ radius →
    ∃ f, filterStep idealNumerics s (idealLPFExact size radius) = .ok f ∧
      ∀ r < size, ∀ c < size, f.at idealNumerics.czero r c = s.at idealNumerics.czero r c)
end

