-- ==== Sys2Proof/Laws/Memory.lean ====
section
/-! SUPPORT. The laws of memory: a read after a write, the canonical form, and a command's writes in order
(`20_memory.md` R53). -/

namespace Sys2Proof.Laws

open Sys2Proof.Machine

variable {α : Type}

/-! ### One write -/

theorem get?_set_same (m : Memory α) (a : Nat) (v : α) :
    Memory.get? (Memory.set m a v) a = some v := by
  induction m with
  | nil => simp [Memory.set, Memory.get?]
  | cons p rest ih =>
    simp only [Memory.set]
    split_ifs with h1 h2
    · simp [Memory.get?]
    · simp [Memory.get?]
    · simp [Memory.get?, ih, Ne.symm h2]

theorem get?_set_other (m : Memory α) (a b : Nat) (v : α) (h : b ≠ a) :
    Memory.get? (Memory.set m a v) b = Memory.get? m b := by
  induction m with
  | nil => simp [Memory.set, Memory.get?, Ne.symm h]
  | cons p rest ih =>
    simp only [Memory.set]
    split_ifs with h1 h2
    · simp [Memory.get?, Ne.symm h]
    · subst h2
      simp [Memory.get?, Ne.symm h]
    · simp [Memory.get?, ih]

theorem get?_set (m : Memory α) (a b : Nat) (v : α) :
    Memory.get? (Memory.set m a v) b = if b = a then some v else Memory.get? m b := by
  split_ifs with h
  · rw [h, get?_set_same]
  · exact get?_set_other m a b v h

/-! ### The canonical form -/

/-- The canonical form as a chain of addresses. -/
theorem wf_cons_cons (p q : Nat × α) (rest : Memory α) :
    Memory.wf (p :: q :: rest) = true ↔ p.1 < q.1 ∧ Memory.wf (q :: rest) = true := by
  simp [Memory.wf]

theorem wf_tail (p : Nat × α) (rest : Memory α) (h : Memory.wf (p :: rest) = true) :
    Memory.wf rest = true := by
  cases rest with
  | nil => rfl
  | cons q rest => exact ((wf_cons_cons p q rest).1 h).2

/-- A write keeps the canonical form. -/
theorem wf_set (m : Memory α) (a : Nat) (v : α) (h : Memory.wf m = true) :
    Memory.wf (Memory.set m a v) = true := by
  induction m with
  | nil => rfl
  | cons p rest ih =>
    simp only [Memory.set]
    split_ifs with h1 h2
    · exact (wf_cons_cons _ _ _).2 ⟨h1, h⟩
    · subst h2
      cases rest with
      | nil => rfl
      | cons q rest => exact (wf_cons_cons _ _ _).2 ((wf_cons_cons _ _ _).1 h)
    · have hpa : p.1 < a := by omega
      have ih := ih (wf_tail _ _ h)
      cases rest with
      | nil => exact (wf_cons_cons _ _ _).2 ⟨hpa, rfl⟩
      | cons q rest =>
        have hq := ((wf_cons_cons _ _ _).1 h).1
        simp only [Memory.set] at ih ⊢
        split_ifs at ih ⊢ with h3 h4
        · exact (wf_cons_cons _ _ _).2 ⟨hpa, ih⟩
        · exact (wf_cons_cons _ _ _).2 ⟨hpa, ih⟩
        · exact (wf_cons_cons _ _ _).2 ⟨hq, ih⟩

/-- A write below a size keeps every listed address below it. -/
theorem below_set (m : Memory α) (size a : Nat) (v : α) (h : Memory.below m size) (ha : a < size) :
    Memory.below (Memory.set m a v) size := by
  induction m with
  | nil => simpa [Memory.set, Memory.below] using ha
  | cons p rest ih =>
    have hp : p.1 < size := h p (by simp)
    have hrest : Memory.below rest size := fun q hq => h q (by simp [hq])
    simp only [Memory.set]
    split_ifs with h1 h2
    · intro q hq
      simp only [List.mem_cons] at hq
      rcases hq with rfl | rfl | hq
      · exact ha
      · exact hp
      · exact hrest q hq
    · intro q hq
      simp only [List.mem_cons] at hq
      rcases hq with rfl | hq
      · exact ha
      · exact hrest q hq
    · intro q hq
      simp only [List.mem_cons] at hq
      rcases hq with rfl | hq
      · exact hp
      · exact ih hrest q hq

/-! ### A command's writes -/

@[simp] theorem writeAll_nil (m : Memory α) : Memory.writeAll m [] = m := rfl

@[simp] theorem writeAll_cons (m : Memory α) (p : Nat × α) (ws : List (Nat × α)) :
    Memory.writeAll m (p :: ws) = Memory.writeAll (Memory.set m p.1 p.2) ws := rfl

theorem writeAll_append (m : Memory α) (us vs : List (Nat × α)) :
    Memory.writeAll m (us ++ vs) = Memory.writeAll (Memory.writeAll m us) vs := by
  induction us generalizing m with
  | nil => rfl
  | cons p us ih => simp [ih]

theorem wf_writeAll (m : Memory α) (ws : List (Nat × α)) (h : Memory.wf m = true) :
    Memory.wf (Memory.writeAll m ws) = true := by
  induction ws generalizing m with
  | nil => exact h
  | cons p ws ih => exact ih _ (wf_set m p.1 p.2 h)

theorem below_writeAll (m : Memory α) (size : Nat) (ws : List (Nat × α)) (h : Memory.below m size)
    (hw : ∀ p ∈ ws, p.1 < size) : Memory.below (Memory.writeAll m ws) size := by
  induction ws generalizing m with
  | nil => exact h
  | cons p ws ih =>
    exact ih _ (below_set m size p.1 p.2 h (hw p (by simp))) fun q hq => hw q (by simp [hq])

/-- An address that is not written reads as before. -/
theorem get?_writeAll_other (m : Memory α) (ws : List (Nat × α)) (a : Nat) (h : ∀ p ∈ ws, p.1 ≠ a) :
    Memory.get? (Memory.writeAll m ws) a = Memory.get? m a := by
  induction ws generalizing m with
  | nil => rfl
  | cons p ws ih =>
    rw [writeAll_cons, ih _ fun q hq => h q (by simp [hq])]
    exact get?_set_other m p.1 a p.2 (Ne.symm (h p (by simp)))

/-- An address reads as the last write to it: write number `k`, when no later one has its address. -/
theorem get?_writeAll_last (m : Memory α) (ws : List (Nat × α)) (k : Nat) (hk : k < ws.length)
    (hlast : ∀ j, k < j → (hj : j < ws.length) → (ws[j]).1 ≠ (ws[k]).1) :
    Memory.get? (Memory.writeAll m ws) (ws[k]).1 = some (ws[k]).2 := by
  induction ws generalizing m k with
  | nil => simp at hk
  | cons p ws ih =>
    cases k with
    | zero =>
      simp only [List.getElem_cons_zero, writeAll_cons]
      rw [get?_writeAll_other]
      · exact get?_set_same m p.1 p.2
      · intro q hq
        obtain ⟨j, hj, rfl⟩ := List.getElem_of_mem hq
        exact hlast (j + 1) (by omega) (by simpa using hj)
    | succ k =>
      simp only [List.getElem_cons_succ, writeAll_cons]
      refine ih _ k (by simpa using hk) fun j hj hjl => ?_
      exact hlast (j + 1) (by omega) (by simpa using hjl)

/-! ### Cells and words of a state -/

theorem cell_writeCells_other (s : State) (ws : List (Nat × Cell)) (a : Nat) (h : ∀ p ∈ ws, p.1 ≠ a) :
    (s.writeCells ws).cell a = s.cell a := by
  simp [State.cell, State.writeCells, get?_writeAll_other s.dm ws a h]

theorem cell_writeCells_last (s : State) (ws : List (Nat × Cell)) (k : Nat) (hk : k < ws.length)
    (hlast : ∀ j, k < j → (hj : j < ws.length) → (ws[j]).1 ≠ (ws[k]).1) :
    (s.writeCells ws).cell (ws[k]).1 = (ws[k]).2 := by
  simp [State.cell, State.writeCells, get?_writeAll_last s.dm ws k hk hlast]

theorem word_storeWord (s : State) (i j : Nat) (v : Word) :
    (s.storeWord i v).word j = if j = i then v else s.word j := by
  simp only [State.word, State.storeWord, get?_set]
  split_ifs <;> rfl

end Sys2Proof.Laws
end

