-- ==== Sys2Proof/Laws/State.lean ====
section
/-! SUPPORT. One lemma per field per update of the state, so that no proof unfolds a record update. -/

namespace Sys2Proof.Laws

open Sys2Proof.Machine

variable (s : State)

@[simp] theorem storeWord_par (i : Nat) (w : Word) : (s.storeWord i w).par = s.par := rfl
@[simp] theorem storeWord_d (i : Nat) (w : Word) : (s.storeWord i w).d = s.d := rfl
@[simp] theorem storeWord_cpc (i : Nat) (w : Word) : (s.storeWord i w).cpc = s.cpc := rfl
@[simp] theorem storeWord_status (i : Nat) (w : Word) : (s.storeWord i w).status = s.status := rfl
@[simp] theorem storeWord_err (i : Nat) (w : Word) : (s.storeWord i w).err = s.err := rfl
@[simp] theorem storeWord_epc (i : Nat) (w : Word) : (s.storeWord i w).epc = s.epc := rfl
@[simp] theorem storeWord_cm (i : Nat) (w : Word) : (s.storeWord i w).cm = Memory.set s.cm i w := rfl
@[simp] theorem storeWord_dm (i : Nat) (w : Word) : (s.storeWord i w).dm = s.dm := rfl
@[simp] theorem storeWord_boot (i : Nat) (w : Word) : (s.storeWord i w).boot = s.boot := rfl
@[simp] theorem storeWord_draws (i : Nat) (w : Word) : (s.storeWord i w).draws = s.draws := rfl
@[simp] theorem storeWord_turns (i : Nat) (w : Word) : (s.storeWord i w).turns = s.turns := rfl

@[simp] theorem writeCells_par (ws : List (Nat × Cell)) : (s.writeCells ws).par = s.par := rfl
@[simp] theorem writeCells_d (ws : List (Nat × Cell)) : (s.writeCells ws).d = s.d := rfl
@[simp] theorem writeCells_cpc (ws : List (Nat × Cell)) : (s.writeCells ws).cpc = s.cpc := rfl
@[simp] theorem writeCells_status (ws : List (Nat × Cell)) : (s.writeCells ws).status = s.status := rfl
@[simp] theorem writeCells_err (ws : List (Nat × Cell)) : (s.writeCells ws).err = s.err := rfl
@[simp] theorem writeCells_epc (ws : List (Nat × Cell)) : (s.writeCells ws).epc = s.epc := rfl
@[simp] theorem writeCells_cm (ws : List (Nat × Cell)) : (s.writeCells ws).cm = s.cm := rfl
@[simp] theorem writeCells_dm (ws : List (Nat × Cell)) : (s.writeCells ws).dm = Memory.writeAll s.dm ws := rfl
@[simp] theorem writeCells_boot (ws : List (Nat × Cell)) : (s.writeCells ws).boot = s.boot := rfl
@[simp] theorem writeCells_draws (ws : List (Nat × Cell)) : (s.writeCells ws).draws = s.draws := rfl
@[simp] theorem writeCells_turns (ws : List (Nat × Cell)) : (s.writeCells ws).turns = s.turns := rfl

@[simp] theorem setReg_par (r : Reg) (v : BitVec 24) : (s.setReg r v).par = s.par := rfl
@[simp] theorem setReg_d (r : Reg) (v : BitVec 24) : (s.setReg r v).d = s.d.set r v := rfl
@[simp] theorem setReg_cpc (r : Reg) (v : BitVec 24) : (s.setReg r v).cpc = s.cpc := rfl
@[simp] theorem setReg_status (r : Reg) (v : BitVec 24) : (s.setReg r v).status = s.status := rfl
@[simp] theorem setReg_err (r : Reg) (v : BitVec 24) : (s.setReg r v).err = s.err := rfl
@[simp] theorem setReg_epc (r : Reg) (v : BitVec 24) : (s.setReg r v).epc = s.epc := rfl
@[simp] theorem setReg_cm (r : Reg) (v : BitVec 24) : (s.setReg r v).cm = s.cm := rfl
@[simp] theorem setReg_dm (r : Reg) (v : BitVec 24) : (s.setReg r v).dm = s.dm := rfl
@[simp] theorem setReg_boot (r : Reg) (v : BitVec 24) : (s.setReg r v).boot = s.boot := rfl
@[simp] theorem setReg_draws (r : Reg) (v : BitVec 24) : (s.setReg r v).draws = s.draws := rfl
@[simp] theorem setReg_turns (r : Reg) (v : BitVec 24) : (s.setReg r v).turns = s.turns := rfl

@[simp] theorem advance_par : s.advance.par = s.par := rfl
@[simp] theorem advance_d : s.advance.d = s.d := rfl
@[simp] theorem advance_cpc : s.advance.cpc = s.cpc + 1 := rfl
@[simp] theorem advance_status : s.advance.status = s.status := rfl
@[simp] theorem advance_err : s.advance.err = s.err := rfl
@[simp] theorem advance_epc : s.advance.epc = s.epc := rfl
@[simp] theorem advance_cm : s.advance.cm = s.cm := rfl
@[simp] theorem advance_dm : s.advance.dm = s.dm := rfl
@[simp] theorem advance_boot : s.advance.boot = s.boot := rfl
@[simp] theorem advance_draws : s.advance.draws = s.draws := rfl
@[simp] theorem advance_turns : s.advance.turns = s.turns := rfl

@[simp] theorem finish_par : s.finish.par = s.par := rfl
@[simp] theorem finish_d : s.finish.d = s.d := rfl
@[simp] theorem finish_cpc : s.finish.cpc = s.cpc := rfl
@[simp] theorem finish_status : s.finish.status = RunState.done := rfl
@[simp] theorem finish_err : s.finish.err = s.err := rfl
@[simp] theorem finish_epc : s.finish.epc = s.epc := rfl
@[simp] theorem finish_cm : s.finish.cm = s.cm := rfl
@[simp] theorem finish_dm : s.finish.dm = s.dm := rfl
@[simp] theorem finish_boot : s.finish.boot = s.boot := rfl
@[simp] theorem finish_draws : s.finish.draws = s.draws := rfl
@[simp] theorem finish_turns : s.finish.turns = s.turns := rfl

@[simp] theorem takeDraws_par (n : Nat) : (s.takeDraws n).par = s.par := rfl
@[simp] theorem takeDraws_d (n : Nat) : (s.takeDraws n).d = s.d := rfl
@[simp] theorem takeDraws_cpc (n : Nat) : (s.takeDraws n).cpc = s.cpc := rfl
@[simp] theorem takeDraws_status (n : Nat) : (s.takeDraws n).status = s.status := rfl
@[simp] theorem takeDraws_err (n : Nat) : (s.takeDraws n).err = s.err := rfl
@[simp] theorem takeDraws_epc (n : Nat) : (s.takeDraws n).epc = s.epc := rfl
@[simp] theorem takeDraws_cm (n : Nat) : (s.takeDraws n).cm = s.cm := rfl
@[simp] theorem takeDraws_dm (n : Nat) : (s.takeDraws n).dm = s.dm := rfl
@[simp] theorem takeDraws_boot (n : Nat) : (s.takeDraws n).boot = s.boot := rfl
@[simp] theorem takeDraws_draws (n : Nat) : (s.takeDraws n).draws = s.draws + n := rfl
@[simp] theorem takeDraws_turns (n : Nat) : (s.takeDraws n).turns = s.turns := rfl

@[simp] theorem raise_par (f : FaultCode) : (s.raise f).par = s.par := rfl
@[simp] theorem raise_d (f : FaultCode) : (s.raise f).d = s.d := rfl
@[simp] theorem raise_cpc (f : FaultCode) : (s.raise f).cpc = s.cpc := rfl
@[simp] theorem raise_status (f : FaultCode) : (s.raise f).status = RunState.err := rfl
@[simp] theorem raise_err (f : FaultCode) : (s.raise f).err = f := rfl
@[simp] theorem raise_epc (f : FaultCode) : (s.raise f).epc = s.cpc := rfl
@[simp] theorem raise_cm (f : FaultCode) : (s.raise f).cm = s.cm := rfl
@[simp] theorem raise_dm (f : FaultCode) : (s.raise f).dm = s.dm := rfl
@[simp] theorem raise_boot (f : FaultCode) : (s.raise f).boot = s.boot := rfl
@[simp] theorem raise_draws (f : FaultCode) : (s.raise f).draws = s.draws := rfl
@[simp] theorem raise_turns (f : FaultCode) : (s.raise f).turns = s.turns := rfl

@[simp] theorem clearRegs_par : s.clearRegs.par = s.par := rfl
@[simp] theorem clearRegs_d : s.clearRegs.d = Desc.zero := rfl
@[simp] theorem clearRegs_cpc : s.clearRegs.cpc = 0 := rfl
@[simp] theorem clearRegs_status : s.clearRegs.status = s.status := rfl
@[simp] theorem clearRegs_err : s.clearRegs.err = FaultCode.none := rfl
@[simp] theorem clearRegs_epc : s.clearRegs.epc = 0 := rfl
@[simp] theorem clearRegs_cm : s.clearRegs.cm = s.cm := rfl
@[simp] theorem clearRegs_dm : s.clearRegs.dm = s.dm := rfl
@[simp] theorem clearRegs_boot : s.clearRegs.boot = s.boot := rfl
@[simp] theorem clearRegs_draws : s.clearRegs.draws = s.draws := rfl
@[simp] theorem clearRegs_turns : s.clearRegs.turns = s.turns := rfl

@[simp] theorem powerOn_par : s.powerOn.par = s.par := rfl
@[simp] theorem powerOn_d : s.powerOn.d = Desc.zero := rfl
@[simp] theorem powerOn_cpc : s.powerOn.cpc = 0 := rfl
@[simp] theorem powerOn_status : s.powerOn.status = RunState.idle := rfl
@[simp] theorem powerOn_err : s.powerOn.err = FaultCode.none := rfl
@[simp] theorem powerOn_epc : s.powerOn.epc = 0 := rfl
@[simp] theorem powerOn_cm : s.powerOn.cm = [] := rfl
@[simp] theorem powerOn_dm : s.powerOn.dm = [] := rfl
@[simp] theorem powerOn_boot : s.powerOn.boot = s.boot + 1 := rfl
@[simp] theorem powerOn_draws : s.powerOn.draws = s.draws := rfl
@[simp] theorem powerOn_turns : s.powerOn.turns = s.turns := rfl

/-! ### Reads of memory through updates that leave it alone -/

@[simp] theorem storeWord_cell (i : Nat) (w : Word) (a : Nat) : (s.storeWord i w).cell a = s.cell a := rfl
@[simp] theorem writeCells_word (ws : List (Nat × Cell)) (i : Nat) : (s.writeCells ws).word i = s.word i := rfl
@[simp] theorem setReg_cell (r : Reg) (v : BitVec 24) (a : Nat) : (s.setReg r v).cell a = s.cell a := rfl
@[simp] theorem setReg_word (r : Reg) (v : BitVec 24) (i : Nat) : (s.setReg r v).word i = s.word i := rfl
@[simp] theorem advance_cell (a : Nat) : s.advance.cell a = s.cell a := rfl
@[simp] theorem advance_word (i : Nat) : s.advance.word i = s.word i := rfl
@[simp] theorem finish_cell (a : Nat) : s.finish.cell a = s.cell a := rfl
@[simp] theorem finish_word (i : Nat) : s.finish.word i = s.word i := rfl
@[simp] theorem takeDraws_cell (n : Nat) (a : Nat) : (s.takeDraws n).cell a = s.cell a := rfl
@[simp] theorem takeDraws_word (n : Nat) (i : Nat) : (s.takeDraws n).word i = s.word i := rfl
@[simp] theorem raise_cell (f : FaultCode) (a : Nat) : (s.raise f).cell a = s.cell a := rfl
@[simp] theorem raise_word (f : FaultCode) (i : Nat) : (s.raise f).word i = s.word i := rfl
@[simp] theorem clearRegs_cell (a : Nat) : s.clearRegs.cell a = s.cell a := rfl
@[simp] theorem clearRegs_word (i : Nat) : s.clearRegs.word i = s.word i := rfl

/-! ### Descriptor registers -/

/-- A register reads back what was written. -/
@[simp] theorem desc_get_set_same (d : Desc) (r : Reg) (v : BitVec 24) : (d.set r v).get r = v := by
  cases r <;> rfl

/-- A write leaves the other six registers alone. -/
theorem desc_get_set_other (d : Desc) (r r' : Reg) (v : BitVec 24) (h : r' ≠ r) :
    (d.set r v).get r' = d.get r' := by
  cases r <;> cases r' <;> first | rfl | exact absurd rfl h

/-- Two descriptor files that read alike are equal. -/
theorem desc_ext (d d' : Desc) (h : ∀ r, d.get r = d'.get r) : d = d' := by
  have h0 := h .SRC
  have h1 := h .SSTR
  have h2 := h .DST
  have h3 := h .DSTR
  have h4 := h .LEN
  have h5 := h .SPITCH
  have h6 := h .DPITCH
  cases d
  cases d'
  simp only [Desc.get] at h0 h1 h2 h3 h4 h5 h6
  subst h0 h1 h2 h3 h4 h5 h6
  rfl

@[simp] theorem desc_zero_get (r : Reg) : Desc.zero.get r = 0 := by cases r <;> rfl

end Sys2Proof.Laws
end

