-- ==== Sys2Proof/Laws/Exec.lean ====
section
/-! SUPPORT. What the shape of a command can do, said once: a fault with no other effect, or the effect and the advance
of `cpc` (`10_state.md` R26, `60_exceptions.md` R227, R228). -/

namespace Sys2Proof.Laws

open Sys2Proof.Machine

/-! ### The first fault of a list of checks -/

@[simp] theorem firstFault_nil : firstFault [] = none := rfl

@[simp] theorem firstFault_some (f : FaultCode) (rest : List (Option FaultCode)) :
    firstFault (some f :: rest) = some f := rfl

@[simp] theorem firstFault_none (rest : List (Option FaultCode)) :
    firstFault (none :: rest) = firstFault rest := rfl

/-- No check fails exactly when each one passes. -/
theorem firstFault_eq_none (cs : List (Option FaultCode)) : firstFault cs = none ↔ ∀ c ∈ cs, c = none := by
  induction cs with
  | nil => simp
  | cons c cs ih => cases c <;> simp [ih]

/-! ### A guarded command -/

theorem guarded_fault {cs : List (Option FaultCode)} {f : FaultCode} (eff : State → State) (s : State)
    (h : firstFault cs = some f) : guarded cs eff s = .next (s.raise f) := by
  simp [guarded, h]

theorem guarded_pass {cs : List (Option FaultCode)} (eff : State → State) (s : State)
    (h : firstFault cs = none) : guarded cs eff s = .next (eff s).advance := by
  simp [guarded, h]

/-- A guarded command always answers a next state, one of two. -/
theorem guarded_cases {cs : List (Option FaultCode)} {eff : State → State} {s : State}
    {o : Host.Outcome State Fault Refusal} (h : guarded cs eff s = o) :
    (∃ f, firstFault cs = some f ∧ o = .next (s.raise f)) ∨
      (firstFault cs = none ∧ o = .next (eff s).advance) := by
  subst h
  cases hf : firstFault cs with
  | some f => exact .inl ⟨f, rfl, guarded_fault eff s hf⟩
  | none => exact .inr ⟨rfl, guarded_pass eff s hf⟩

/-! ### The checks -/

theorem orderCheck_eq_none (par : Params) (m : Nat) : orderCheck par m = none ↔ m ≤ par.mmax := by
  simp [orderCheck]

theorem orderCheck_some (par : Params) (m : Nat) (h : par.mmax < m) : orderCheck par m = some .order := by
  simp [orderCheck, h]

theorem sizeCheck_eq_none (d : Desc) (m : Nat) : sizeCheck d m = none ↔ d.len.toNat ≤ 2^m := by
  simp [sizeCheck]

theorem sizeCheck_some (d : Desc) (m : Nat) (h : 2^m < d.len.toNat) : sizeCheck d m = some .size := by
  simp [sizeCheck, h]

theorem addrCheck_eq_none (v : Bool) : addrCheck v = none ↔ v = true := by
  cases v <;> simp [addrCheck]

@[simp] theorem addrCheck_true : addrCheck true = none := rfl

@[simp] theorem addrCheck_false : addrCheck false = some .addr := rfl

end Sys2Proof.Laws
end

