-- ==== Sys2Proof/Laws/Operands.lean ====
section
/-! SUPPORT. The operand checks say what they stand for: every address of the operand is valid (`60_exceptions.md` R226,
whose reduction to the last element is proved here), and the writes of a command land in its destination set. -/

namespace Sys2Proof.Laws

open Sys2Proof.Machine

/-! ### The last element decides -/

/-- A vector `base + j·stride` lies below a bound when its last element does. -/
theorem lastElem_bounds (base stride n bound : Nat) :
    (n = 0 ∨ base + (n - 1) * stride < bound) ↔ ∀ j < n, base + j * stride < bound := by
  constructor
  · rintro (rfl | h) j hj
    · omega
    · exact lt_of_le_of_lt (Nat.add_le_add_left (Nat.mul_le_mul_right _ (by omega)) _) h
  · intro h
    rcases Nat.eq_zero_or_pos n with rfl | hn
    · exact .inl rfl
    · exact .inr (h (n - 1) (by omega))

/-- A matrix `base + r·pitch + c·stride` lies below a bound when its last element does. -/
theorem lastEntry_bounds (base pitch stride n bound : Nat) :
    (n = 0 ∨ base + (n - 1) * pitch + (n - 1) * stride < bound) ↔
      ∀ r < n, ∀ c < n, base + r * pitch + c * stride < bound := by
  constructor
  · rintro (rfl | h) r hr c hc
    · omega
    · have hp : r * pitch ≤ (n - 1) * pitch := Nat.mul_le_mul_right _ (by omega)
      have hs : c * stride ≤ (n - 1) * stride := Nat.mul_le_mul_right _ (by omega)
      omega
  · intro h
    rcases Nat.eq_zero_or_pos n with rfl | hn
    · exact .inl rfl
    · exact .inr (h (n - 1) (by omega) (n - 1) (by omega))

theorem srcVecValid_iff (par : Params) (d : Desc) (n : Nat) :
    srcVecValid par d n = true ↔ ∀ j < n, d.srcElem j < par.dmCells := by
  rw [srcVecValid, Bool.or_eq_true, beq_iff_eq, decide_eq_true_iff]
  exact lastElem_bounds d.src.toNat d.sstr.toNat n par.dmCells

theorem dstVecValid_iff (par : Params) (d : Desc) (n : Nat) :
    dstVecValid par d n = true ↔ ∀ j < n, d.dstElem j < par.dmCells := by
  rw [dstVecValid, Bool.or_eq_true, beq_iff_eq, decide_eq_true_iff]
  exact lastElem_bounds d.dst.toNat d.dstr.toNat n par.dmCells

theorem srcMatValid_iff (par : Params) (d : Desc) (n : Nat) :
    srcMatValid par d n = true ↔ ∀ r < n, ∀ c < n, d.srcAt r c < par.dmCells := by
  rw [srcMatValid, Bool.or_eq_true, beq_iff_eq, decide_eq_true_iff]
  exact lastEntry_bounds d.src.toNat d.spitch.toNat d.sstr.toNat n par.dmCells

theorem dstMatValid_iff (par : Params) (d : Desc) (n : Nat) :
    dstMatValid par d n = true ↔ ∀ r < n, ∀ c < n, d.dstAt r c < par.dmCells := by
  rw [dstMatValid, Bool.or_eq_true, beq_iff_eq, decide_eq_true_iff]
  exact lastEntry_bounds d.dst.toNat d.dpitch.toNat d.dstr.toNat n par.dmCells

/-! ### Footprints -/

@[simp] theorem mem_vecSet (elem : Nat → Nat) (n a : Nat) : a ∈ vecSet elem n ↔ ∃ j < n, elem j = a := by
  simp [vecSet]

@[simp] theorem mem_matSet (at_ : Nat → Nat → Nat) (n a : Nat) :
    a ∈ matSet at_ n ↔ ∃ r < n, ∃ c < n, at_ r c = a := by
  simp [matSet]

/-! ### The writes of the shared operations -/

@[simp] theorem cplxWrites_length (T : Tier) (n : Nat) (addr : Nat → Nat) (zs : List (Cplx T.num.R)) :
    (cplxWrites T n addr zs).length = zs.length := by
  simp [cplxWrites]

/-- Write number `k` of a complex vector. -/
theorem cplxWrites_getElem (T : Tier) (n : Nat) (addr : Nat → Nat) (zs : List (Cplx T.num.R)) (k : Nat)
    (hk : k < (cplxWrites T n addr zs).length) :
    (cplxWrites T n addr zs)[k] = (addr k, T.store (n + 2 * k) (zs[k]'(by simpa using hk))) := by
  simp [cplxWrites]

theorem mem_cplxWrites_addr (T : Tier) (n : Nat) (addr : Nat → Nat) (zs : List (Cplx T.num.R)) (p : Nat × T.C)
    (hp : p ∈ cplxWrites T n addr zs) : ∃ k < zs.length, p.1 = addr k := by
  obtain ⟨k, hk, rfl⟩ := List.getElem_of_mem hp
  exact ⟨k, by simpa using hk, by rw [cplxWrites_getElem]⟩

@[simp] theorem paddedInput_length (T : Tier) (ty : ElemTy) (m : Nat) (d : Desc) (read : Nat → T.C) :
    (paddedInput T ty m d read).length = 2^m := by
  simp [paddedInput]

/-! ### The views of a cell -/

@[simp] theorem halfBits_of_not_nan (n : Nat) (x : F64) (h : F64.isNaN x = false) : halfBits n x = x := by
  simp [halfBits, h]

/-- The two halves of a written cell (`10_state.md` R31). -/
theorem cplxOf_cellOf (n : Nat) (z : Cplx F64) :
    cplxOf (cellOf n z) = { re := halfBits n z.re, im := halfBits (n + 1) z.im } := by
  simp only [cplxOf, cellOf, Cplx.mk.injEq]
  constructor
  · exact BitVec.extractLsb'_append_eq_right
  · exact BitVec.extractLsb'_append_eq_left

end Sys2Proof.Laws
end

