-- ==== Sys2Proof/Laws/Engine.lean ====
section
/-! SUPPORT. The radix-2 network element by element: what one butterfly, one group and one stage do to each element of
the working buffer (`42_fft.md` R135). -/

namespace Sys2Proof.Laws

open Sys2Proof.Machine

variable (num : Numerics)

@[simp] theorem loadReversed_length (m : Nat) (x : List (Cplx num.R)) : (loadReversed num m x).length = 2^m := by
  simp [loadReversed]

theorem loadReversed_getD (m : Nat) (x : List (Cplx num.R)) (j : Nat) (hj : j < 2^m) :
    (loadReversed num m x).getD j num.czero = x.getD (rev m j) num.czero := by
  simp [loadReversed, List.getD, hj]

/-! ### One butterfly -/

@[simp] theorem butterflyAt_length (w : Cplx num.R) (p q : Nat) (wb : List (Cplx num.R)) :
    (butterflyAt num w p q wb).length = wb.length := by
  simp [butterflyAt]

/-- Element `x` after the butterfly on `p` and `q`. -/
theorem butterflyAt_getD (w : Cplx num.R) (p q x : Nat) (wb : List (Cplx num.R)) (hp : p < wb.length)
    (hq : q < wb.length) (hpq : p ≠ q) :
    (butterflyAt num w p q wb).getD x num.czero =
      if x = p then (num.bfly (wb.getD p num.czero) (wb.getD q num.czero) w).1
      else if x = q then (num.bfly (wb.getD p num.czero) (wb.getD q num.czero) w).2
      else wb.getD x num.czero := by
  simp only [butterflyAt, List.getD, List.getElem?_set, List.length_set]
  by_cases h1 : q = x
  · subst h1
    simp [hq, Ne.symm hpq]
  · by_cases h2 : p = x
    · subst h2
      simp [h1, hp]
    · simp [h1, h2, Ne.symm h1, Ne.symm h2]

/-! ### One group -/

/-- The butterflies of a group up to position `k`, from any buffer. -/
theorem groupFold_spec (tw : Nat → Cplx num.R) (base half : Nat) (wb : List (Cplx num.R))
    (hlen : base + 2 * half ≤ wb.length) (k : Nat) (hk : k ≤ half) :
    let out := (List.range k).foldl
      (fun wb (i : Nat) => butterflyAt num (tw i) (base + i) (base + i + half) wb) wb
    out.length = wb.length ∧ ∀ x, out.getD x num.czero =
      if base ≤ x ∧ x < base + k then
        (num.bfly (wb.getD x num.czero) (wb.getD (x + half) num.czero) (tw (x - base))).1
      else if base + half ≤ x ∧ x < base + half + k then
        (num.bfly (wb.getD (x - half) num.czero) (wb.getD x num.czero) (tw (x - half - base))).2
      else wb.getD x num.czero := by
  induction k with
  | zero =>
    refine ⟨rfl, fun x => ?_⟩
    rw [if_neg (by omega), if_neg (by omega)]
    rfl
  | succ k ih =>
    obtain ⟨hl, hx⟩ := ih (by omega)
    simp only [List.range_succ, List.foldl_append, List.foldl_cons, List.foldl_nil]
    refine ⟨by simpa using hl, fun x => ?_⟩
    rw [butterflyAt_getD num _ _ _ _ _ (by omega) (by omega) (by omega)]
    rw [hx (base + k), hx (base + k + half), hx x]
    rw [if_neg (show ¬(base ≤ base + k ∧ base + k < base + k) by omega),
      if_neg (show ¬(base + half ≤ base + k ∧ base + k < base + half + k) by omega),
      if_neg (show ¬(base ≤ base + k + half ∧ base + k + half < base + k) by omega),
      if_neg (show ¬(base + half ≤ base + k + half ∧ base + k + half < base + half + k) by omega)]
    by_cases h1 : x = base + k
    · subst h1
      rw [if_pos rfl, if_pos (by omega), Nat.add_sub_cancel_left]
    · rw [if_neg h1]
      by_cases h2 : x = base + k + half
      · subst h2
        rw [if_pos rfl, if_neg (by omega), if_pos (by omega), Nat.add_sub_cancel, Nat.add_sub_cancel_left]
      · rw [if_neg h2]
        by_cases h3 : base ≤ x ∧ x < base + k
        · rw [if_pos h3, if_pos (by omega)]
        · rw [if_neg h3, if_neg (show ¬(base ≤ x ∧ x < base + (k + 1)) by omega)]
          by_cases h4 : base + half ≤ x ∧ x < base + half + k
          · rw [if_pos h4, if_pos (by omega)]
          · rw [if_neg h4, if_neg (by omega)]

theorem groupPass_length (sgn : Int) (m g : Nat) (wb : List (Cplx num.R))
    (h : (g + 1) * 2^(m + 1) ≤ wb.length) : (groupPass num sgn m g wb).length = wb.length := by
  have hp : 2^(m + 1) = 2 * 2^m := by rw [Nat.pow_succ, Nat.mul_comm]
  exact (groupFold_spec num (fun i => num.tw (m + 1) (sgn * i)) (g * 2^(m + 1)) (2^m) wb
    (by rw [Nat.add_mul, Nat.one_mul] at h; omega) (2^m) le_rfl).1

/-- Element `x` after the butterflies of group `g` of stage `m`. -/
theorem groupPass_getD (sgn : Int) (m g : Nat) (wb : List (Cplx num.R)) (h : (g + 1) * 2^(m + 1) ≤ wb.length)
    (x : Nat) :
    (groupPass num sgn m g wb).getD x num.czero =
      if g * 2^(m + 1) ≤ x ∧ x < g * 2^(m + 1) + 2^m then
        (num.bfly (wb.getD x num.czero) (wb.getD (x + 2^m) num.czero)
          (num.tw (m + 1) (sgn * (x - g * 2^(m + 1) : Nat)))).1
      else if g * 2^(m + 1) + 2^m ≤ x ∧ x < g * 2^(m + 1) + 2^m + 2^m then
        (num.bfly (wb.getD (x - 2^m) num.czero) (wb.getD x num.czero)
          (num.tw (m + 1) (sgn * (x - 2^m - g * 2^(m + 1) : Nat)))).2
      else wb.getD x num.czero := by
  have hp : 2^(m + 1) = 2 * 2^m := by rw [Nat.pow_succ, Nat.mul_comm]
  exact (groupFold_spec num (fun i => num.tw (m + 1) (sgn * i)) (g * 2^(m + 1)) (2^m) wb
    (by rw [Nat.add_mul, Nat.one_mul] at h; omega) (2^m) le_rfl).2 x

/-! ### One stage -/

/-- The first `k` groups of a stage: every element below `k` spans is the butterfly output of its own span, every other
is untouched. -/
theorem stageFold_spec (sgn : Int) (m : Nat) (wb : List (Cplx num.R)) (k : Nat) (hk : k * 2^(m + 1) ≤ wb.length) :
    let out := (List.range k).foldl (fun wb (g : Nat) => groupPass num sgn m g wb) wb
    out.length = wb.length ∧ ∀ x, out.getD x num.czero =
      if x < k * 2^(m + 1) then
        if x % 2^(m + 1) < 2^m then
          (num.bfly (wb.getD x num.czero) (wb.getD (x + 2^m) num.czero)
            (num.tw (m + 1) (sgn * (x % 2^(m + 1) : Nat)))).1
        else
          (num.bfly (wb.getD (x - 2^m) num.czero) (wb.getD x num.czero)
            (num.tw (m + 1) (sgn * (x % 2^(m + 1) - 2^m : Nat)))).2
      else wb.getD x num.czero := by
  have hp : 2^(m + 1) = 2 * 2^m := by rw [Nat.pow_succ, Nat.mul_comm]
  have hpos : 0 < 2^m := Nat.two_pow_pos m
  induction k with
  | zero => exact ⟨rfl, fun x => by simp⟩
  | succ k ih =>
    have hk' : k * 2^(m + 1) ≤ wb.length := le_trans (Nat.mul_le_mul_right _ (Nat.le_succ k)) hk
    obtain ⟨hl, hx⟩ := ih hk'
    simp only [List.range_succ, List.foldl_append, List.foldl_cons, List.foldl_nil]
    have hk2 : (k + 1) * 2^(m + 1) = k * 2^(m + 1) + 2^(m + 1) := by rw [Nat.add_mul, Nat.one_mul]
    refine ⟨by rw [groupPass_length num sgn m k _ (by rw [hl]; exact hk), hl], fun x => ?_⟩
    rw [groupPass_getD num sgn m k _ (by rw [hl]; exact hk) x]
    by_cases h1 : x < k * 2^(m + 1)
    · rw [if_neg (by omega), if_neg (by omega), hx x, if_pos h1,
        if_pos (show x < (k + 1) * 2^(m + 1) by omega)]
    · by_cases h2 : x < (k + 1) * 2^(m + 1)
      · have hmod : x % 2^(m + 1) = x - k * 2^(m + 1) := by
          have hxk : x = (x - k * 2^(m + 1)) + k * 2^(m + 1) := by omega
          conv_lhs => rw [hxk]
          rw [Nat.add_mul_mod_self_right, Nat.mod_eq_of_lt (by omega)]
        rw [if_pos h2, hmod]
        by_cases h3 : x < k * 2^(m + 1) + 2^m
        · rw [if_pos ⟨by omega, h3⟩, if_pos (by omega), hx x, hx (x + 2^m), if_neg h1, if_neg (by omega)]
        · rw [if_neg (by omega), if_pos ⟨by omega, by omega⟩, if_neg (by omega), hx x, hx (x - 2^m), if_neg h1,
            if_neg (by omega)]
          have : x - 2^m - k * 2^(m + 1) = x - k * 2^(m + 1) - 2^m := by omega
          rw [this]
      · rw [if_neg h2, if_neg (by omega), if_neg (by omega), hx x, if_neg h1]

/-- A stage keeps the length of the buffer. -/
theorem stagePass_length (sgn : Int) (bigM m : Nat) (wb : List (Cplx num.R))
    (h : wb.length = 2^bigM) : (stagePass num sgn bigM m wb).length = 2^bigM := by
  have hk : 2^bigM / 2^(m + 1) * 2^(m + 1) ≤ wb.length := by rw [h]; exact Nat.div_mul_le_self _ _
  rw [← h]
  exact (stageFold_spec num sgn m wb _ hk).1

/-- Element `x` after stage `m` (`42_fft.md` R135). -/
theorem stagePass_getD (sgn : Int) (bigM m : Nat) (hm : m < bigM) (wb : List (Cplx num.R))
    (h : wb.length = 2^bigM) (x : Nat) (hx : x < 2^bigM) :
    (stagePass num sgn bigM m wb).getD x num.czero =
      if x % 2^(m + 1) < 2^m then
        (num.bfly (wb.getD x num.czero) (wb.getD (x + 2^m) num.czero)
          (num.tw (m + 1) (sgn * (x % 2^(m + 1) : Nat)))).1
      else
        (num.bfly (wb.getD (x - 2^m) num.czero) (wb.getD x num.czero)
          (num.tw (m + 1) (sgn * (x % 2^(m + 1) - 2^m : Nat)))).2 := by
  have hdvd : 2^(m + 1) ∣ 2^bigM := pow_dvd_pow 2 hm
  have hk : 2^bigM / 2^(m + 1) * 2^(m + 1) = 2^bigM := Nat.div_mul_cancel hdvd
  have := (stageFold_spec num sgn m wb (2^bigM / 2^(m + 1)) (by rw [hk, h])).2 x
  rw [hk, if_pos hx] at this
  exact this

/-- The first `k` stages keep the length of the buffer. -/
theorem stageSteps_length (sgn : Int) (bigM : Nat) (wb : List (Cplx num.R)) (h : wb.length = 2^bigM) (k : Nat)
    (hk : k ≤ bigM) :
    ((List.range k).foldl (fun wb m => stagePass num sgn bigM m wb) wb).length = 2^bigM := by
  induction k with
  | zero => simpa using h
  | succ k ih =>
    rw [List.range_succ, List.foldl_append]
    exact stagePass_length num sgn bigM k _ (ih (by omega))

@[simp] theorem forward_length (m : Nat) (x : List (Cplx num.R)) : (forward num m x).length = 2^m :=
  stageSteps_length num 1 m _ (loadReversed_length num m x) m le_rfl

@[simp] theorem inverse_length (m : Nat) (x : List (Cplx num.R)) : (inverse num m x).length = 2^m := by
  rw [inverse, List.length_map]
  exact stageSteps_length num (-1) m _ (loadReversed_length num m x) m le_rfl

end Sys2Proof.Laws
end

