-- ==== Sys2Proof/Laws/Step.lean ====
section
/-! SUPPORT. What a command can do, said once: the checks of every meaning are the table of `faultOf`
(`60_exceptions.md` R227), and a command raises that fault, or ends the program, or writes cells of its destination set and
advances (`10_state.md` R26). -/

namespace Sys2Proof.Laws

open Sys2Proof.Machine

/-! ### The checks of every meaning -/

/-- The checks of a command, in order, as its meaning states them. -/
def checksOf (i : Instr) (par : Params) (d : Desc) : List (Option FaultCode) :=
  match i with
  | .halt => []
  | .setd _ _ => []
  | .brtab m => [orderCheck par m, addrCheck (dstVecValid par d (2^m))]
  | .brperm m => [orderCheck par m, addrCheck (srcVecValid par d (2^m) && dstVecValid par d (2^m))]
  | .bflyF e _ => bflyChecks par d e
  | .bflyI e _ => bflyChecks par d e
  | .fftB m => transformChecks par d m
  | .fftI m => transformChecks par d m
  | .fftC m => transformChecks par d m
  | .ifft m => transformChecks par d m
  | .qshift m => [orderCheck par m, addrCheck (srcMatValid par d (2^m) && dstMatValid par d (2^m))]

theorem vecSet_any (elem : Nat → Nat) (n bound : Nat) :
    (vecSet elem n).any (fun a => bound ≤ a) = true ↔ ¬ ∀ j < n, elem j < bound := by
  simp [vecSet]

theorem matSet_any (at_ : Nat → Nat → Nat) (n bound : Nat) :
    (matSet at_ n).any (fun a => bound ≤ a) = true ↔ ¬ ∀ r < n, ∀ c < n, at_ r c < bound := by
  simp [matSet]

theorem order_then_addr (par : Params) (m : Nat) (v : Bool) (bad : Prop) [Decidable bad] (h : v = true ↔ ¬ bad) :
    firstFault [orderCheck par m, addrCheck v] =
      if par.mmax < m then some .order else if bad then some .addr else none := by
  by_cases h1 : par.mmax < m
  · rw [orderCheck_some par m h1, if_pos h1]; rfl
  rw [(orderCheck_eq_none par m).2 (by omega), if_neg h1]
  by_cases h3 : bad
  · have : v = false := by simpa using mt h.1 (not_not.2 h3)
    rw [if_pos h3, this]; rfl
  · rw [if_neg h3, h.2 h3]; rfl

theorem order_size_addr (par : Params) (d : Desc) (m : Nat) (v : Bool) (bad : Prop) [Decidable bad]
    (h : v = true ↔ ¬ bad) :
    firstFault [orderCheck par m, sizeCheck d m, addrCheck v] =
      if par.mmax < m then some .order else if 2^m < d.len.toNat then some .size else if bad then some .addr else none := by
  by_cases h1 : par.mmax < m
  · rw [orderCheck_some par m h1, if_pos h1]; rfl
  rw [(orderCheck_eq_none par m).2 (by omega), if_neg h1]
  by_cases h2 : 2^m < d.len.toNat
  · rw [sizeCheck_some d m h2, if_pos h2]; rfl
  rw [(sizeCheck_eq_none d m).2 (by omega), if_neg h2]
  by_cases h3 : bad
  · have : v = false := by simpa using mt h.1 (not_not.2 h3)
    rw [if_pos h3, this]; rfl
  · rw [if_neg h3, h.2 h3]; rfl

/-- The meanings' checks are the table of R227. -/
theorem firstFault_checksOf (i : Instr) (par : Params) (d : Desc) : firstFault (checksOf i par d) = faultOf i par d := by
  cases i with
  | halt => simp [checksOf, faultOf, orderField, readsLen, srcSet, dstSet]
  | setd rd imm => simp [checksOf, faultOf, orderField, readsLen, srcSet, dstSet]
  | brtab m =>
    simp only [checksOf, faultOf, orderField, readsLen, srcSet, dstSet, Bool.false_eq_true, false_and, if_false,
      List.any_nil, false_or]
    exact order_then_addr _ _ _ _ (by rw [vecSet_any, not_not, dstVecValid_iff])
  | brperm m =>
    simp only [checksOf, faultOf, orderField, readsLen, srcSet, dstSet, Bool.false_eq_true, false_and, if_false]
    exact order_then_addr _ _ _ _ (by
      rw [vecSet_any, vecSet_any, Bool.and_eq_true, srcVecValid_iff, dstVecValid_iff]; tauto)
  | bflyF e k =>
    simp only [checksOf, bflyChecks, faultOf, orderField, readsLen, srcSet, dstSet, Bool.false_eq_true, false_and,
      if_false]
    exact order_then_addr _ _ _ _ (by
      rw [vecSet_any, vecSet_any, Bool.and_eq_true, srcVecValid_iff, dstVecValid_iff]; tauto)
  | bflyI e k =>
    simp only [checksOf, bflyChecks, faultOf, orderField, readsLen, srcSet, dstSet, Bool.false_eq_true, false_and,
      if_false]
    exact order_then_addr _ _ _ _ (by
      rw [vecSet_any, vecSet_any, Bool.and_eq_true, srcVecValid_iff, dstVecValid_iff]; tauto)
  | fftB m =>
    simp only [checksOf, transformChecks, faultOf, orderField, readsLen, srcSet, dstSet, true_and]
    exact order_size_addr _ _ _ _ _ (by
      rw [vecSet_any, vecSet_any, Bool.and_eq_true, srcVecValid_iff, dstVecValid_iff]; tauto)
  | fftI m =>
    simp only [checksOf, transformChecks, faultOf, orderField, readsLen, srcSet, dstSet, true_and]
    exact order_size_addr _ _ _ _ _ (by
      rw [vecSet_any, vecSet_any, Bool.and_eq_true, srcVecValid_iff, dstVecValid_iff]; tauto)
  | fftC m =>
    simp only [checksOf, transformChecks, faultOf, orderField, readsLen, srcSet, dstSet, true_and]
    exact order_size_addr _ _ _ _ _ (by
      rw [vecSet_any, vecSet_any, Bool.and_eq_true, srcVecValid_iff, dstVecValid_iff]; tauto)
  | ifft m =>
    simp only [checksOf, transformChecks, faultOf, orderField, readsLen, srcSet, dstSet, true_and]
    exact order_size_addr _ _ _ _ _ (by
      rw [vecSet_any, vecSet_any, Bool.and_eq_true, srcVecValid_iff, dstVecValid_iff]; tauto)
  | qshift m =>
    simp only [checksOf, faultOf, orderField, readsLen, srcSet, dstSet, Bool.false_eq_true, false_and, if_false]
    exact order_then_addr _ _ _ _ (by
      rw [matSet_any, matSet_any, Bool.and_eq_true, srcMatValid_iff, dstMatValid_iff]; tauto)

/-- The faults of a decoded command are three of the block's. -/
theorem faultOf_cases {i : Instr} {par : Params} {d : Desc} {f : FaultCode} (h : faultOf i par d = some f) :
    f = .order ∨ f = .size ∨ f = .addr := by
  unfold faultOf at h
  split_ifs at h <;> simp_all

/-! ### The effect of every meaning -/

/-- The state after a command other than `HALT` that has passed its checks. -/
def completed (i : Instr) (s : State) : State :=
  { s with
    d := descAfter i s.d
    cpc := s.cpc + 1
    dm := Memory.writeAll s.dm (writesOf f64Tier i s.d s.cell s.draws)
    draws := s.draws + drawsOf i }

/-- What a command does, whole. -/
theorem exec_eq (i : Instr) (s : State) :
    exec i s = .next
      (match faultOf i s.par s.d with
       | some f => s.raise f
       | none => if i = .halt then s.finish else completed i s) := by
  rw [← firstFault_checksOf]
  cases i with
  | halt => rfl
  | setd rd imm => rfl
  | brtab m =>
    simp only [exec, execBrtab, guarded, checksOf]
    cases firstFault [orderCheck s.par m, addrCheck (dstVecValid s.par s.d (2^m))] <;> rfl
  | brperm m =>
    simp only [exec, execBrperm, guarded, checksOf]
    cases firstFault [orderCheck s.par m, addrCheck (srcVecValid s.par s.d (2^m) && dstVecValid s.par s.d (2^m))] <;> rfl
  | bflyF e k =>
    simp only [exec, execBflyF, guarded, checksOf]
    cases firstFault (bflyChecks s.par s.d e) <;> rfl
  | bflyI e k =>
    simp only [exec, execBflyI, guarded, checksOf]
    cases firstFault (bflyChecks s.par s.d e) <;> rfl
  | fftB m =>
    simp only [exec, execFftB, guarded, checksOf]
    cases firstFault (transformChecks s.par s.d m) with
    | some f => rfl
    | none => rfl
  | fftI m =>
    simp only [exec, execFftI, guarded, checksOf]
    cases firstFault (transformChecks s.par s.d m) with
    | some f => rfl
    | none => rfl
  | fftC m =>
    simp only [exec, execFftC, guarded, checksOf]
    cases firstFault (transformChecks s.par s.d m) with
    | some f => rfl
    | none => rfl
  | ifft m =>
    simp only [exec, execIfft, guarded, checksOf]
    cases firstFault (transformChecks s.par s.d m) with
    | some f => rfl
    | none => rfl
  | qshift m =>
    simp only [exec, execQshift, guarded, checksOf]
    cases firstFault [orderCheck s.par m, addrCheck (srcMatValid s.par s.d (2^m) && dstMatValid s.par s.d (2^m))] <;> rfl

/-- The three ends of a command. -/
theorem exec_cases {i : Instr} {s t : State} (h : exec i s = .next t) :
    (∃ f, faultOf i s.par s.d = some f ∧ t = s.raise f) ∨
    (i = .halt ∧ t = s.finish) ∨
    (faultOf i s.par s.d = none ∧ i ≠ .halt ∧ t = completed i s) := by
  rw [exec_eq] at h
  cases hf : faultOf i s.par s.d with
  | some f => exact .inl ⟨f, rfl, by simpa [hf] using h.symm⟩
  | none =>
    rw [hf] at h
    by_cases hi : i = .halt
    · exact .inr (.inl ⟨hi, by simpa [hi] using h.symm⟩)
    · exact .inr (.inr ⟨rfl, hi, by simpa [hi] using h.symm⟩)

/-- A command writes cells of its destination set alone, in any tier. -/
theorem writesOf_addr {T : Tier} {i : Instr} {d : Desc} {read : Nat → T.C} {n : Nat} {p : Nat × T.C}
    (h : p ∈ writesOf T i d read n) : p.1 ∈ dstSet i d := by
  cases i with
  | halt => simp [writesOf] at h
  | setd rd imm => simp [writesOf] at h
  | brtab m =>
    simp only [writesOf, brtabWrites, List.mem_map, List.mem_range] at h
    obtain ⟨j, hj, rfl⟩ := h
    exact (mem_vecSet _ _ _).2 ⟨j, hj, rfl⟩
  | brperm m =>
    simp only [writesOf, brpermWrites, List.mem_map, List.mem_range] at h
    obtain ⟨j, hj, rfl⟩ := h
    exact (mem_vecSet _ _ _).2 ⟨j, hj, rfl⟩
  | bflyF e k =>
    obtain ⟨j, hj, h⟩ := mem_cplxWrites_addr _ _ _ _ _ h
    exact (mem_vecSet _ _ _).2 ⟨j, hj, h.symm⟩
  | bflyI e k =>
    obtain ⟨j, hj, h⟩ := mem_cplxWrites_addr _ _ _ _ _ h
    exact (mem_vecSet _ _ _).2 ⟨j, hj, h.symm⟩
  | fftB m =>
    obtain ⟨j, hj, h⟩ := mem_cplxWrites_addr _ _ _ _ _ h
    exact (mem_vecSet _ _ _).2 ⟨j, by rwa [forward_length] at hj, h.symm⟩
  | fftI m =>
    obtain ⟨j, hj, h⟩ := mem_cplxWrites_addr _ _ _ _ _ h
    exact (mem_vecSet _ _ _).2 ⟨j, by rwa [forward_length] at hj, h.symm⟩
  | fftC m =>
    obtain ⟨j, hj, h⟩ := mem_cplxWrites_addr _ _ _ _ _ h
    exact (mem_vecSet _ _ _).2 ⟨j, by rwa [forward_length] at hj, h.symm⟩
  | ifft m =>
    obtain ⟨j, hj, h⟩ := mem_cplxWrites_addr _ _ _ _ _ h
    exact (mem_vecSet _ _ _).2 ⟨j, by rwa [inverse_length] at hj, h.symm⟩
  | qshift m =>
    simp only [writesOf, qshiftWrites, List.mem_flatMap, List.mem_map, List.mem_range] at h
    obtain ⟨r, hr, c, hc, rfl⟩ := h
    exact (mem_matSet _ _ _).2 ⟨r, hr, c, hc, rfl⟩

/-- A command that has passed its checks has valid addresses only. -/
theorem valid_of_faultOf {i : Instr} {par : Params} {d : Desc} (h : faultOf i par d = none) (a : Nat)
    (ha : a ∈ srcSet i d ∨ a ∈ dstSet i d) : a < par.dmCells := by
  unfold faultOf at h
  split_ifs at h with h1 h2 h3
  simp only [List.any_eq_true, decide_eq_true_eq, not_or, not_exists, not_and, not_le] at h3
  rcases ha with ha | ha
  · exact h3.1 a ha
  · exact h3.2 a ha

/-! ### The sequencer's step -/

/-- The ends of a step of a running program (`10_state.md` R26). -/
theorem runStep_cases (s : State) :
    (s.par.cmWords ≤ s.cpc.toNat ∧ runStep s = .next (s.raise .fetch)) ∨
    (s.cpc.toNat < s.par.cmWords ∧
      ((∃ e, decode (s.word s.cpc.toNat) = .error e ∧ runStep s = .next (s.raise .illegal)) ∨
       (∃ i, decode (s.word s.cpc.toNat) = .ok i ∧ runStep s = exec i s))) := by
  unfold runStep State.fetch
  by_cases h : s.par.cmWords ≤ s.cpc.toNat
  · exact .inl ⟨h, by simp [h]⟩
  · refine .inr ⟨by omega, ?_⟩
    simp only [h, if_false]
    cases hd : decode (s.word s.cpc.toNat) with
    | error e => exact .inl ⟨e, rfl, rfl⟩
    | ok i => exact .inr ⟨i, rfl, rfl⟩

end Sys2Proof.Laws
end

