-- ==== Sys2Proof/Laws/Protocol.lean ====
section
/-! SUPPORT. The run protocol on the hardware, said once: outside a run the host's moves are plain writes and reads, a
straight-line program whose commands pass their checks runs to its HALT, and so a run of such a program ends in `DONE` with
what its commands leave (`70_reset_and_hazards.md` R253, `45_control.md` R175). -/

namespace Sys2Proof.Laws

open Sys2Proof.Machine

@[simp] theorem andThen_next {α β : Type} (x : α) (f : α → Host.Outcome β Fault Refusal) : andThen (.next x) f = f x := rfl

/-! ### The host's moves outside a run -/

theorem cmWrite_stopped (s : State) (hs : s.status ≠ .run) (i : Nat) (w : Word) (hi : i < s.par.cmWords) :
    cmWrite i w s = .next (s.storeWord i w) := by
  simp [cmWrite, State.cmOwned, hs, hi]

theorem dmWrite_stopped (s : State) (hs : s.status ≠ .run) (a : Nat) (c : Cell) (ha : a < s.par.dmCells) :
    dmWrite a c s = .next (s.writeCells [(a, c)]) := by
  simp [dmWrite, State.dmOwned, hs, ha]

theorem dmRead_stopped (s : State) (hs : s.status ≠ .run) (a : Nat) (ha : a < s.par.dmCells) :
    dmRead a s = .next (some (s.cell a)) := by
  simp [dmRead, State.dmOwned, hs, ha]

/-- Words written to `CM` in order. -/
def writeWords (ws : List (Nat × Word)) (s : State) : State := { s with cm := Memory.writeAll s.cm ws }

/-- The words of a program, from index `k` on. -/
def programWords (k : Nat) (prog : List Instr) : List (Nat × Word) := (prog.zipIdx k).map fun p => (p.2, encode p.1)

theorem loadProgram_from (prog : List Instr) (k : Nat) (s : State) (hs : s.status ≠ .run)
    (hlen : k + prog.length ≤ s.par.cmWords) :
    inOrder (fun p : Instr × Nat => cmWrite p.2 (encode p.1)) (prog.zipIdx k) s =
      .next (writeWords (programWords k prog) s) := by
  induction prog generalizing k s with
  | nil => rfl
  | cons i rest ih =>
    simp only [List.length_cons] at hlen
    simp only [List.zipIdx_cons, inOrder, cmWrite_stopped s hs k (encode i) (by omega), andThen_next]
    rw [ih (k + 1) (s.storeWord k (encode i)) hs (by simp only [storeWord_par]; omega)]
    rfl

/-- Loading a program that `CM` holds. -/
theorem loadProgram_stopped (prog : List Instr) (s : State) (hs : s.status ≠ .run)
    (hlen : prog.length ≤ s.par.cmWords) :
    loadProgram f64Port prog s = .next (writeWords (programWords 0 prog) s) :=
  loadProgram_from prog 0 s hs (by omega)

/-- Placing cells that `DM` has. -/
theorem placeCells_stopped (cells : List (Nat × Cell)) (s : State) (hs : s.status ≠ .run)
    (h : ∀ p ∈ cells, p.1 < s.par.dmCells) : placeCells f64Port cells s = .next (s.writeCells cells) := by
  induction cells generalizing s with
  | nil => rfl
  | cons p rest ih =>
    have hp := h p (by simp)
    have := ih (s.writeCells [p]) hs fun q hq => h q (by simp [hq])
    simp only [placeCells] at this ⊢
    rw [inOrder, dmWrite_stopped s hs p.1 p.2 hp, andThen_next, this]
    rfl

/-- Reading cells that `DM` has. -/
theorem readCells_stopped (s : State) (hs : s.status ≠ .run) (addrs : List Nat) (h : ∀ a ∈ addrs, a < s.par.dmCells) :
    readCells f64Port s addrs = .next (addrs.map s.cell) := by
  induction addrs with
  | nil => rfl
  | cons a rest ih =>
    simp only [readCells]
    rw [dmRead_stopped s hs a (h a (by simp)), andThen_next,
      ih fun b hb => h b (by simp [hb])]
    rfl

/-- Word `k + j` of a loaded program is the word of its command `j`. -/
theorem get?_programWords (m : Memory Word) (k : Nat) (prog : List Instr) (j : Nat) (hj : j < prog.length) :
    Memory.get? (Memory.writeAll m (programWords k prog)) (k + j) = some (encode prog[j]) := by
  have hlen : (programWords k prog).length = prog.length := by simp [programWords]
  have hget : ∀ (i : Nat) (hi : i < (programWords k prog).length),
      (programWords k prog)[i] = (k + i, encode (prog[i]'(by omega))) := by
    intro i hi; simp [programWords]
  have := get?_writeAll_last m (programWords k prog) j (by omega) fun i h1 h2 => by
    rw [hget i h2, hget j (by omega)]; simp; omega
  rwa [hget j (by omega)] at this

/-! ### A straight-line program -/

/-- The state after commands that all complete. -/
def runCommands (prog : List Instr) (s : State) : State := prog.foldl (fun s i => completed i s) s

@[simp] theorem runCommands_nil (s : State) : runCommands [] s = s := rfl

@[simp] theorem runCommands_cons (i : Instr) (rest : List Instr) (s : State) :
    runCommands (i :: rest) s = runCommands rest (completed i s) := rfl

theorem runCommands_append (p q : List Instr) (s : State) : runCommands (p ++ q) s = runCommands q (runCommands p s) := by
  simp [runCommands, List.foldl_append]

/-- Every command of a program passes its checks, and none is HALT. -/
def Passes : List Instr → State → Prop
  | [], _ => True
  | i :: rest, s => i ≠ .halt ∧ faultOf i s.par s.d = none ∧ Passes rest (completed i s)

theorem passes_append (p q : List Instr) (s : State) : Passes (p ++ q) s ↔ Passes p s ∧ Passes q (runCommands p s) := by
  induction p generalizing s with
  | nil => simp [Passes]
  | cons i rest ih => simp [Passes, ih, and_assoc]

@[simp] theorem completed_par (i : Instr) (s : State) : (completed i s).par = s.par := rfl
@[simp] theorem completed_d (i : Instr) (s : State) : (completed i s).d = descAfter i s.d := rfl
@[simp] theorem completed_cpc (i : Instr) (s : State) : (completed i s).cpc = s.cpc + 1 := rfl
@[simp] theorem completed_status (i : Instr) (s : State) : (completed i s).status = s.status := rfl
@[simp] theorem completed_cm (i : Instr) (s : State) : (completed i s).cm = s.cm := rfl
@[simp] theorem completed_draws (i : Instr) (s : State) : (completed i s).draws = s.draws + drawsOf i := rfl
@[simp] theorem completed_word (i : Instr) (s : State) (k : Nat) : (completed i s).word k = s.word k := rfl

@[simp] theorem runCommands_par (prog : List Instr) (s : State) : (runCommands prog s).par = s.par := by
  induction prog generalizing s with
  | nil => rfl
  | cons i rest ih => simp [ih]

@[simp] theorem runCommands_status (prog : List Instr) (s : State) : (runCommands prog s).status = s.status := by
  induction prog generalizing s with
  | nil => rfl
  | cons i rest ih => simp [ih]

/-- The sequencer's move on a command that passes its checks. -/
theorem move_completed (s : State) (i : Instr) (hs : s.status = .run) (hpc : s.cpc.toNat < s.par.cmWords)
    (hd : decode (s.word s.cpc.toNat) = .ok i) (hi : i ≠ .halt) (hf : faultOf i s.par s.d = none) :
    sequencerMove s = .next (completed i s) := by
  have hnot : ¬ s.par.cmWords ≤ s.cpc.toNat := by omega
  simp only [sequencerMove, hs, runStep, State.fetch, hnot, if_false, hd, exec_eq, hf, hi]

/-- The sequencer's move on HALT. -/
theorem move_halt (s : State) (hs : s.status = .run) (hpc : s.cpc.toNat < s.par.cmWords)
    (hd : decode (s.word s.cpc.toNat) = .ok .halt) : sequencerMove s = .next s.finish := by
  have hnot : ¬ s.par.cmWords ≤ s.cpc.toNat := by omega
  simp only [sequencerMove, hs, runStep, State.fetch, hnot, if_false, hd]
  rfl

theorem csrRead_status (s : State) : (s.csrRead 1).toNat = s.status.code := by
  rw [State.csrRead]; cases s.status <;> rfl

theorem code_inj (a b : RunState) : a.code = b.code ↔ a = b := by cases a <;> cases b <;> decide

/-- A program in `CM` from `cpc` on, whose commands pass their checks, runs to its HALT. -/
theorem wait_program (prog : List Instr) (s : State) (k : Nat) (hs : s.status = .run) (hcm : s.par.cmWords ≤ 65535)
    (hend : s.cpc.toNat + prog.length < s.par.cmWords) (hk : prog.length + 1 ≤ k)
    (hwords : ∀ (j : Nat) (hj : j < (prog ++ [Instr.halt]).length),
      decode (s.word (s.cpc.toNat + j)) = .ok ((prog ++ [Instr.halt])[j]))
    (hp : Passes prog s) : wait f64Port k s = .next (runCommands prog s).finish := by
  induction prog generalizing s k with
  | nil =>
    obtain ⟨k, rfl⟩ : ∃ k', k = k' + 1 := ⟨k - 1, by simp at hk; omega⟩
    have hd := hwords 0 (by simp)
    simp only [Nat.add_zero, List.nil_append, List.getElem_cons_zero] at hd
    simp only [List.length_nil, Nat.add_zero] at hend
    simp only [wait]
    rw [csrRead_status, hs, if_pos rfl, move_halt s hs hend hd, andThen_next]
    cases k with
    | zero => rfl
    | succ k =>
      simp only [wait]
      rw [csrRead_status, finish_status, if_neg (by decide)]
      rfl
  | cons i rest ih =>
    obtain ⟨k, rfl⟩ : ∃ k', k = k' + 1 := ⟨k - 1, by simp at hk; omega⟩
    obtain ⟨hi, hf, hrest⟩ := hp
    simp only [List.length_cons] at hend hk
    have hd := hwords 0 (by simp)
    simp only [Nat.add_zero, List.cons_append, List.getElem_cons_zero] at hd
    have hcpc : (s.cpc + 1).toNat = s.cpc.toNat + 1 := by
      rw [BitVec.toNat_add]; simp; omega
    simp only [wait]
    rw [csrRead_status, hs, if_pos rfl, move_completed s i hs (by omega) hd hi hf, andThen_next]
    refine ih (completed i s) k hs hcm ?_ (by omega) ?_ hrest
    · simp only [completed_cpc, completed_par, hcpc]; omega
    · intro j hj
      have := hwords (j + 1) (by simp at hj ⊢; omega)
      simp only [List.cons_append, List.getElem_cons_succ] at this
      rw [completed_word, completed_cpc, hcpc, ← this]
      congr 2; omega

/-! ### A run -/

/-- The state in which a program starts: loaded, its inputs placed, the registers clear (R251). -/
def started (s : State) (inputs : List (Nat × Cell)) (prog : List Instr) : State :=
  { s with
    d := Desc.zero, cpc := 0, status := .run, err := .none, epc := 0
    cm := Memory.writeAll s.cm (programWords 0 prog), dm := Memory.writeAll s.dm inputs }

/-- A run of a straight-line program whose commands pass their checks (R253): it ends in `DONE` and answers the cells its
commands leave. -/
theorem runProgram_done (inputs : List (Nat × Cell)) (prog : List Instr) (outputs : List Nat) (s : State)
    (hok : s.par.ok = true) (hs : s.status ≠ .run) (hin : ∀ p ∈ inputs, p.1 < s.par.dmCells)
    (hout : ∀ a ∈ outputs, a < s.par.dmCells) (hlen : prog.length < s.par.cmWords)
    (hdec : ∀ i ∈ prog, decode (encode i) = .ok i) (hp : Passes prog (started s inputs (prog ++ [.halt]))) :
    let t := (runCommands prog (started s inputs (prog ++ [.halt]))).finish
    runProgram f64Port inputs (prog ++ [.halt]) outputs s = .next (.ok (outputs.map t.cell), t) := by
  intro t
  have hrun : ¬ (s.csrRead 1).toNat = RunState.run.code := by
    rw [csrRead_status, code_inj]; exact hs
  have hcm : s.par.cmWords ≤ 65535 := by
    simp only [Params.ok, Bool.and_eq_true, decide_eq_true_eq] at hok; exact hok.2
  set s1 : State := if (s.csrRead 1).toNat = RunState.err.code then State.csrWrite 0 2 s else s with hs1
  have hs1par : s1.par = s.par := by
    rw [hs1]; split
    · show (State.csrWrite 0 2 s).par = s.par
      simp only [State.csrWrite, State.ctrlWrite]
      cases h : s.status <;> simp [State.clear, h]
    · rfl
  have hstart : ∀ (cm : Memory Word) (dm : Memory Cell),
      State.csrWrite 0 1 { s1 with cm := cm, dm := dm } =
        { s with d := Desc.zero, cpc := 0, status := .run, err := .none, epc := 0, cm := cm, dm := dm } := by
    intro cm dm
    rw [hs1, csrRead_status]
    cases h : s.status with
    | run => exact absurd h hs
    | idle =>
      simp [State.csrWrite, State.ctrlWrite, State.start, State.clearRegs, RunState.code, h]
    | done =>
      simp [State.csrWrite, State.ctrlWrite, State.start, State.clearRegs, RunState.code, h]
    | err =>
      simp [State.csrWrite, State.ctrlWrite, State.start, State.clear, State.clearRegs, RunState.code, h]
  have hs1status : s1.status ≠ .run := by
    rw [hs1, csrRead_status]
    cases h : s.status with
    | run => exact absurd h hs
    | idle => simp [RunState.code, h]
    | done => simp [RunState.code, h]
    | err => simp [State.csrWrite, State.ctrlWrite, State.clear, State.clearRegs, RunState.code, h]
  have hload := loadProgram_stopped (prog ++ [.halt]) s1 hs1status (by rw [hs1par]; simpa using hlen)
  have hplace := placeCells_stopped inputs (writeWords (programWords 0 (prog ++ [.halt])) s1) hs1status
    (by rw [show (writeWords _ s1).par = s1.par from rfl, hs1par]; exact hin)
  have hs1cm : s1.cm = s.cm ∧ s1.dm = s.dm := by
    rw [hs1]; split
    · show (State.csrWrite 0 2 s).cm = s.cm ∧ (State.csrWrite 0 2 s).dm = s.dm
      simp only [State.csrWrite, State.ctrlWrite]
      cases h : s.status <;> simp [State.clear, h]
    · exact ⟨rfl, rfl⟩
  have hstarted : State.csrWrite 0 1 ((writeWords (programWords 0 (prog ++ [.halt])) s1).writeCells inputs) =
      started s inputs (prog ++ [.halt]) := by
    have := hstart (Memory.writeAll s.cm (programWords 0 (prog ++ [.halt]))) (Memory.writeAll s.dm inputs)
    rw [started, ← this, ← hs1cm.1, ← hs1cm.2]
    rfl
  have hwait := wait_program prog (started s inputs (prog ++ [.halt])) (s.par.cmWords + 1) rfl hcm
    (by simpa [started] using hlen) (by omega)
    (by
      intro j hj
      have hw : (started s inputs (prog ++ [.halt])).word (0 + j) = encode ((prog ++ [.halt])[j]) := by
        simp only [State.word, started]
        rw [get?_programWords _ 0 _ j hj]
      rw [show (started s inputs (prog ++ [.halt])).cpc.toNat = 0 from rfl, hw]
      rcases List.mem_append.1 (List.getElem_mem hj) with h | h
      · exact hdec _ h
      · rw [List.mem_singleton.1 h]; decide)
    hp
  have htstatus : t.status = .done := rfl
  have htpar : t.par = s.par := by
    show (runCommands prog _).par = s.par
    rw [runCommands_par]; rfl
  have hread := readCells_stopped t (by rw [htstatus]; decide) outputs (by rw [htpar]; exact hout)
  unfold runProgram
  rw [if_neg hrun]
  simp only [← hs1, hload, andThen_next, hplace]
  rw [hstarted, hwait, andThen_next]
  rw [if_pos (show (t.csrRead 1).toNat = RunState.done.code by rw [csrRead_status, htstatus])]
  rw [hread, andThen_next]

end Sys2Proof.Laws
end

