-- ==== Sys2Proof/Laws/Expansion.lean ====
section
/-! SUPPORT. Running an expansion, in one run or several (`46_macros_2d.md` R180 (g)): where each group of commands sets the
registers it needs, only `DM` and the count of draws pass from group to group, and the call answers what the groups leave
there in order. -/

namespace Sys2Proof.Laws

open Sys2Proof.Machine

/-! ### Optional commands -/

theorem allSome_eq_some {α : Type} (xs : List (Option α)) (ys : List α) : allSome xs = some ys ↔ xs = ys.map some := by
  induction xs generalizing ys with
  | nil => cases ys <;> simp [allSome]
  | cons x xs ih =>
    cases x with
    | none => cases ys <;> simp [allSome]
    | some x =>
      simp only [allSome, Option.map_eq_some_iff, ih]
      constructor
      · rintro ⟨zs, rfl, rfl⟩; rfl
      · cases ys with
        | nil => simp
        | cons y ys =>
          simp only [List.map_cons, List.cons.injEq, Option.some.injEq]
          rintro ⟨rfl, rfl⟩; exact ⟨ys, rfl, rfl, rfl⟩

/-- A SETD exists exactly for a number below `2^24`, and sets it. -/
theorem setd_eq_some (r : Reg) (v : Nat) (i : Instr) : setd r v = some i ↔ v < 2^24 ∧ i = .setd r (BitVec.ofNat 24 v) := by
  unfold setd
  split_ifs with h
  · exact ⟨fun e => ⟨h, (Option.some.inj e).symm⟩, fun e => congrArg some e.2.symm⟩
  · exact ⟨fun e => by simp at e, fun e => absurd e.1 h⟩

theorem setd_toNat (v : Nat) (h : v < 2^24) : (BitVec.ofNat 24 v).toNat = v := by
  rw [BitVec.toNat_ofNat, Nat.mod_eq_of_lt h]

/-- What `SETD` leaves (`45_control.md` R171). -/
theorem completed_setd (r : Reg) (v : BitVec 24) (s : State) :
    completed (.setd r v) s = { s with d := s.d.set r v, cpc := s.cpc + 1 } := rfl

theorem faultOf_setd (r : Reg) (v : BitVec 24) (par : Params) (d : Desc) : faultOf (.setd r v) par d = none := by
  simp [faultOf, orderField, readsLen, srcSet, dstSet]

/-! ### Groups -/

/-- What passes from one run to the next: the cells of `DM` and the count of draws. -/
structure Data where
  dm : Memory Cell
  draws : Nat

/-- The data of a state. -/
def dataOf (s : State) : Data := { dm := s.dm, draws := s.draws }

/-- A group of commands that passes its checks and does `f` to the data, whatever the registers hold before. -/
def GroupDoes (par : Params) (boot : Nat) (g : List Instr) (f : Data → Data) : Prop :=
  ∀ s : State, s.par = par → s.boot = boot → Passes g s ∧ dataOf (runCommands g s) = f (dataOf s)

@[simp] theorem runCommands_boot (prog : List Instr) (s : State) : (runCommands prog s).boot = s.boot := by
  induction prog generalizing s with
  | nil => rfl
  | cons i rest ih => rw [runCommands_cons, ih]; rfl

/-- Groups one after another. -/
theorem groupDoes_append {par : Params} {boot : Nat} {p q : List Instr} {f g : Data → Data}
    (hp : GroupDoes par boot p f) (hq : GroupDoes par boot q g) : GroupDoes par boot (p ++ q) (g ∘ f) := by
  intro s h1 h2
  obtain ⟨a, b⟩ := hp s h1 h2
  obtain ⟨c, d⟩ := hq (runCommands p s) (by simpa using h1) (by simpa using h2)
  exact ⟨(passes_append p q s).2 ⟨a, c⟩, by rw [runCommands_append, d, b]; rfl⟩

theorem groupDoes_nil (par : Params) (boot : Nat) : GroupDoes par boot [] id := fun _ _ _ => ⟨trivial, rfl⟩

/-- The list of effects, first first. -/
def inSequence (fs : List (Data → Data)) (x : Data) : Data := fs.foldl (fun x f => f x) x

theorem pack_ne_nil (room : Nat) (cur : List Instr) (gs : List (List Instr)) : pack room cur gs ≠ [] := by
  induction gs generalizing cur with
  | nil => simp [pack]
  | cons g gs ih => rw [pack]; split_ifs <;> simp [ih]

/-- The runs of an expansion, from a stopped state: the last one ends in `DONE`, the answer is the result cells, and the data
are those of all groups in order. -/
theorem runPrograms_done (room : Nat) (outputs : List Nat) (gs : List (List Instr)) (fs : List (Data → Data))
    (cur : List Instr) (f : Data → Data) (inputs : List (Nat × Cell)) (s : State)
    (hok : s.par.ok = true) (hs : s.status ≠ .run) (hroom : room < s.par.cmWords)
    (hin : ∀ p ∈ inputs, p.1 < s.par.dmCells) (hout : ∀ a ∈ outputs, a < s.par.dmCells)
    (hcur : cur.length ≤ room) (hgs : ∀ g ∈ gs, g.length ≤ room)
    (hdcur : ∀ i ∈ cur, decode (encode i) = .ok i) (hdgs : ∀ g ∈ gs, ∀ i ∈ g, decode (encode i) = .ok i)
    (hf : GroupDoes s.par s.boot cur f) (hfs : List.Forall₂ (GroupDoes s.par s.boot) gs fs) :
    ∃ t, runPrograms f64Port inputs outputs ((pack room cur gs).map (· ++ [.halt])) s = .next (.ok (outputs.map t.cell), t) ∧
      t.status = .done ∧ t.par = s.par ∧ t.boot = s.boot ∧
      dataOf t = inSequence fs (f { dm := Memory.writeAll s.dm inputs, draws := s.draws }) := by
  induction gs generalizing fs cur f inputs s with
  | nil =>
    cases hfs
    obtain ⟨hp, hd⟩ := hf (started s inputs (cur ++ [.halt])) rfl rfl
    have hrun := runProgram_done inputs cur outputs s hok hs hin hout (by omega) hdcur hp
    refine ⟨_, hrun, rfl, ?_, ?_, hd⟩
    · show (runCommands cur _).par = s.par
      rw [runCommands_par]; rfl
    · show (runCommands cur _).boot = s.boot
      rw [runCommands_boot]; rfl
  | cons g gs ih =>
    cases hfs with
    | @cons _ h _ hs' hg hgs' =>
      rw [pack]
      split_ifs with hfit
      · obtain ⟨t, h1, h2, h3, h4, h5⟩ := ih hs' (cur ++ g) (h ∘ f) inputs s hok hs hroom hin hout (by simpa using hfit)
          (fun x hx => hgs x (by simp [hx]))
          (fun i hi => by
            rcases List.mem_append.1 hi with hi | hi
            · exact hdcur i hi
            · exact hdgs g (by simp) i hi)
          (fun x hx => hdgs x (by simp [hx])) (groupDoes_append hf hg) hgs'
        exact ⟨t, h1, h2, h3, h4, h5⟩
      · obtain ⟨hp, hd⟩ := hf (started s inputs (cur ++ [.halt])) rfl rfl
        have hrun := runProgram_done inputs cur [] s hok hs hin (by simp) (by omega) hdcur hp
        set t := (runCommands cur (started s inputs (cur ++ [.halt]))).finish with ht
        have htpar : t.par = s.par := by rw [ht, finish_par, runCommands_par]; rfl
        have htboot : t.boot = s.boot := by rw [ht, finish_boot, runCommands_boot]; rfl
        obtain ⟨u, h1, h2, h3, h4, h5⟩ := ih hs' g h [] t (by rw [htpar]; exact hok) (by rw [ht, finish_status]; decide)
          (by rw [htpar]; exact hroom) (by simp) (by rw [htpar]; exact hout) (hgs g (by simp))
          (fun x hx => hgs x (by simp [hx])) (hdgs g (by simp)) (fun x hx => hdgs x (by simp [hx]))
          (by rw [htpar, htboot]; exact hg) (by rw [htpar, htboot]; exact hgs')
        refine ⟨u, ?_, h2, by rw [h3, htpar], by rw [h4, htboot], ?_⟩
        · have hne : (pack room g gs).map (· ++ [Instr.halt]) ≠ [] := by simp [pack_ne_nil]
          rw [List.map_cons]
          obtain ⟨q, qs, hq⟩ := List.exists_cons_of_ne_nil hne
          rw [hq] at h1 ⊢
          rw [runPrograms]
          · rw [hrun, andThen_next]; exact h1
          · simp
        · rw [h5]
          have : ({ dm := Memory.writeAll t.dm [], draws := t.draws } : Data) = dataOf t := rfl
          rw [this, show dataOf t = dataOf (runCommands cur (started s inputs (cur ++ [.halt]))) from rfl, hd]
          rfl

/-! ### What the groups of the listings do -/

/-- Cell `a` of the data. -/
def Data.cell (boot : Nat) (x : Data) (a : Nat) : Cell :=
  match Memory.get? x.dm a with
  | some c => c
  | none => Config.launchCell boot a

theorem dataOf_cell (s : State) (a : Nat) : (dataOf s).cell s.boot a = s.cell a := rfl

/-- A transform `f` of `len` elements at `src + j·sstr` under a type tag, padded to `2^m`, written at `dst + j·dstr`. -/
def transformData (boot m : Nat) (f : List (Cplx F64) → List (Cplx F64)) (ty : ElemTy) (src sstr dst dstr len : Nat)
    (x : Data) : Data :=
  let input := (List.range (2^m)).map fun j =>
    if j < len then elemOf ty (x.cell boot (src + j * sstr)) else f64Numerics.czero
  { dm := Memory.writeAll x.dm (cplxWrites f64Tier x.draws (fun j => dst + j * dstr) (f input)),
    draws := x.draws + 2 * 2^m }

/-- The checks of `FFT` and `IFFT` in numbers (`60_exceptions.md` R227). -/
theorem faultOf_fft (ty : ElemTy) (m : Nat) (par : Params) (d : Desc) (hm : m ≤ par.mmax) (hl : d.len.toNat ≤ 2^m)
    (hsrc : ∀ j < d.len.toNat, d.src.toNat + j * d.sstr.toNat < par.dmCells)
    (hdst : ∀ j < 2^m, d.dst.toNat + j * d.dstr.toNat < par.dmCells) : faultOf (fftOf ty m) par d = none := by
  rw [← firstFault_checksOf]
  have : checksOf (fftOf ty m) par d = transformChecks par d m := by cases ty <;> rfl
  rw [this, transformChecks, (orderCheck_eq_none par m).2 hm, (sizeCheck_eq_none d m).2 hl,
    (srcVecValid_iff par d _).2 hsrc, (dstVecValid_iff par d _).2 hdst]
  rfl

theorem faultOf_ifft (m : Nat) (par : Params) (d : Desc) (hm : m ≤ par.mmax) (hl : d.len.toNat ≤ 2^m)
    (hsrc : ∀ j < d.len.toNat, d.src.toNat + j * d.sstr.toNat < par.dmCells)
    (hdst : ∀ j < 2^m, d.dst.toNat + j * d.dstr.toNat < par.dmCells) : faultOf (.ifft m) par d = none := by
  have := faultOf_fft .complex m par d hm hl hsrc hdst
  simpa [fftOf, faultOf, orderField, readsLen, srcSet, dstSet] using this

/-- What `FFT` leaves of the data. -/
theorem dataOf_fft (ty : ElemTy) (m : Nat) (s : State) :
    dataOf (completed (fftOf ty m) s) =
      transformData s.boot m (forward f64Numerics m) ty s.d.src.toNat s.d.sstr.toNat s.d.dst.toNat s.d.dstr.toNat
        s.d.len.toNat (dataOf s) := by
  cases ty <;> rfl

/-- What `IFFT` leaves of the data. -/
theorem dataOf_ifft (m : Nat) (s : State) :
    dataOf (completed (.ifft m) s) =
      transformData s.boot m (inverse f64Numerics m) .complex s.d.src.toNat s.d.sstr.toNat s.d.dst.toNat s.d.dstr.toNat
        s.d.len.toNat (dataOf s) := rfl

/-- The commands of a vector group once its numbers fit. -/
def vectorGroup (src sstr dst dstr len : Nat) (i : Instr) : List Instr :=
  [.setd .SRC (BitVec.ofNat 24 src), .setd .SSTR (BitVec.ofNat 24 sstr), .setd .DST (BitVec.ofNat 24 dst),
    .setd .DSTR (BitVec.ofNat 24 dstr), .setd .LEN (BitVec.ofNat 24 len), i]

/-- A vector group exists exactly when its numbers fit (R180 (a)). -/
theorem allSome_vectorGroup (src sstr dst dstr len : Nat) (i : Instr) (g : List Instr) :
    allSome (vectorSetup src sstr dst dstr len ++ [some i]) = some g ↔
      (src < 2^24 ∧ sstr < 2^24 ∧ dst < 2^24 ∧ dstr < 2^24 ∧ len < 2^24) ∧ g = vectorGroup src sstr dst dstr len i := by
  unfold vectorSetup setd vectorGroup
  by_cases h1 : src < 2^24 <;> by_cases h2 : sstr < 2^24 <;> by_cases h3 : dst < 2^24 <;> by_cases h4 : dstr < 2^24 <;>
    by_cases h5 : len < 2^24 <;> simp only [h1, h2, h3, h4, h5, if_true, if_false, List.cons_append, List.nil_append, allSome,
      Option.map_some, Option.some.injEq, true_and, false_and, and_false, Option.map_none, reduceCtorEq]
  exact eq_comm

/-- A vector group of a forward transform. -/
theorem vectorGroup_fft (ty : ElemTy) (par : Params) (boot m src sstr dst dstr len : Nat)
    (hn : src < 2^24 ∧ sstr < 2^24 ∧ dst < 2^24 ∧ dstr < 2^24 ∧ len < 2^24) (hm : m ≤ par.mmax) (hl : len ≤ 2^m)
    (hsrc : ∀ j < len, src + j * sstr < par.dmCells) (hdst : ∀ j < 2^m, dst + j * dstr < par.dmCells) :
    GroupDoes par boot (vectorGroup src sstr dst dstr len (fftOf ty m))
      (transformData boot m (forward f64Numerics m) ty src sstr dst dstr len) := by
  obtain ⟨h1, h2, h3, h4, h5⟩ := hn
  intro s hpar hboot
  have hne : fftOf ty m ≠ .halt := by cases ty <;> simp [fftOf]
  refine ⟨⟨by simp, faultOf_setd _ _ _ _, by simp, faultOf_setd _ _ _ _, by simp, faultOf_setd _ _ _ _, by simp,
    faultOf_setd _ _ _ _, by simp, faultOf_setd _ _ _ _, hne, ?_, trivial⟩, ?_⟩
  · apply faultOf_fft
    · simpa [hpar] using hm
    all_goals
      simp only [completed_d, completed_par, descAfter, Desc.set, setd_toNat _ h1, setd_toNat _ h2, setd_toNat _ h3,
        setd_toNat _ h4, setd_toNat _ h5, hpar]
      assumption
  · simp only [vectorGroup, runCommands_cons, runCommands_nil, dataOf_fft]
    simp only [completed_d, descAfter, Desc.set, setd_toNat _ h1, setd_toNat _ h2, setd_toNat _ h3, setd_toNat _ h4,
      setd_toNat _ h5]
    rw [← hboot]
    rfl

/-- A vector group of an inverse transform. -/
theorem vectorGroup_ifft (par : Params) (boot m src sstr dst dstr len : Nat)
    (hn : src < 2^24 ∧ sstr < 2^24 ∧ dst < 2^24 ∧ dstr < 2^24 ∧ len < 2^24) (hm : m ≤ par.mmax) (hl : len ≤ 2^m)
    (hsrc : ∀ j < len, src + j * sstr < par.dmCells) (hdst : ∀ j < 2^m, dst + j * dstr < par.dmCells) :
    GroupDoes par boot (vectorGroup src sstr dst dstr len (.ifft m))
      (transformData boot m (inverse f64Numerics m) .complex src sstr dst dstr len) := by
  obtain ⟨h1, h2, h3, h4, h5⟩ := hn
  intro s hpar hboot
  refine ⟨⟨by simp, faultOf_setd _ _ _ _, by simp, faultOf_setd _ _ _ _, by simp, faultOf_setd _ _ _ _, by simp,
    faultOf_setd _ _ _ _, by simp, faultOf_setd _ _ _ _, by simp, ?_, trivial⟩, ?_⟩
  · apply faultOf_ifft
    · simpa [hpar] using hm
    all_goals
      simp only [completed_d, completed_par, descAfter, Desc.set, setd_toNat _ h1, setd_toNat _ h2, setd_toNat _ h3,
        setd_toNat _ h4, setd_toNat _ h5, hpar]
      assumption
  · simp only [vectorGroup, runCommands_cons, runCommands_nil, dataOf_ifft]
    simp only [completed_d, descAfter, Desc.set, setd_toNat _ h1, setd_toNat _ h2, setd_toNat _ h3, setd_toNat _ h4,
      setd_toNat _ h5]
    rw [← hboot]
    rfl

end Sys2Proof.Laws
end

