-- ==== Sys2Proof/Laws/F64.lean ====
section
/-! SUPPORT. The laws of NaN and of signs (`40_butterfly.md` R97): nothing is known of an operation's NaN but that it is a
quiet NaN. -/

namespace Sys2Proof.Laws

open Sys2Proof.Machine

/-- A number with bits 51 to 62 set, whatever its other bits, is a NaN's. -/
theorem quietNaN_toNat (b : BitVec 64) (k : Nat) (h1 : 51 ≤ k) (h2 : k < 63) : (F64.quietNaN b).toNat.testBit k = true := by
  have : (0x7ff8000000000000 : Nat) = (2^12 - 1) * 2^51 := by norm_num
  rw [F64.quietNaN, BitVec.toNat_or, Nat.testBit_or, Bool.or_eq_true]
  right
  rw [BitVec.toNat_ofNat, Nat.mod_eq_of_lt (by norm_num), this, Nat.testBit_mul_two_pow]
  simp only [h1, decide_true, Bool.true_and]
  rw [Nat.testBit_two_pow_sub_one]
  simp; omega

/-- Every pattern `quietNaN` makes is a NaN. -/
@[simp] theorem isNaN_quietNaN (b : BitVec 64) : F64.isNaN (F64.quietNaN b) = true := by
  have h : 0x7ff8000000000000 ≤ (F64.quietNaN b).toNat % 2^63 := by
    have hb : F64.quietNaN b = BitVec.ofNat 64 (b.toNat ||| 0x7ff8000000000000) := by
      apply BitVec.eq_of_toNat_eq
      rw [F64.quietNaN, BitVec.toNat_or, BitVec.toNat_ofNat, BitVec.toNat_ofNat, Nat.mod_eq_of_lt (by norm_num)]
      exact (Nat.mod_eq_of_lt (Nat.or_lt_two_pow b.isLt (by norm_num))).symm
    have hand : (F64.quietNaN b).toNat % 2^63 = (b.toNat % 2^63) ||| 0x7ff8000000000000 := by
      rw [hb, BitVec.toNat_ofNat, Nat.mod_mod_of_dvd _ (by norm_num : 2^63 ∣ 2^64), Nat.or_mod_two_pow]
    rw [hand]
    exact Nat.right_le_or
  exact decide_eq_true (lt_of_lt_of_le (by norm_num [F64.infMag]) h)

/-- ... and a quiet one. -/
@[simp] theorem quiet_quietNaN (b : BitVec 64) : (F64.quietNaN b).getLsbD 51 = true :=
  quietNaN_toNat b 51 (by omega) (by omega)

@[simp] theorem isNaN_nan (op : ArithOp) (x y : F64) : F64.isNaN (F64.nan op x y) = true := isNaN_quietNaN _

@[simp] theorem quiet_nan (op : ArithOp) (x y : F64) : (F64.nan op x y).getLsbD 51 = true := quiet_quietNaN _

/-- An infinity is no NaN. -/
theorem isNaN_of_isInf (x : F64) (h : F64.isInf x = true) : F64.isNaN x = false := by
  simp_all [F64.isInf, F64.isNaN]

theorem isNaN_add_left (x y : F64) (h : F64.isNaN x = true) : F64.isNaN (F64.add x y) = true := by
  simp [F64.add, F64.sum, h]

theorem isNaN_add_right (x y : F64) (h : F64.isNaN y = true) : F64.isNaN (F64.add x y) = true := by
  simp [F64.add, F64.sum, h]

theorem isNaN_sub_left (x y : F64) (h : F64.isNaN x = true) : F64.isNaN (F64.sub x y) = true := by
  simp [F64.sub, F64.sum, h]

theorem isNaN_mul_left (x y : F64) (h : F64.isNaN x = true) : F64.isNaN (F64.mul x y) = true := by
  simp [F64.mul, h]

theorem isNaN_mul_right (x y : F64) (h : F64.isNaN y = true) : F64.isNaN (F64.mul x y) = true := by
  simp [F64.mul, h]

/-- `0 × inf` (R97). -/
theorem isNaN_mul_zero_inf (x y : F64) (hx : F64.mag x = 0) (hy : F64.isInf y = true) :
    F64.isNaN (F64.mul x y) = true := by
  by_cases h : (F64.isNaN x || F64.isNaN y) = true
  · simp [F64.mul, h]
  · simp only [F64.mul, h, hx, hy, Bool.or_true, if_true, true_or, Bool.false_eq_true, if_false, isNaN_nan]

end Sys2Proof.Laws
end

