-- ==== Sys2Proof/Laws/HostSoftware.lean ====
section
/-! SUPPORT. The laws of the metrics (`47_host_software.md` R210): the squares as a list, and the mean of equal numbers. -/

namespace Sys2Proof.Laws

open Sys2Proof.Machine

@[simp] theorem squares_length (p q : Mat Byte) : (squares p q).length = p.rows * p.cols := by
  simp [squares, List.length_flatMap]

/-- Every square is the square of one pixel's difference. -/
theorem mem_squares (p q : Mat Byte) (v : Nat) : v ∈ squares p q ↔
    ∃ i < p.rows, ∃ j < p.cols, (((p.at 0 i j).toNat : Int) - ((q.at 0 i j).toNat : Int)).natAbs^2 = v := by
  simp [squares]

/-- Images whose differences have one square have a list of it. -/
theorem squares_eq_replicate (p q : Mat Byte) (v : Nat)
    (h : ∀ i < p.rows, ∀ j < p.cols, (((p.at 0 i j).toNat : Int) - ((q.at 0 i j).toNat : Int)).natAbs^2 = v) :
    squares p q = List.replicate (p.rows * p.cols) v := by
  refine List.eq_replicate_iff.mpr ⟨squares_length p q, fun b hb => ?_⟩
  obtain ⟨i, hi, j, hj, rfl⟩ := (mem_squares p q b).mp hb
  exact h i hi j hj

/-- The sum of the squares, as a sum over rows and columns. -/
theorem squares_sum (p q : Mat Byte) : ((squares p q).sum : Int) = ∑ i ∈ Finset.range p.rows, ∑ j ∈ Finset.range p.cols,
    (((p.at 0 i j).toNat : Int) - ((q.at 0 i j).toNat : Int))^2 := by
  have hrow : ∀ (n : Nat) (f : Nat → Nat), ((List.range n).map f).sum = ∑ j ∈ Finset.range n, f j := fun n f => by
    induction n with
    | zero => rfl
    | succ n ih => rw [List.range_succ, List.map_append, List.sum_append, ih, Finset.sum_range_succ]; simp
  have hflat : ∀ (n : Nat) (f : Nat → List Nat), ((List.range n).flatMap f).sum = ∑ i ∈ Finset.range n, (f i).sum := fun n f => by
    induction n with
    | zero => rfl
    | succ n ih => rw [List.range_succ, List.flatMap_append, List.sum_append, ih, Finset.sum_range_succ]; simp
  rw [squares, hflat]
  simp only [hrow]
  push_cast
  simp only [sq_abs]

/-- A rounding depends on the quotient alone. -/
theorem roundMag_mul_left (k num den : Nat) (hk : 0 < k) : F64.roundMag (k * num) (k * den) = F64.roundMag num den := by
  have hr : ∀ u, k * num % (k * u) = k * (num % u) := fun u => Nat.mul_mod_mul_left ..
  have hq : ∀ u, k * num / (k * u) = num / u := fun u => Nat.mul_div_mul_left _ _ hk
  simp only [F64.roundMag, hq, Nat.mul_assoc k den, hr, Nat.mul_left_comm 2 k, Nat.mul_lt_mul_left hk,
    Nat.mul_right_inj (Nat.pos_iff_ne_zero.mp hk)]

/-- The mean of equal numbers is that number. -/
theorem mean_replicate (n v : Nat) (hn : 0 < n) : F64.mean (List.replicate n v) = F64.ofInt v := by
  have hall : (List.replicate n v).all (· == (List.replicate n v).headD 0) = true := by
    obtain ⟨k, rfl⟩ : ∃ k, n = k + 1 := ⟨n - 1, by omega⟩
    simp [List.replicate_succ]
  have hneg : decide ((v : Int) < 0) = false := by simp
  rw [F64.mean, if_pos (.inr hall), F64.ofInt, hneg, F64.ofUnits, F64.ofUnits]
  simp only [List.sum_replicate, smul_eq_mul, List.length_replicate, Int.natAbs_natCast]
  rw [Nat.mul_assoc, show F64.roundMag (n * (v * 2^1074)) n = F64.roundMag (n * (v * 2^1074)) (n * 1) by rw [Nat.mul_one],
    roundMag_mul_left _ _ _ hn]

end Sys2Proof.Laws
end

