-- ==== Sys2Proof/Laws/PerInstr.lean ====
section
/-! SUPPORT. The per-instruction family `OpcodeField`: the word of a well-formed command has its opcode in bits [31:28]
(`30_encoding.md` R71, R72). -/

namespace Sys2Proof.Laws

/-- The opcode of a command (R71). -/
def opcode : Instr → Nat
  | .halt => 0x0
  | .setd _ _ => 0x1
  | .brtab _ => 0x2
  | .brperm _ => 0x3
  | .bflyF _ _ => 0x4
  | .bflyI _ _ => 0x4
  | .fftB _ => 0x5
  | .fftI _ => 0x5
  | .fftC _ => 0x5
  | .ifft _ => 0x6
  | .qshift _ => 0x7

/-- The opcode field of the word of a well-formed command is the command's opcode. -/
def OpcodeField.Statement (i : Instr) : Prop := i.wf = true → bits (encode i) 31 28 = opcode i

/-- Bits [31:28] of a word given as a number. -/
theorem bits_opcode (n : Nat) (h : n < 2^32) : bits (BitVec.ofNat 32 n) 31 28 = n / 2^28 := by
  simp only [bits, BitVec.toNat_ofNat]; omega

namespace OpcodeField

theorem halt : Statement .halt := fun _ => by decide

theorem setd (rd : Reg) (imm : BitVec 24) : Statement (.setd rd imm) := fun _ => by
  have := imm.isLt
  cases rd <;> (simp only [encode, opcode, Reg.num]; rw [bits_opcode _ (by omega)]; omega)

theorem brtab (m : Nat) : Statement (.brtab m) := fun h => by
  simp only [Instr.wf, orderFits, decide_eq_true_eq] at h
  simp only [encode, opcode]; rw [bits_opcode _ (by omega)]; omega

theorem brperm (m : Nat) : Statement (.brperm m) := fun h => by
  simp only [Instr.wf, orderFits, decide_eq_true_eq] at h
  simp only [encode, opcode]; rw [bits_opcode _ (by omega)]; omega

theorem bflyF (e k : Nat) : Statement (.bflyF e k) := fun h => by
  simp only [Instr.wf, orderFits, exponentFits, Bool.and_eq_true, decide_eq_true_eq] at h
  simp only [encode, opcode]; rw [bits_opcode _ (by omega)]; omega

theorem bflyI (e k : Nat) : Statement (.bflyI e k) := fun h => by
  simp only [Instr.wf, orderFits, exponentFits, Bool.and_eq_true, decide_eq_true_eq] at h
  simp only [encode, opcode]; rw [bits_opcode _ (by omega)]; omega

theorem fftB (m : Nat) : Statement (.fftB m) := fun h => by
  simp only [Instr.wf, orderFits, decide_eq_true_eq] at h
  simp only [encode, opcode]; rw [bits_opcode _ (by omega)]; omega

theorem fftI (m : Nat) : Statement (.fftI m) := fun h => by
  simp only [Instr.wf, orderFits, decide_eq_true_eq] at h
  simp only [encode, opcode]; rw [bits_opcode _ (by omega)]; omega

theorem fftC (m : Nat) : Statement (.fftC m) := fun h => by
  simp only [Instr.wf, orderFits, decide_eq_true_eq] at h
  simp only [encode, opcode]; rw [bits_opcode _ (by omega)]; omega

theorem ifft (m : Nat) : Statement (.ifft m) := fun h => by
  simp only [Instr.wf, orderFits, decide_eq_true_eq] at h
  simp only [encode, opcode]; rw [bits_opcode _ (by omega)]; omega

theorem qshift (m : Nat) : Statement (.qshift m) := fun h => by
  simp only [Instr.wf, orderFits, decide_eq_true_eq] at h
  simp only [encode, opcode]; rw [bits_opcode _ (by omega)]; omega

end OpcodeField

end Sys2Proof.Laws
end

