-- ==== Sys2Proof/Machine/Assembler.lean ====
section
/-! DEFINITION. The assembler syntax of `30_encoding.md` R82: one command a line, `;` starts a comment, numbers decimal or
`0x` hexadecimal, registers by name or number. -/

namespace Sys2Proof.Machine

/-- A decimal digit's value. -/
def decDigit (c : Char) : Option Nat :=
  if '0'.toNat ≤ c.toNat ∧ c.toNat ≤ '9'.toNat then some (c.toNat - '0'.toNat) else none

/-- A hexadecimal digit's value. -/
def hexDigit (c : Char) : Option Nat :=
  match decDigit c with
  | some v => some v
  | none =>
    if 'a'.toNat ≤ c.toNat ∧ c.toNat ≤ 'f'.toNat then some (c.toNat - 'a'.toNat + 10)
    else if 'A'.toNat ≤ c.toNat ∧ c.toNat ≤ 'F'.toNat then some (c.toNat - 'A'.toNat + 10)
    else none

/-- Digits in a base, most significant first, after the value `acc`. -/
def digits (base : Nat) (digit : Char → Option Nat) : Nat → List Char → Option Nat
  | acc, [] => some acc
  | acc, c :: rest =>
    match digit c with
    | some v => digits base digit (acc * base + v) rest
    | none => none

/-- A number, decimal or `0x` hexadecimal. -/
def parseNumber : List Char → Option Nat
  | [] => none
  | '0' :: 'x' :: c :: rest => digits 16 hexDigit 0 (c :: rest)
  | c :: rest => digits 10 decDigit 0 (c :: rest)

/-- The name of a register (R82). -/
def regName : Reg → List Char
  | .SRC => "SRC".toList
  | .SSTR => "SSTR".toList
  | .DST => "DST".toList
  | .DSTR => "DSTR".toList
  | .LEN => "LEN".toList
  | .SPITCH => "SPITCH".toList
  | .DPITCH => "DPITCH".toList

/-- A register operand, by name or number; a number above 6 is rejected. -/
def parseReg (cs : List Char) : Option Reg :=
  match [Reg.SRC, .SSTR, .DST, .DSTR, .LEN, .SPITCH, .DPITCH].find? (fun r => regName r == cs) with
  | some r => some r
  | none => (parseNumber cs).bind Reg.ofNum

/-- White space inside a line. -/
def isBlank (c : Char) : Bool := c == ' ' || c == '\t' || c == '\r'

/-- The words of a line: cut at white space, each comma a word of its own. -/
def tokens : List Char → List Char → List (List Char)
  | cur, [] => if cur.isEmpty then [] else [cur.reverse]
  | cur, c :: rest =>
    let done := if cur.isEmpty then [] else [cur.reverse]
    if isBlank c then done ++ tokens [] rest
    else if c == ',' then done ++ [','] :: tokens [] rest
    else tokens (c :: cur) rest

/-- A command with one order operand. -/
def orderCommand (mk : Nat → Instr) (ops : List (List Char)) : Option Instr :=
  match ops with
  | [m] => (parseNumber m).map mk
  | _ => none

/-- A command with an order and a twiddle exponent. -/
def butterflyCommand (mk : Nat → Nat → Instr) (ops : List (List Char)) : Option Instr :=
  match ops with
  | [e, [','], k] => (parseNumber e).bind fun e => (parseNumber k).map fun k => mk e k
  | _ => none

/-- `SETD rd, imm`; an immediate of `2^24` or more is rejected. -/
def setdCommand (ops : List (List Char)) : Option Instr :=
  match ops with
  | [r, [','], v] =>
    (parseReg r).bind fun r => (parseNumber v).bind fun v =>
      if v < 2^24 then some (.setd r (BitVec.ofNat 24 v)) else none
  | _ => none

/-- A command from its mnemonic and operands, before the field widths are checked. -/
def parseCommand (mnemonic : String) (ops : List (List Char)) : Option Instr :=
  if mnemonic = "HALT" then (if ops.isEmpty then some .halt else none)
  else if mnemonic = "SETD" then setdCommand ops
  else if mnemonic = "BRTAB" then orderCommand .brtab ops
  else if mnemonic = "BRPERM" then orderCommand .brperm ops
  else if mnemonic = "BFLY.F" then butterflyCommand .bflyF ops
  else if mnemonic = "BFLY.I" then butterflyCommand .bflyI ops
  else if mnemonic = "FFT.B" then orderCommand .fftB ops
  else if mnemonic = "FFT.I" then orderCommand .fftI ops
  else if mnemonic = "FFT.C" then orderCommand .fftC ops
  else if mnemonic = "IFFT" then orderCommand .ifft ops
  else if mnemonic = "QSHIFT" then orderCommand .qshift ops
  else none

/-- What a line of assembler text holds. -/
inductive AsmLine where
  /-- Nothing but white space or a comment. -/
  | empty
  | command (i : Instr)
  /-- Not a command of R82, or an operand out of its field's range. -/
  | rejected
deriving DecidableEq, Repr

/-- Assemble one line (R82). The limits of the fields are `Instr.wf`; `MMAX` plays no part. -/
def assembleLine (line : String) : AsmLine :=
  match tokens [] (line.toList.takeWhile (fun c => c != ';')) with
  | [] => .empty
  | mn :: ops =>
    match parseCommand (String.ofList mn) ops with
    | some i => if i.wf then .command i else .rejected
    | none => .rejected

/-- The word of one line, when it holds a command. -/
def assembleWord (line : String) : Option Word :=
  match assembleLine line with
  | .command i => some (encode i)
  | .empty => none
  | .rejected => none

end Sys2Proof.Machine
end

