-- ==== Sys2Proof/Tests/Slice0.lean ====
section
/-! SUPPORT. Tests: ill-formed terms, words written out from the tables of `30_encoding.md`, vectors of
`95_test_vectors.md` (its T, V and P numbers are cited), and a witness for the hypotheses of every obligation that has
some. -/

namespace Sys2Proof.Tests

open Sys2Proof.Machine

set_option Elab.async false

/-! ### Helpers -/

/-- The outcome is a next state. -/
def isNext {α : Type} : Host.Outcome α Fault Refusal → Bool
  | .next _ => true
  | .fault _ => false
  | .refused _ => false

/-- The next state of an outcome that has one. -/
def after : Host.Outcome State Fault Refusal → State
  | .next t => t
  | .fault _ => State.reset
  | .refused _ => State.reset

theorem eq_next_after {o : Host.Outcome State Fault Refusal} (h : isNext o = true) : o = .next (after o) := by
  cases o <;> simp_all [isNext, after]

/-- The parameters of the vectors: `MMAX = 10`, `DM_CELLS = 256`, `CM_WORDS = 64`. -/
def tp : Params := { mmax := 10, dmCells := 256, cmWords := 64 }

/-- A running state with the given descriptors `[SRC, SSTR, DST, DSTR, LEN, SPITCH, DPITCH]` and cells. -/
def running (d : List Nat) (dm : List (Nat × Cell)) : State :=
  { State.reset with
    par := tp, status := .run, dm := dm,
    d := { src := d.getD 0 0, sstr := d.getD 1 0, dst := d.getD 2 0, dstr := d.getD 3 0, len := d.getD 4 0,
           spitch := d.getD 5 0, dpitch := d.getD 6 0 } }

/-- A complex cell from the bits of its real and imaginary parts. -/
def cx (re im : BitVec 64) : Cell := (im ++ re : BitVec (64 + 64))

/-- Cells from `base` on. -/
def from_ (base : Nat) (cs : List Cell) : List (Nat × Cell) := cs.zipIdx.map fun p => (base + p.2, p.1)

/-- Some cells after a command. -/
def cellsAfter (i : Instr) (s : State) (addrs : List Nat) : List Cell := addrs.map (after (exec i s)).cell

/-- `STATUS`, `ERR`, `EPC`, `cpc` as numbers. -/
def regs (s : State) : List Nat := [s.status.code, s.err.code, s.epc.toNat, s.cpc.toNat]

/-- A state with a program at word 0 of `CM`, running. -/
def program (ws : List Word) : State := { running [] [] with cm := ws.zipIdx.map fun p => (p.2, p.1) }

/-! ### Ill-formed terms: every check of `WellFormed.lean` refuses one -/

theorem test_wf_orders :
    [Instr.brtab 16, .brperm 16, .bflyF 16 0, .bflyI 16 0, .fftB 16, .fftI 16, .fftC 16, .ifft 16, .qshift 16].all
      (fun i => !i.wf) = true := by decide

theorem test_wf_exponents : (Instr.bflyF 0 1024).wf = false ∧ (Instr.bflyI 0 1024).wf = false := by decide

theorem test_wf_largest :
    [Instr.halt, .setd .DPITCH 0xFFFFFF#24, .brtab 15, .brperm 15, .bflyF 15 1023, .bflyI 15 1023, .fftB 15, .fftI 15,
      .fftC 15, .ifft 15, .qshift 15].all Instr.wf = true := by decide

/-! ### Decoding: the example words of R82, written out by field, and the legal words of T1 -/

theorem test_decode_halt : decode 0b0000_0000000000000000000000000000#32 = .ok .halt := by decide

/-- `op` 0001, `rd` 0100, `imm24` 3. -/
theorem test_decode_setd : decode 0b0001_0100_000000000000000000000011#32 = .ok (.setd .LEN 3#24) := by decide

/-- `op` 0010, zeros, `M` 0011. -/
theorem test_decode_brtab : decode 0b0010_000000000000000000000000_0011#32 = .ok (.brtab 3) := by decide

theorem test_decode_brperm : decode 0b0011_000000000000000000000000_0011#32 = .ok (.brperm 3) := by decide

/-- `op` 0100, `dir` 0, 000, `E` 0011, zeros, `k` 1. -/
theorem test_decode_bflyF : decode 0b0100_0_000_0011_0000000000_0000000001#32 = .ok (.bflyF 3 1) := by decide

theorem test_decode_bflyI : decode 0b0100_1_000_0011_0000000000_0000000001#32 = .ok (.bflyI 3 1) := by decide

/-- `op` 0101, `ty` 00, zeros, `M` 0010. -/
theorem test_decode_fftB : decode 0b0101_00_0000000000000000000000_0010#32 = .ok (.fftB 2) := by decide

theorem test_decode_fftI : decode 0b0101_01_0000000000000000000000_0010#32 = .ok (.fftI 2) := by decide

theorem test_decode_fftC : decode 0b0101_10_0000000000000000000000_0010#32 = .ok (.fftC 2) := by decide

theorem test_decode_ifft : decode 0b0110_000000000000000000000000_0010#32 = .ok (.ifft 2) := by decide

theorem test_decode_qshift : decode 0b0111_000000000000000000000000_0010#32 = .ok (.qshift 2) := by decide

/-- The examples of R82 in the other direction. -/
theorem test_encode :
    [Instr.halt, .setd .LEN 3, .brtab 3, .brperm 3, .bflyF 3 1, .bflyI 3 1, .fftB 2, .fftI 2, .fftC 2, .ifft 2,
      .qshift 2].map encode =
    [0x00000000#32, 0x14000003#32, 0x20000003#32, 0x30000003#32, 0x40300001#32, 0x48300001#32, 0x50000002#32,
      0x54000002#32, 0x58000002#32, 0x60000002#32, 0x70000002#32] := by decide

/-- T1, the illegal words, by the case of R79 each belongs to. -/
theorem test_decode_illegal :
    [0x80000000#32, 0x9ABCDEF0#32, 0xF0000000#32, 0xFFFFFFFF#32].map decode =
      List.replicate 4 (.error .reservedOp) ∧
    [0x00000001#32, 0x0FFFFFFF#32].map decode = List.replicate 2 (.error .haltBits) ∧
    [0x17000000#32, 0x1F000000#32].map decode = List.replicate 2 (.error .badRegister) ∧
    [0x20000010#32, 0x28000003#32, 0x30000100#32, 0x64000002#32, 0x78000002#32, 0x50000012#32, 0x52000002#32,
      0x40000400#32, 0x40080000#32, 0x41000000#32, 0x44000001#32].map decode =
      List.replicate 11 (.error .mustBeZero) ∧
    decode 0x5C000002#32 = .error .badType := by decide

/-- The byte stream is little-endian (R56): `0x40300001` is stored as 01 00 30 40. -/
theorem test_decode_bytes :
    decodeBytes [0x01#8, 0x00#8, 0x30#8, 0x40#8, 0xAA#8] = .ok (.bflyF 3 1, [0xAA#8]) ∧
    decodeBytes [0x01#8, 0x00#8, 0x30#8] = .error .truncated := by decide

theorem test_decodeTableWord :
    decodeTableWord 32 0x40300001 = some (.bflyF 3 1) ∧ decodeTableWord 32 0x5C000000 = none := by decide

/-- A word placed at reset is what the next step runs. -/
theorem test_withFetchWord :
    (after (step (State.reset.withFetchWord 32 0x14000003))).d.len = 3 ∧
    (after (step (State.reset.withFetchWord 32 0x00000000))).status = .done := by decide +kernel

/-- R82: names, numbers, comments, and the limits the assembler rejects. -/
theorem test_assembler :
    assembleWord "SETD LEN, 0x3 ; length" = some 0x14000003#32 ∧ assembleWord "BFLY.I 3,1" = some 0x48300001#32 ∧
    assembleLine "; nothing" = .empty ∧ assembleLine "FFT.B 16" = .rejected ∧ assembleLine "SETD 7, 0" = .rejected := by
  decide +kernel

/-! ### The commands -/

/-- T9 line 6. -/
theorem test_halt : regs (after (exec .halt { running [] [] with cpc := 1 })) = [2, 0, 0, 1] := by decide +kernel

/-- T9 line 4. -/
theorem test_setd :
    (after (exec (.setd .LEN 9) (running [] []))).d.len = 9 ∧
    regs (after (exec (.setd .LEN 9) (running [] []))) = [1, 0, 0, 1] := by decide +kernel

/-- T5 row 2: every other cell. -/
theorem test_brtab :
    cellsAfter (.brtab 4) (running [0, 0, 0, 2] []) ((List.range 16).map (2 * ·)) =
      [0, 8, 4, 12, 2, 10, 6, 14, 1, 9, 5, 13, 3, 11, 7, 15] := by decide +kernel

/-- T5 row 3: `DSTR = 0`, the last write remains. -/
theorem test_brtab_last_write : cellsAfter (.brtab 2) (running [0, 0, 12, 0] []) [12] = [3] := by decide +kernel

/-- T5 row 5: in place. -/
theorem test_brperm :
    cellsAfter (.brperm 2) (running [0, 1, 0, 1] (from_ 0 [0x10, 0x11, 0x12, 0x13])) [0, 1, 2, 3] =
      [0x10, 0x12, 0x11, 0x13] := by decide +kernel

/-- T5: the last source address is 256. -/
theorem test_brperm_addr : regs (after (exec (.brperm 2) (running [250, 2, 0, 1] []))) = [3, 6, 0, 0] := by
  decide +kernel

/-- The operands of T4: `(1, 2)` and `(3, 4)`. -/
def t4 : List (Nat × Cell) :=
  from_ 0 [cx 0x3ff0000000000000#64 0x4000000000000000#64, cx 0x4008000000000000#64 0x4010000000000000#64]

/-- T4 row 3. -/
theorem test_bflyF :
    cellsAfter (.bflyF 3 1) (running [0, 1, 0, 1] t4) [0, 1] =
      [cx 0x4017cc8a99af5454#64 0x4005a827999fcef3#64, cx 0xc00f9915335ea8a8#64 0x3ff4afb0ccc0621a#64] := by
  decide +kernel

/-- T4 row 16: both results to one cell. -/
theorem test_bflyF_one_cell :
    cellsAfter (.bflyF 2 1) (running [0, 1, 4, 0] t4) [4, 0] =
      [cx 0xc008000000000000#64 0x4014000000000000#64, cx 0x3ff0000000000000#64 0x4000000000000000#64] := by
  decide +kernel

/-- T4 row 4. -/
theorem test_bflyI :
    cellsAfter (.bflyI 3 1) (running [0, 1, 0, 1] t4) [0, 1] =
      [cx 0x3fd2bec333018868#64 0x401bcc8a99af5454#64, cx 0x3ffb504f333f9de6#64 0xc0079915335ea8a8#64] := by
  decide +kernel

/-- T4 row 14. -/
theorem test_bflyI_large_modulus :
    cellsAfter (.bflyI 10 1) (running [0, 1, 0, 1] t4) [0, 1] =
      [cx 0x400fcd9e822e19ed#64 0x401812c5b7861289#64, cx 0xbfff9b3d045c33da#64 0xc000258b6f0c2512#64] := by
  decide +kernel

/-- T6.5: strides and padding; cell 41 is not touched. -/
theorem test_fftB :
    cellsAfter (.fftB 3) (running [0, 2, 40, 3, 3] [(0, 1), (2, 2), (4, 3), (41, 0xAB)]) [40, 43, 49, 61, 41] =
      [cx 0x4018000000000000#64 0#64, cx 0x4003504f333f9de6#64 0xc011a827999fcef3#64,
        cx 0xbfda827999fcef34#64 0x3ff95f619980c433#64, cx 0x4003504f333f9de6#64 0x4011a827999fcef3#64, 0xAB] := by
  decide +kernel

/-- T10 row 8: AddrError and nothing written. -/
theorem test_fftB_addr :
    after (exec (.fftB 2) (running [0, 1, 253, 1, 4] [])) = (running [0, 1, 253, 1, 4] []).raise .addr := by
  decide +kernel

/-- T6.2. -/
theorem test_fftI :
    cellsAfter (.fftI 2) (running [0, 1, 8, 1, 4] (from_ 0 [0xFFFFFFFF, 2, 0xFFFFFFFD, 4])) [8, 9, 10, 11] =
      [cx 0x4000000000000000#64 0#64, cx 0x4000000000000000#64 0x4000000000000000#64, cx 0xc024000000000000#64 0#64,
        cx 0x4000000000000000#64 0xc000000000000000#64] := by decide +kernel

/-- T6.3: the high bits of a cell are ignored. -/
theorem test_fftI_extremes :
    cellsAfter (.fftI 1) (running [0, 1, 8, 1, 2] [(0, 0x80000000), (1, 0x0000ABCD7FFFFFFF)]) [8, 9] =
      [cx 0xbff0000000000000#64 0#64, cx 0xc1efffffffe00000#64 0#64] := by decide +kernel

/-- The input of T6.4. -/
def t64 : List (Nat × Cell) :=
  from_ 0 [cx 0x3ff0000000000000#64 0x3ff0000000000000#64, cx 0#64 0x4000000000000000#64, cx 0xbff0000000000000#64 0#64,
    cx 0x3fe0000000000000#64 0xbfe0000000000000#64]

/-- T6.4. -/
theorem test_fftC :
    cellsAfter (.fftC 2) (running [0, 1, 8, 1, 4] t64) [8, 9, 10, 11] =
      [cx 0x3fe0000000000000#64 0x4004000000000000#64, cx 0x4012000000000000#64 0x3ff8000000000000#64,
        cx 0xbfe0000000000000#64 0xbfe0000000000000#64, cx 0xbfe0000000000000#64 0x3fe0000000000000#64] := by
  decide +kernel

/-- T10 row 4: OrderError before SizeError. -/
theorem test_fftC_order : regs (after (exec (.fftC 11) (running [0, 0, 0, 0, 5000] []))) = [3, 5, 0, 0] := by
  decide +kernel

/-- V1, the inverse half. -/
theorem test_ifft :
    cellsAfter (.ifft 2) (running [0, 1, 8, 1, 4] (from_ 0 [cx 0x4008000000000000#64 0#64,
        cx 0#64 0xbff0000000000000#64, cx 0x3ff0000000000000#64 0#64, cx 0#64 0x3ff0000000000000#64])) [8, 9, 10, 11] =
      [cx 0x3ff0000000000000#64 0#64, cx 0x3ff0000000000000#64 0#64, cx 0x3ff0000000000000#64 0#64, 0] := by
  decide +kernel

/-- T7.5: subnormal results, a tie to even. -/
theorem test_ifft_subnormal :
    cellsAfter (.ifft 1) (running [0, 0, 8, 1, 1] [(0, cx 0x0010000000000000#64 1#64)]) [8, 9] =
      [cx 0x0008000000000000#64 0#64, cx 0x0008000000000000#64 0#64] := by decide +kernel

/-- T8 row 1. -/
theorem test_qshift :
    cellsAfter (.qshift 2) (running [0, 1, 16, 1, 0, 4, 4] (from_ 0 ((List.range 16).map (BitVec.ofNat 128))))
        ((List.range 16).map (16 + ·)) =
      [10, 11, 8, 9, 14, 15, 12, 13, 2, 3, 0, 1, 6, 7, 4, 5] := by decide +kernel

/-- T8 row 5: the last write remains. -/
theorem test_qshift_last_write :
    cellsAfter (.qshift 1) (running [0, 1, 8, 1, 0, 2, 0] (from_ 0 [0xA0, 0xA1, 0xA2, 0xA3])) [8, 9] = [0xA1, 0xA0] := by
  decide +kernel

/-! ### The sequencer and the host port -/

/-- T10 row 2 and P7: IllegalCommand, and FetchError at `CM_WORDS`. -/
theorem test_step_faults :
    regs (after (step (program [0xFFFFFFFF#32]))) = [3, 4, 0, 0] ∧
    regs (after (step { program [] with cpc := 64 })) = [3, 7, 64, 64] := by decide +kernel

/-- T9 lines 11 to 13: START in `ERR` has no effect, `CTRL = 3` clears and starts. -/
theorem test_ctrl :
    let s := (program []).raise .illegal
    s.csrWrite 0 1 = s ∧ regs (s.csrWrite 0 3) = [1, 0, 0, 0] ∧ regs (s.csrWrite 0 2) = [0, 0, 0, 0] := by decide +kernel

/-- T9: the CSR reads at line 6. -/
theorem test_csr :
    let s := { running [0, 0, 0, 0, 9] [] with status := .done, cpc := 1 }
    [0, 1, 2, 3, 4, 5, 6, 7, 8, 12, 15, 1000].map s.csrRead = [0, 2, 0, 0, 1, 10, 256, 64, 0, 9, 0, 0] ∧
    s.irq = true := by decide +kernel

/-- A memory stays in address order, and a second write of one address replaces the first. -/
theorem test_memory :
    Memory.writeAll ([] : Memory Word) [(5, 1), (2, 2), (9, 3), (5, 4)] = [(2, 2), (5, 4), (9, 3)] ∧
    Memory.wf ([(2, 2), (2, 3)] : Memory Word) = false := by decide

/-- R56: byte 0 of a cell is its least significant. -/
theorem test_bytes :
    (running [] [(1, 0x0102)]).dmByte 16 = 2 ∧ (running [] [(1, 0x0102)]).dmByte 17 = 1 ∧
    (program [0x11223344#32]).cmByte 3 = 0x11 := by decide +kernel

/-! ### The data path -/

/-- R95: entries of the table for `E = 3` and `E = 10` (V9), and a conjugate. -/
theorem test_twiddles :
    Twiddle.twrom 3 1 = { re := 0x3fe6a09e667f3bcd#64, im := 0xbfe6a09e667f3bcd#64 } ∧
    Twiddle.twrom 10 1 = { re := 0x3fefffd8858e8a92#64, im := 0xbf7921f0fe670071#64 } ∧
    Twiddle.twrom 10 (-1) = { re := 0x3fefffd8858e8a92#64, im := 0x3f7921f0fe670071#64 } := by decide +kernel

/-- The butterfly of tier `F64`. -/
def bfly64 (a b w : Cplx F64) : Cplx F64 × Cplx F64 := f64Numerics.bfly a b w

/-- T3: zeros. -/
theorem test_bfly_zeros :
    bfly64 { re := F64.neg 0, im := F64.neg 0 } { re := F64.neg 0, im := F64.neg 0 } { re := F64.ofInt 1, im := 0 } =
      ({ re := 0, im := F64.neg 0 }, { re := F64.neg 0, im := 0 }) := by decide +kernel

/-- T3: an infinity. The NaN part is known to be a NaN and nothing else. -/
theorem test_bfly_infinity :
    let r := bfly64 { re := 0, im := 0 } { re := 0x7ff0000000000000#64, im := 0 } { re := 0, im := F64.ofInt (-1) }
    F64.isNaN r.1.re = true ∧ r.1.im = 0xfff0000000000000#64 ∧ r.2.im = 0x7ff0000000000000#64 :=
  ⟨Laws.isNaN_add_right _ _ (Laws.isNaN_sub_left _ _ (Laws.isNaN_mul_zero_inf _ _ (by decide +kernel) (by decide +kernel))),
    by decide +kernel, by decide +kernel⟩

/-- The tables of R121 for `M = 3`. -/
theorem test_rev : (List.range 8).map (rev 3) = [0, 4, 2, 6, 1, 5, 3, 7] := by decide

/-! ### The host's routines -/

/-- T11.6. -/
theorem test_requant :
    requantByte f64Tier .wrap { re := F64.ofInt 256, im := 0 } = 0 ∧
    requantByte f64Tier .saturate { re := F64.ofInt (-1), im := 0 } = 0 ∧
    requantInt f64Tier { re := 0xbffe666666666666#64, im := 0 } = BitVec.ofInt 32 (-1) := by decide +kernel

/-- A byte image. -/
def bytes (rows cols : Nat) (vs : List Byte) : Image F64 := .byte { rows := rows, cols := cols, entries := vs }

/-- T12: `idealLPF(4, 1)` and the second row of the `mse` table; and the mean 55/6 of T11.3, rounded once. -/
theorem test_host_software :
    (idealLPF f64Numerics 4 1).entries.map (fun z => decide (z.re = F64.ofInt 1)) =
      [false, false, false, false, false, false, true, false, false, true, true, true, false, false, true, false] ∧
    mse f64Tier (bytes 2 2 [10, 20, 30, 40]) (bytes 2 2 [15, 25, 35, 45]) = .ok (F64.ofInt 25) ∧
    mse f64Tier (bytes 3 2 [1, 2, 3, 4, 5, 6]) (bytes 3 2 [1, 1, 1, 1, 1, 1]) = .ok 0x4022555555555555#64 := by decide +kernel

/-- The error of an argument. -/
def errorOf {ε α : Type} : Except ε α → Option ε
  | .ok _ => none
  | .error e => some e

/-- T11.5: the driver's checks, and regions that do not fit (R192). -/
theorem test_driver_checks :
    fft1d f64Tier tp 0 (bytes 2 1 [0, 0]) 4 = .error (.code .shape) ∧
    fft1d f64Tier tp 0 (bytes 1 1 [0]) 6 = .error (.code .order) ∧
    fft1d f64Tier tp 0 (bytes 1 5 [1, 2, 3, 4, 5]) 4 = .error (.code .size) ∧
    fft2d f64Tier tp 0 (bytes 0 0 []) = .error (.code .shape) ∧
    errorOf (fft1dJob f64Tier tp 0 253 (bytes 1 1 [0]) 4) = some (.code .addr) := by decide +kernel

/-- P3: the first words and the length of the expansion. -/
theorem test_expansion :
    (programsOf 128 (fft2dGroups 0 16 32 4 4 2 .byte)).map (fun ps => ps.map fun p => (p.length, (p.take 6).map encode)) =
      some [(56, [0x10000000#32, 0x11000004#32, 0x14000004#32, 0x12000010#32, 0x13000004#32, 0x50000002#32])] := by
  decide +kernel

/-- R180 (a), (g): a base of `2^24` has no SETD, and a short `CM` gets the expansion in several runs. -/
theorem test_programs :
    setd .SRC (2^24) = none ∧ setd .SRC (2^24 - 1) = some (.setd .SRC 0xFFFFFF#24) ∧
    (programsOf 8 (fft2dGroups 0 16 32 4 4 2 .byte)).map (fun ps => (ps.length, ps.map List.length)) =
      some (9, [7, 7, 7, 7, 7, 7, 7, 7, 8]) ∧
    programsOf 6 (fft1dGroups 0 16 3 2 .byte) = none := by decide +kernel

/-- A stopped instance with the parameters of the vectors. -/
def stopped : State := { State.reset with par := tp }

/-- The answer of a call. -/
def answer {α S : Type} : Host.Outcome (Except DriverError α × S) Fault Refusal → Option (Except DriverError α)
  | .next r => some r.1
  | .fault _ => none
  | .refused _ => none

/-- V1 by the run protocol: `[1, 1, 1]` padded to 4. -/
theorem test_fft1d_call :
    answer (fft1dCall f64Port 0 16 (bytes 1 3 [1, 1, 1]) 4 stopped) =
      some (.ok [{ re := F64.ofInt 3, im := 0 }, { re := 0, im := F64.ofInt (-1) }, { re := F64.ofInt 1, im := 0 },
        { re := 0, im := F64.ofInt 1 }]) := by decide +kernel

/-- How a run ends, and the registers it leaves. -/
def ending : Host.Outcome (Except RunError (List Cell) × State) Fault Refusal →
    Option (Except RunError (List Cell) × List Nat)
  | .next r => some (r.1, regs r.2)
  | .fault _ => none
  | .refused _ => none

/-- R253, step 5: a run that ends in `ERR` reports `ERR` and `EPC`, and leaves the block cleared; a busy block is left
alone. -/
theorem test_protocol_faults :
    ending (runProgram f64Port [] [.setd .LEN 1, .qshift 11, .halt] [] stopped) =
      some (.error (.fault 5 1), [0, 0, 0, 0]) ∧
    ending (runProgram f64Port [] [.halt] [] (running [] [])) = some (.error .busy, [1, 0, 0, 0]) := by decide +kernel

/-- The source's 2D scenario, through the block and back: a constant image survives the ideal kernel of radius 0. -/
theorem test_data_flow :
    answer (filteredCall f64Port .wrap 0 4 8 (bytes 2 2 [7, 7, 7, 7]) (some (idealLPF f64Numerics 2 0)) stopped) =
      some (.ok (bytes 2 2 [7, 7, 7, 7])) := by decide +kernel

/-- R180 (a) with R192, and the choices of log entry 17: a filter step and an empty input whose regions do not lie below
`DM_CELLS`. -/
theorem test_regions_past_memory :
    answer (filterCall f64Port (tp.dmCells - 3) 2 (idealLPF f64Numerics 2 0) stopped) = some (.error (.code .addr)) ∧
    (fft1dJob f64Tier tp (tp.dmCells + 1) 0 (bytes 1 0 []) 1).isOk = false ∧
    (fft1dJob f64Tier tp tp.dmCells 0 (bytes 1 0 []) 1).isOk = true := by decide +kernel

/-! ### Witnesses: states and operands that meet the hypotheses of each obligation -/

/-- `EncodeOfDecode`, and `DecodeOfEncode` at the largest operands: `test_wf_largest`. -/
theorem witness_EncodeOfDecode : decode 0x48F003FF#32 = .ok (.bflyI 15 1023) ∧ decode 0#32 = .ok .halt := by decide

/-- `IllegalWordsAreExactlyThose`: a fetched illegal word (the words of `test_decode_illegal` meet each case) and a
fetched legal one. -/
theorem witness_IllegalWordsAreExactlyThose :
    (program [0x17000000#32]).fetch = some 0x17000000#32 ∧ 7 ≤ bits 0x17000000#32 27 24 ∧
    (program [0x16FFFFFF#32]).fetch = some 0x16FFFFFF#32 ∧ ¬ 7 ≤ bits 0x16FFFFFF#32 27 24 := by decide +kernel

/-- `OpcodeRowsMatchDecoding`: a word matches `SETD`'s row and names no register, or names one. -/
theorem witness_OpcodeRowsMatchDecoding :
    0x17000000#32 &&& 0xF0000000#32 = 0x10000000#32 ∧ ¬ bits 0x17000000#32 27 24 ≤ 6 ∧ bits 0x16000000#32 27 24 ≤ 6 := by
  decide

/-- `StepRunsTheDecodedCommand`, at the last word of `CM`. -/
theorem witness_StepRunsTheDecodedCommand :
    let s := { program [] with cpc := 63, cm := [(63, 0x20000003#32)] }
    s.par.ok = true ∧ s.status = .run ∧ s.cpc.toNat < s.par.cmWords ∧ s.turns = [] ∧
      decode (s.word s.cpc.toNat) = .ok (.brtab 3) ∧ ({ s with turns := [.seq] }).turns = .seq :: [] := by decide +kernel

/-- `FetchAndDecodeFaults`: `cpc` at `CM_WORDS` and one below it. -/
theorem witness_FetchAndDecodeFaults :
    let s := { program [] with cpc := 64 }
    let t := { program [] with cpc := 63, cm := [(63, 0x5C000000#32)] }
    s.par.ok = true ∧ s.turns = [] ∧ s.status = .run ∧ s.par.cmWords ≤ s.cpc.toNat ∧
      t.par.ok = true ∧ t.turns = [] ∧ t.status = .run ∧ t.cpc.toNat < t.par.cmWords ∧
      decode (t.word t.cpc.toNat) = .error .badType := by decide +kernel

/-- `StoppedSequencerDoesNothing` and `HostMovesAreWholeSteps`, and a state with illegal parameters. -/
theorem witness_turns :
    State.reset.par.ok = true ∧ State.reset.status ≠ .run ∧ State.reset.turns = [] ∧
    ({ State.reset with turns := [.seq] }).turns = .seq :: [] ∧
    ({ State.reset with turns := [.host .reset] }).turns = .host .reset :: [] ∧
    ({ State.reset with par := { tp with mmax := 16 } }).par.ok = false := by decide +kernel

/-- `ChecksInOrder`: each of its four cases, where they meet. The last source address is 256, then 255. -/
theorem witness_ChecksInOrder :
    tp.mmax < orderField (.fftB 11) ∧
    (orderField (.fftB 10) ≤ tp.mmax ∧ readsLen (.fftB 10) = true ∧ 2^10 < (running [0, 0, 0, 0, 1025] []).d.len.toNat) ∧
    (¬ 2^2 < (running [0, 0, 0, 0, 4] []).d.len.toNat ∧ 256 ∈ srcSet (.fftB 2) (running [253, 1, 0, 1, 4] []).d) ∧
    (∀ a, a ∈ srcSet (.fftB 2) (running [252, 1, 0, 1, 4] []).d ∨ a ∈ dstSet (.fftB 2) (running [252, 1, 0, 1, 4] []).d →
      ¬ tp.dmCells ≤ a) := by
  refine ⟨by decide, by decide, by decide, ?_⟩
  intro a h
  have h : a ∈ srcSet (.fftB 2) (running [252, 1, 0, 1, 4] []).d ++ dstSet (.fftB 2) (running [252, 1, 0, 1, 4] []).d :=
    List.mem_append.2 h
  exact (by decide : ∀ a ∈ srcSet (.fftB 2) (running [252, 1, 0, 1, 4] []).d ++
    dstSet (.fftB 2) (running [252, 1, 0, 1, 4] []).d, ¬ tp.dmCells ≤ a) a h

/-- `FaultsDoNotDependOnData`: two states that differ in their data. -/
theorem witness_FaultsDoNotDependOnData :
    let s := running [0, 1, 8, 1, 2] [(0, 1), (1, 2)]
    let s' := running [0, 1, 8, 1, 2] [(0, 3), (1, 4)]
    s.par = s'.par ∧ s.d = s'.d ∧ s.cpc = s'.cpc ∧ s.status = s'.status ∧ s.err = s'.err ∧ s.epc = s'.epc ∧ s ≠ s' ∧
      exec (.fftB 1) s = .next (after (exec (.fftB 1) s)) ∧ exec (.fftB 1) s' = .next (after (exec (.fftB 1) s')) :=
  ⟨rfl, rfl, rfl, rfl, rfl, rfl, by decide +kernel, eq_next_after (by decide +kernel), eq_next_after (by decide +kernel)⟩

/-- `FaultsArePrecise`: a FetchError and an AddrError. -/
theorem witness_FaultsArePrecise :
    let s := { program [] with cpc := 64 }
    let t := { running [0, 0, 0, 0xFFFFFF] [] with cm := [(0, 0x20000001#32)] }
    s.status = .run ∧ runStep s = .next (after (runStep s)) ∧ (after (runStep s)).status = .err ∧
      t.status = .run ∧ runStep t = .next (after (runStep t)) ∧ (after (runStep t)).status = .err :=
  ⟨rfl, eq_next_after (by decide +kernel), by decide +kernel, rfl, eq_next_after (by decide +kernel), by decide +kernel⟩

/-- `BrtabWritesTheTable`, up to the last cell of `DM`; the last of four writes to one cell, and the only one to its own. -/
theorem witness_BrtabWritesTheTable :
    let s := running [0, 0, 248, 1] []
    3 ≤ s.par.mmax ∧ (∀ i < 2^3, s.d.dst.toNat + i * s.d.dstr.toNat < s.par.dmCells) ∧
      s.d.dst.toNat + 7 * s.d.dstr.toNat = 255 := by decide +kernel

/-- The clauses on the last write to a cell. -/
theorem witness_lastWrite :
    lastWrite (running [0, 0, 12, 0] []).d.dstElem (2^2) 3 ∧ lastWrite (running [0, 0, 12, 1] []).d.dstElem (2^2) 0 ∧
    ¬ lastWrite (running [0, 0, 12, 0] []).d.dstElem (2^2) 0 := by
  refine ⟨?_, ?_, ?_⟩
  · intro j h1 h2; omega
  · intro j h1 h2
    have : j = 1 ∨ j = 2 ∨ j = 3 := by omega
    rcases this with rfl | rfl | rfl <;> decide
  · intro h; exact h 1 (by decide) (by decide) (by decide)

/-- `BrpermPermutesTheVector`, up to the last cell of `DM` on both sides. -/
theorem witness_BrpermPermutesTheVector :
    let s := running [249, 2, 252, 1] []
    2 ≤ s.par.mmax ∧ (∀ j < 2^2, s.d.src.toNat + j * s.d.sstr.toNat < s.par.dmCells) ∧
      (∀ i < 2^2, s.d.dst.toNat + i * s.d.dstr.toNat < s.par.dmCells) := by decide +kernel

/-- `BflyDoesOneButterfly`, both commands at the last cells of `DM`, with separate destinations. -/
theorem witness_BflyDoesOneButterfly :
    let s := running [255, 0, 254, 1] t4
    10 ≤ s.par.mmax ∧ s.d.src.toNat < s.par.dmCells ∧ s.d.src.toNat + s.d.sstr.toNat < s.par.dmCells ∧
      s.d.dst.toNat < s.par.dmCells ∧ s.d.dst.toNat + s.d.dstr.toNat < s.par.dmCells ∧ s.d.dstr ≠ 0 ∧
      (Instr.bflyF 10 3 = .bflyF 10 3 ∧ (3 : Int) = (3 : Nat)) ∧ (Instr.bflyI 10 3 = .bflyI 10 3 ∧ (-3 : Int) = -(3 : Nat)) := by
  decide +kernel

/-- `FftWritesTheSpectrum`, `IfftWritesTheSequence`: four source cells and eight destination cells, both up to the end of
`DM`; and an empty input whose source addresses lie outside. -/
theorem witness_TransformRuns :
    TransformRuns 3 (running [252, 1, 248, 1, 4] []) ∧ TransformRuns 0 (running [0xFFFFFF, 1, 255, 9, 0] []) :=
  ⟨⟨by decide, by decide, by decide, by decide⟩, ⟨by decide, by decide, by decide, by decide⟩⟩

/-- `QshiftSwapsQuadrants`, up to the last cell of `DM` on both sides, and the clause on the last write. -/
theorem witness_QshiftSwapsQuadrants :
    let s := running [240, 1, 240, 1, 0, 4, 4] []
    2 ≤ s.par.mmax ∧
      (∀ r < 2^2, ∀ c < 2^2, s.d.src.toNat + r * s.d.spitch.toNat + c * s.d.sstr.toNat < s.par.dmCells) ∧
      (∀ r < 2^2, ∀ c < 2^2, s.d.dst.toNat + r * s.d.dpitch.toNat + c * s.d.dstr.toNat < s.par.dmCells) ∧
      lastEntry s.d.dstAt (2^2) 3 3 := by
  refine ⟨by decide, by decide, by decide, ?_⟩
  intro r hr c hc h; omega

/-- The state after reset is legal. -/
theorem witness_reset_inv : State.reset.Inv where
  par := by decide
  cmWf := rfl
  dmWf := rfl
  cmBelow := by simp [Memory.below, State.reset]
  dmBelow := by simp [Memory.below, State.reset]
  cpcLe := by decide
  quiet := fun _ => ⟨rfl, rfl⟩
  fault := by decide
  fetch := by decide
  idle := fun _ => ⟨rfl, rfl⟩
  done := by decide

/-- A running legal state with a program of one command, `BRTAB 2`, which owns cells 8 to 11. -/
def oneCommand : State := { running [0, 0, 8, 1] [(3, 7), (20, 9)] with cm := [(0, 0x20000002#32), (1, 0#32)] }

theorem witness_running_inv : oneCommand.Inv where
  par := by decide
  cmWf := by decide
  dmWf := by decide
  cmBelow := by simp [Memory.below, oneCommand, running, tp]
  dmBelow := by simp [Memory.below, oneCommand, running, tp]
  cpcLe := by decide
  quiet := fun _ => ⟨rfl, rfl⟩
  fault := by decide
  fetch := by decide
  idle := by decide
  done := by decide

/-- `StepKeepsLegalStates`, a step of the program and a host's move. -/
theorem witness_StepKeepsLegalStates :
    step oneCommand = .next (after (step oneCommand)) ∧
    (let s := { State.reset with turns := [Turn.host (.csrWrite 0 1)] }
     step s = .next (after (step s)) ∧ (after (step s)).status = .run) :=
  ⟨eq_next_after (by decide +kernel), eq_next_after (by decide +kernel), by decide +kernel⟩

/-- `StatusTransitions`: moves of the sequencer, and a host move that is neither a reset nor a write of `CTRL`. -/
theorem witness_StatusTransitions :
    sequencerMove oneCommand = .next (after (sequencerMove oneCommand)) ∧
    hostMove (.dmWrite 255 1) oneCommand = .next (after (hostMove (.dmWrite 255 1) oneCommand)) ∧
    HostOp.dmWrite 255 (1 : Cell) ≠ .reset ∧ (∀ v, HostOp.dmWrite 255 (1 : Cell) ≠ .csrWrite 0 v) :=
  ⟨eq_next_after (by decide +kernel), eq_next_after (by decide +kernel), by decide, by simp⟩

/-- `OnlySetdWritesDescriptors`. -/
theorem witness_OnlySetdWritesDescriptors :
    let t := after (exec (.setd .LEN 9) oneCommand)
    exec (.setd .LEN 9) oneCommand = .next t ∧ t.d.get .LEN ≠ oneCommand.d.get .LEN :=
  ⟨eq_next_after (by decide +kernel), by decide +kernel⟩

/-- `CpcAdvancesByOne`: a step that stays in `RUN`, at the last word of `CM`, and one that leaves it. -/
theorem witness_CpcAdvancesByOne :
    let s := { program [] with cpc := 63, cm := [(63, 0x14000001#32)] }
    let t := { program [] with cpc := 64 }
    s.par.ok = true ∧ s.status = .run ∧ s.cpc.toNat ≤ s.par.cmWords ∧ runStep s = .next (after (runStep s)) ∧
      (after (runStep s)).status = .run ∧
      t.par.ok = true ∧ t.status = .run ∧ t.cpc.toNat ≤ t.par.cmWords ∧ runStep t = .next (after (runStep t)) ∧
      (after (runStep t)).status ≠ .run :=
  ⟨by decide, rfl, by decide, eq_next_after (by decide +kernel), by decide +kernel, by decide, rfl, by decide,
    eq_next_after (by decide +kernel), by decide +kernel⟩

/-- `ProgramsCannotChangeCommandMemory` (a storing command), and `EveryRunEnds`. -/
theorem witness_EveryRunEnds :
    sequencerMove oneCommand = .next (after (sequencerMove oneCommand)) ∧
    oneCommand.par.ok = true ∧ oneCommand.status = .run ∧ oneCommand.turns = [] ∧
    oneCommand.cpc.toNat ≤ oneCommand.par.cmWords :=
  ⟨eq_next_after (by decide +kernel), by decide, rfl, rfl, by decide⟩

/-- `CtrlClearsThenStarts`, `CsrMap`, `ResetPulse`: states in each `STATUS`. -/
theorem witness_CtrlClearsThenStarts :
    oneCommand.status = .run ∧ (oneCommand.raise .addr).status = .err ∧ oneCommand.finish.status = .done ∧
    State.reset.status = .idle ∧ oneCommand.par.ok = true ∧ (15 : Nat) ≤ 15 ∧ (14 : Nat) ≠ 0 := by decide +kernel

/-- `StartForgetsThePreviousRun`: two stopped states with other registers, NaN draws and moves to come, and the same
memories; and a third in `ERR`. -/
theorem witness_StartForgetsThePreviousRun :
    let s := oneCommand.finish
    let s' : State := { oneCommand.finish with
      d := { Desc.zero with len := 77 }, cpc := 9, status := .idle, draws := 5, turns := [.seq] }
    let e := s'.raise .addr
    (s.status = .idle ∨ s.status = .done) ∧ (s'.status = .idle ∨ s'.status = .done) ∧ s.par = s'.par ∧ s.cm = s'.cm ∧
      s.dm = s'.dm ∧ s.boot = s'.boot ∧ s.draws ≠ s'.draws ∧ s.turns ≠ s'.turns ∧ s.d ≠ s'.d ∧
      s.status ≠ .run ∧ e.status = .err ∧ e.par = s.par ∧ e.cm = s.cm ∧ e.dm = s.dm ∧ e.boot = s.boot := by decide +kernel

/-- `HostReadsBackItsWrites`: the last and the first address outside, of both memories. -/
theorem witness_HostReadsBackItsWrites :
    let s := oneCommand.finish
    s.status ≠ .run ∧ 255 < s.par.dmCells ∧ s.par.dmCells ≤ 256 ∧ 63 < s.par.cmWords ∧ s.par.cmWords ≤ 64 := by
  decide +kernel

/-- `HostOwnershipDuringRun` and `UnownedCellsCannotBeSeen`: cells 8 and 11 are owned, cells 7, 12 and 255 are not. -/
theorem witness_HostOwnershipDuringRun :
    oneCommand.status = .run ∧ oneCommand.owned 8 = true ∧ oneCommand.owned 11 = true ∧ oneCommand.owned 7 = false ∧
    oneCommand.owned 12 = false ∧ oneCommand.owned 255 = false ∧ 255 < oneCommand.par.dmCells ∧
    oneCommand.turns = [] ∧ step oneCommand = .next (after (step oneCommand)) ∧
    (after (step oneCommand)).status = .run :=
  ⟨rfl, by decide +kernel, by decide +kernel, by decide +kernel, by decide +kernel, by decide +kernel, by decide, rfl,
    eq_next_after (by decide +kernel), by decide +kernel⟩

/-- `BitReversalProperties`: the largest index of an order. -/
theorem witness_BitReversalProperties : 7 < 2^3 ∧ (∀ t < 3, Nat.testBit 5 t = Nat.testBit 5 (3 - 1 - t)) := by decide

/-- `BrpermTwiceRestores`: the second command moves cells 8 to 11 back over the first four. -/
theorem witness_BrpermTwiceRestores :
    let s := running [0, 1, 8, 1] (from_ 0 [1, 2, 3, 4])
    let t := after (exec (.brperm 2) s)
    let u := { t with d := { t.d with src := 8, dst := 0 } }
    let v := after (exec (.brperm 2) u)
    exec (.brperm 2) s = .next t ∧ s.status = .run ∧ t.status = .run ∧ u.dm = t.dm ∧ u.boot = t.boot ∧
      u.status = .run ∧ u.d.src = s.d.dst ∧ u.d.sstr = s.d.dstr ∧ exec (.brperm 2) u = .next v ∧ v.status = .run ∧
      (s.d.dstr ≠ 0 ∨ 2 = 0) ∧ (u.d.dstr ≠ 0 ∨ 2 = 0) :=
  ⟨eq_next_after (by decide +kernel), rfl, by decide +kernel, rfl, rfl, by decide +kernel, by decide +kernel,
    by decide +kernel, eq_next_after (by decide +kernel), by decide +kernel, by decide +kernel, by decide +kernel⟩

/-- Entries of a matrix of extent 2 stored without overlap. -/
theorem lastEntry_of_distinct (f : Nat → Nat → Nat)
    (h : ∀ r c r' c' : Fin 2, f r' c' = f r c → r' = r ∧ c' = c) :
    ∀ r < 2^1, ∀ c < 2^1, lastEntry f (2^1) r c := by
  intro r hr c hc r' hr' c' hc' later same
  have := h ⟨r, hr⟩ ⟨c, hc⟩ ⟨r', hr'⟩ ⟨c', hc'⟩ same
  simp only [Fin.mk.injEq] at this
  omega

/-- `QshiftTwiceRestores`: cells 0 to 3 to cells 8 to 11 and back. -/
theorem witness_QshiftTwiceRestores :
    let s := running [0, 1, 8, 1, 0, 2, 2] (from_ 0 [1, 2, 3, 4])
    let t := after (exec (.qshift 1) s)
    let u := { t with d := { t.d with src := 8, dst := 0 } }
    let v := after (exec (.qshift 1) u)
    exec (.qshift 1) s = .next t ∧ s.status = .run ∧ t.status = .run ∧ u.dm = t.dm ∧ u.boot = t.boot ∧
      u.status = .run ∧ u.d.src = s.d.dst ∧ u.d.sstr = s.d.dstr ∧ u.d.spitch = s.d.dpitch ∧
      exec (.qshift 1) u = .next v ∧ v.status = .run ∧ (∀ r < 2^1, ∀ c < 2^1, lastEntry s.d.dstAt (2^1) r c) ∧
      (∀ r < 2^1, ∀ c < 2^1, lastEntry u.d.dstAt (2^1) r c) :=
  ⟨eq_next_after (by decide +kernel), rfl, by decide +kernel, rfl, rfl, by decide +kernel, by decide +kernel,
    by decide +kernel, by decide +kernel, eq_next_after (by decide +kernel), by decide +kernel,
    lastEntry_of_distinct _ (by decide +kernel), lastEntry_of_distinct _ (by decide +kernel)⟩

/-- `RoundsToNearestTiesToEven`: a value below infinity that is a tie (2^53 + 1 units over 2), and the first that rounds
to infinity. -/
theorem witness_rounding :
    0 < 2 ∧ F64.roundMag (2^53 + 1) 1 < F64.infMag ∧
    |(F64.magUnits (F64.roundMag (2^53 + 1) 1) * (1 : Nat) : Int) - (2^53 + 1 : Nat)| =
      |(F64.magUnits (F64.roundMag (2^53 + 1) 1 + 1) * (1 : Nat) : Int) - (2^53 + 1 : Nat)| ∧
    F64.roundMag ((2^54 - 1) * 2^2044) 1 = F64.infMag ∧ F64.roundMag ((2^54 - 1) * 2^2044 - 1) 1 < F64.infMag := by
  decide +kernel

/-- `RoundsToNearestTiesToEven`: operands of each kind, the finite ones with a sum and a difference that are not zero. -/
theorem witness_RoundsToNearestTiesToEven :
    let one := F64.ofInt 1
    let inf := F64.ofMag false F64.infMag
    F64.isFinite one = true ∧ F64.isFinite (F64.ofInt (-3)) = true ∧ F64.units one + F64.units (F64.ofInt (-3)) ≠ 0 ∧
    F64.units one - F64.units (F64.ofInt (-3)) ≠ 0 ∧ F64.units (F64.ofInt (-3)) ≠ 0 ∧
    F64.isNaN 0x7ff0000000000001#64 = true ∧ F64.isInf inf = true ∧ F64.isInf (F64.neg inf) = true ∧
    F64.sign inf ≠ F64.sign (F64.neg inf) ∧ F64.sign inf = F64.sign inf ∧
    F64.mag (F64.neg 0) = 0 ∧ F64.mag one ≠ 0 := by decide +kernel

/-- `SignsOfZeroResults` and `DivisionByNIsScaling`: a finite value of either sign, the largest included, and a NaN. -/
theorem witness_finite :
    F64.isFinite 0x8000000000000000#64 = true ∧ F64.isFinite 0x7fefffffffffffff#64 = true ∧ (15 : Nat) ≤ 15 ∧
    F64.isNaN 0x7fefffffffffffff#64 = false ∧ F64.isNaN 0xfff8000000000000#64 = true := by
  decide +kernel

/-- `ButterflyInExactArithmetic`: a twiddle of modulus 1. -/
theorem witness_ButterflyInExactArithmetic : ‖toComplex ({ re := 0, im := -1 } : Cplx ℝ)‖ = 1 := by
  have : toComplex ({ re := 0, im := -1 } : Cplx ℝ) = -Complex.I := by apply Complex.ext <;> simp [toComplex]
  rw [this]; simp

/-- `ButterfliesOfAStageCommute`: a stage, a buffer of its size, and its butterflies. -/
theorem witness_ButterfliesOfAStageCommute :
    1 < 2 ∧ (List.replicate 4 f64Numerics.czero).length = 2^2 ∧
    ([(0, 1), (0, 0)] : List (Nat × Nat)).Perm
      ((List.range (2^2 / 2^(1 + 1))).flatMap fun g => (List.range (2^1)).map fun i => (g, i)) := by
  refine ⟨by decide, rfl, ?_⟩
  exact List.Perm.swap _ _ _

/-- `SourceWordingIsTheSameTransform`, `ForwardEngineIsTheDft`, `InverseEngineIsTheInverseDft`,
`RoundTripInExactArithmetic`: an input of length `2^1`, and indices in range; the moduli of `TwiddleTableIsAccurate` and
`ExactTwiddleProperties`. -/
theorem witness_transforms :
    ([{ re := 1, im := 0 }, { re := 0, im := 2 }] : List (Cplx ℝ)).length = 2^1 ∧ 1 < 2^1 ∧ 1 ≤ 1 ∧ 0 < 2^(1 - 1) ∧
    (15 : Nat) ≤ 15 ∧ 0 < 3 := by
  refine ⟨rfl, by decide, by decide, by decide, by decide, by decide⟩

/-- `ForwardEngineIsTheDft` and `InverseEngineIsTheInverseDft`, the commands: an instance of tier IDEAL with four source
cells and eight destination cells up to the end of `DM`. -/
theorem witness_ideal_commands :
    let s := { IdealState.reset with
      par := tp, d := { src := 252, sstr := 1, dst := 248, dstr := 1, len := 4, spitch := 0, dpitch := 0 } }
    TransformRuns 3 s.control ∧ s.d.dstr ≠ 0 :=
  ⟨⟨by decide, by decide, by decide, by decide⟩, by decide⟩

/-- `ImpulseSpectrumBitForBit`: the instance V2, the impulse and its zeros in cells 0 to 7. -/
theorem witness_ImpulseSpectrumBitForBit :
    let s := running [0, 1, 8, 1, 8] (from_ 0 [1, 0, 0, 0, 0, 0, 0, 0])
    TransformRuns 3 s ∧ 1 ≤ s.d.len.toNat ∧ byteOf (s.cell s.d.src.toNat) = 1 ∧
      (∀ j < s.d.len.toNat, 1 ≤ j → byteOf (s.cell (s.d.src.toNat + j * s.d.sstr.toNat)) = 0) :=
  ⟨⟨by decide, by decide, by decide, by decide⟩, by decide, by decide +kernel, by decide +kernel⟩

/-- `EmptyInputGivesZeros`: T6.9 (b), the source outside `DM`, the destination up to its last cell. -/
theorem witness_EmptyInputGivesZeros :
    let s := running [0xFFFFFF, 0xFFFFFF, 248, 1, 0] []
    3 ≤ s.par.mmax ∧ s.d.len = 0 ∧ (∀ j < 2^3, s.d.dst.toNat + j * s.d.dstr.toNat < s.par.dmCells) := by decide +kernel

/-- `TwoDimensionalRoundTrip`: two columns of a 2 by 2 matrix, one of them short, and an image of 3 rows and 4 columns. -/
theorem witness_TwoDimensionalRoundTrip :
    (let cols : List (List (Cplx ℝ)) := [[{ re := 1, im := 0 }, { re := 2, im := 0 }], [{ re := 3, im := 0 }]]
     cols.length = 2^1 ∧ ∀ col ∈ cols, col.length ≤ 2^1) ∧
    (let x : Image ℝ := .byte { rows := 3, cols := 4, entries := List.replicate 12 9 }
     x.rows ≠ 0 ∧ x.cols ≠ 0 ∧ paddedOrder x.rows ≤ tp.mmax ∧ x.cols ≤ 2^(paddedOrder x.rows)) :=
  ⟨by simp, by decide⟩

/-- `RunningTheExpansions`: jobs of the four routines, their last region up to the end of `DM`, from a stopped state and from
an error; regions one cell too far; and a call that answers. -/
theorem witness_RunningTheExpansions :
    let line := bytes 1 3 [1, 1, 1]
    let square : Mat (Cplx F64) := { rows := 4, cols := 4, entries := List.replicate 16 f64Numerics.czero }
    stopped.par.ok = true ∧ stopped.status ≠ .run ∧ (stopped.raise .addr).status ≠ .run ∧
    errorOf (fft1dJob f64Tier tp 0 252 line 4) = none ∧ errorOf (fft1dJob f64Tier tp 0 253 line 4) = some (.code .addr) ∧
    errorOf (ifft1dJob f64Tier tp 0 252 { rows := 1, cols := 1, entries := [f64Numerics.czero] } 4) = none ∧
    errorOf (fft2dJob f64Tier tp 0 12 240 (bytes 3 4 (List.replicate 12 5))) = none ∧ 0 + 3 * 4 ≤ 12 ∧
    errorOf (fft2dJob f64Tier tp 0 12 241 (bytes 3 4 (List.replicate 12 5))) = some (.code .addr) ∧
    errorOf (ifft2dJob f64Tier tp 0 240 square 3 4) = none ∧ errorOf (ifft2dJob f64Tier tp 0 240 square 5 4) = some (.code .size) := by
  decide +kernel

/-- `MseIdentities` and `PsnrRules`: two images with pixels that differ by 5 in every pixel without saturation; the sum of the
squares is below 2^53. -/
theorem witness_MseIdentities :
    let p : Mat Byte := { rows := 2, cols := 2, entries := [10, 20, 30, 250] }
    let q : Mat Byte := { rows := 2, cols := 2, entries := [15, 25, 35, 255] }
    0 < p.rows * p.cols ∧ q.rows = p.rows ∧ q.cols = p.cols ∧
      (squares p q).sum < 2^53 ∧
      ∀ i < p.rows, ∀ j < p.cols, ((q.at 0 i j).toNat : Int) = (p.at 0 i j).toNat + 5 := by decide +kernel

/-- `PsnrRules`: an epsilon at the square of a shift and one above it, and images that do not match. -/
theorem witness_PsnrRules :
    (let eps : EpsPsnr := ⟨25, by norm_num⟩
     eps.1 ≤ ((5 : Int) : ℝ)^2) ∧
    (let eps : EpsPsnr := ⟨26, by norm_num⟩
     ((5 : Int) : ℝ)^2 < eps.1) ∧
    (let a := bytes 2 2 [0, 0, 0, 0]
     let b := bytes 2 3 [0, 0, 0, 0, 0, 0]
     a.rows ≠ b.rows ∨ a.cols ≠ b.cols ∨ a.ty ≠ .byte ∨ b.ty ≠ .byte) := by
  refine ⟨by norm_num, by norm_num, by decide⟩

/-- `KernelEntries`: the last entry of a kernel, a width, an exponential that is 1 at `-0`, a kernel of the extents of a
spectrum with a real entry, and a radius that reaches the corner. -/
theorem witness_KernelEntries :
    3 < 4 ∧ (0 : ℝ) < 1 ∧ (fun _ : F64 => F64.ofInt 1) (F64.neg 0) = F64.ofInt 1 ∧ F64.isNaN (F64.ofInt 1) = false ∧
    F64.sign (F64.ofInt 1) = false ∧ F64.mag (F64.ofInt 1) ≠ 0 ∧
    (let s : Mat (Cplx ℝ) := { rows := 1, cols := 1, entries := [{ re := 2, im := 3 }] }
     let k : Mat (Cplx ℝ) := { rows := 1, cols := 1, entries := [{ re := 4, im := 0 }] }
     s.rows = k.rows ∧ s.cols = k.cols ∧ (k.at idealNumerics.czero 0 0).im = 0) ∧
    ((4 / 2 : Nat) : ℝ) * Real.sqrt 2 ≤ 2 * Real.sqrt 2 :=
  ⟨by decide, one_pos, rfl, by decide +kernel, by decide +kernel, by decide +kernel, ⟨rfl, rfl, rfl⟩, by norm_num⟩

end Sys2Proof.Tests
end

/-! # The state of the block: proofs of the statements about `10_state.md`

First the rules: what one move of the sequencer, of the host and of the whole machine can do, and what `CTRL`, the CSRs and
the invariant do under each operation. The statements are settled at the end, from these rules. -/

namespace Sys2Proof.Proofs

open Sys2Proof.Machine Sys2Proof.Laws

variable {s t : State}

/-! ### The parameters (`00_scope.md` R5) -/

/-- The bounds that the constraint column of R5 states. -/
theorem params_ok_iff (p : Params) :
    p.ok = true ↔ p.mmax ≤ 15 ∧ 1 ≤ p.dmCells ∧ p.dmCells ≤ 2^24 ∧ 1 ≤ p.cmWords ∧ p.cmWords ≤ 65535 := by
  simp [Params.ok, and_assoc]

/-- `cpc` does not wrap below `CM_WORDS` (`10_state.md` R25): R5 allows at most 65535 words. -/
theorem cpc_succ_toNat (hok : s.par.ok = true) (hpc : s.cpc.toNat < s.par.cmWords) :
    (s.cpc + 1).toNat = s.cpc.toNat + 1 := by
  obtain ⟨-, -, -, -, hcm⟩ := (params_ok_iff s.par).1 hok
  rw [BitVec.toNat_add_of_lt (by change s.cpc.toNat + 1 < 65536; omega)]
  rfl

/-! ### The sequencer's move (`10_state.md` R26) -/

theorem runStep_past_end (hpc : s.par.cmWords ≤ s.cpc.toNat) : runStep s = .next (s.raise .fetch) := by
  simp [runStep, State.fetch, hpc]

theorem runStep_of_decode_error (hpc : s.cpc.toNat < s.par.cmWords) {e : Reject}
    (hd : decode (s.word s.cpc.toNat) = .error e) : runStep s = .next (s.raise .illegal) := by
  simp [runStep, State.fetch, Nat.not_le.2 hpc, hd]

theorem runStep_of_decode_ok (hpc : s.cpc.toNat < s.par.cmWords) {i : Instr}
    (hd : decode (s.word s.cpc.toNat) = .ok i) : runStep s = exec i s := by
  simp [runStep, State.fetch, Nat.not_le.2 hpc, hd]

theorem sequencerMove_running (hs : s.status = .run) : sequencerMove s = runStep s := by
  simp [sequencerMove, hs]

theorem sequencerMove_stopped (hs : s.status ≠ .run) : sequencerMove s = .next s := by
  unfold sequencerMove
  cases h : s.status with
  | run => exact absurd h hs
  | idle => rfl
  | done => rfl
  | err => rfl

/-- What a step of a running program can leave (R26, `60_exceptions.md` R225 to R228). -/
inductive RunStepEnd (s : State) : State → Prop
  /-- The fetch at or past `CM_WORDS`. -/
  | fetchFault (hpc : s.par.cmWords ≤ s.cpc.toNat) : RunStepEnd s (s.raise .fetch)
  /-- A word that spells no command, or a check that fails. -/
  | commandFault (hpc : s.cpc.toNat < s.par.cmWords) (f : FaultCode) (hblock : f.isBlocks = true) (hfetch : f ≠ .fetch) :
      RunStepEnd s (s.raise f)
  /-- HALT. -/
  | halt (hpc : s.cpc.toNat < s.par.cmWords) : RunStepEnd s s.finish
  /-- Any other command, its checks passed. -/
  | completes (hpc : s.cpc.toNat < s.par.cmWords) (i : Instr) (hpass : faultOf i s.par s.d = none) :
      RunStepEnd s (completed i s)

theorem runStep_end (h : runStep s = .next t) : RunStepEnd s t := by
  rcases runStep_cases s with ⟨hpc, hrun⟩ | ⟨hpc, ⟨e, -, hrun⟩ | ⟨i, -, hrun⟩⟩
  · cases hrun.symm.trans h
    exact .fetchFault hpc
  · cases hrun.symm.trans h
    exact .commandFault hpc .illegal rfl (by decide)
  · rcases exec_cases (hrun.symm.trans h) with ⟨f, hf, rfl⟩ | ⟨-, rfl⟩ | ⟨hpass, -, rfl⟩
    · rcases faultOf_cases hf with rfl | rfl | rfl
      · exact .commandFault hpc .order rfl (by decide)
      · exact .commandFault hpc .size rfl (by decide)
      · exact .commandFault hpc .addr rfl (by decide)
    · exact .halt hpc
    · exact .completes hpc i hpass

/-- The sequencer's move is a step of the running program, or changes nothing. -/
theorem sequencerMove_cases (h : sequencerMove s = .next t) :
    (s.status ≠ .run ∧ t = s) ∨ (s.status = .run ∧ RunStepEnd s t) := by
  by_cases hs : s.status = .run
  · exact .inr ⟨hs, runStep_end ((sequencerMove_running hs).symm.trans h)⟩
  · cases (sequencerMove_stopped hs).symm.trans h
    exact .inl ⟨hs, rfl⟩

/-! ### A write of `CTRL` (`10_state.md` R30) -/

theorem clear_running (hs : s.status = .run) : s.clear = s := by
  simp [State.clear, hs]

theorem clear_stopped (hs : s.status ≠ .run) : s.clear = { s.clearRegs with status := .idle } := by
  unfold State.clear
  cases h : s.status with
  | run => exact absurd h hs
  | idle => rfl
  | done => rfl
  | err => rfl

theorem start_running_or_err (hs : s.status = .run ∨ s.status = .err) : s.start = s := by
  rcases hs with hs | hs <;> simp [State.start, hs]

theorem start_idle_or_done (hs : s.status = .idle ∨ s.status = .done) :
    s.start = { s.clearRegs with status := .run } := by
  rcases hs with hs | hs <;> simp [State.start, hs]

/-- The value 3 clears and starts: from any stopped state, `ERR` included, a run begins. -/
theorem csrWrite_clear_and_start (hs : s.status ≠ .run) :
    s.csrWrite 0 3 = { s.clearRegs with status := .run } := by
  calc
    s.csrWrite 0 3 = s.clear.start := rfl
    _ = { s.clearRegs with status := .run } := by
      rw [clear_stopped hs, start_idle_or_done (.inl rfl)]
      rfl

/-- Two states with the same parameters and memories are cleared to the same registers: they differ in the model's own two
fields alone (log entries 2 and 5). -/
theorem clearRegs_agree {s s' : State} (hpar : s.par = s'.par) (hcm : s.cm = s'.cm) (hdm : s.dm = s'.dm)
    (hboot : s.boot = s'.boot) (st : RunState) :
    ({ s.clearRegs with status := st } : State) =
      { { s'.clearRegs with status := st } with draws := s.draws, turns := s.turns } := by
  simp [hpar, hcm, hdm, hboot]

/-- A write of `CTRL` changes nothing, or it clears a stopped block and leaves it in `IDLE` or in `RUN`. -/
theorem ctrlWrite_cases (s : State) (v : BitVec 32) :
    s.ctrlWrite v = s ∨
      (s.status ≠ .run ∧ ∃ st, (st = .idle ∨ st = .run) ∧ s.ctrlWrite v = { s.clearRegs with status := st }) := by
  unfold State.ctrlWrite
  by_cases hs : s.status = .run
  · exact .inl (by simp only [clear_running hs, start_running_or_err (.inl hs), ite_self])
  dsimp only
  split_ifs with hstart hclear hclear
  · refine .inr ⟨hs, .run, .inr rfl, ?_⟩
    rw [clear_stopped hs, start_idle_or_done (.inl rfl)]
    rfl
  · by_cases herr : s.status = .err
    · exact .inl (start_running_or_err (.inr herr))
    · have hstopped : s.status = .idle ∨ s.status = .done := by
        cases hst : s.status <;> simp [hst] at hs herr ⊢
      exact .inr ⟨hs, .run, .inr rfl, start_idle_or_done hstopped⟩
  · exact .inr ⟨hs, .idle, .inl rfl, clear_stopped hs⟩
  · exact .inl rfl

@[simp] theorem seqTransition_self (r : RunState) : seqTransition r r = true := by cases r <;> rfl

@[simp] theorem ctrlTransition_self (r : RunState) : ctrlTransition r r = true := by cases r <;> rfl

/-- Every stopped status can be left for `IDLE` and for `RUN` (R27). -/
theorem ctrlTransition_of_stopped {r st : RunState} (hr : r ≠ .run) (hst : st = .idle ∨ st = .run) :
    ctrlTransition r st = true := by
  cases r with
  | run => exact absurd rfl hr
  | _ => rcases hst with rfl | rfl <;> rfl

theorem ctrlWrite_transition (s : State) (v : BitVec 32) : ctrlTransition s.status (s.ctrlWrite v).status = true := by
  rcases ctrlWrite_cases s v with heq | ⟨hs, st, hst, heq⟩ <;> rw [heq]
  · exact ctrlTransition_self _
  · exact ctrlTransition_of_stopped hs hst

/-! ### The CSRs (`10_state.md` R33, R34) -/

theorem csrWrite_readOnly (s : State) {n : Nat} (v : BitVec 32) (hn : n ≠ 0) : s.csrWrite n v = s := by
  cases n with
  | zero => exact absurd rfl hn
  | succ n => rfl

theorem csrRead_desc (s : State) (r : Reg) : s.csrRead (8 + r.num) = (s.d.get r).setWidth 32 := by
  cases r <;> rfl

theorem csrRead_unlisted (s : State) {n : Nat} (hn : 15 ≤ n) : s.csrRead n = 0 := by
  obtain ⟨k, rfl⟩ := Nat.exists_eq_add_of_le' hn
  rfl

theorem csrRead_err (s : State) : (s.csrRead 2).toNat = s.err.code := by
  rw [State.csrRead]
  cases s.err <;> rfl

/-- The reset column of R34; 5, 6 and 7 are the parameters. -/
theorem csrRead_reset {n : Nat} (hn : n ≤ 4 ∨ 8 ≤ n) : State.reset.csrRead n = 0 := by
  rcases hn with hlow | hdesc
  · interval_cases n <;> rfl
  · rcases Nat.lt_or_ge n 15 with h | h
    · interval_cases n <;> rfl
    · exact csrRead_unlisted _ h

/-! ### The host's move (`20_memory.md` R58, R59) -/

/-- What a move of the host can leave. -/
inductive HostMoveEnd (s : State) : HostOp Cell → State → Prop
  /-- A read, an ignored CSR write, or a write outside the memories. -/
  | unchanged (op : HostOp Cell) : HostMoveEnd s op s
  | ctrl (v : BitVec 32) : HostMoveEnd s (.csrWrite 0 v) (s.ctrlWrite v)
  | word (i : Nat) (w : Word) (hi : i < s.par.cmWords) : HostMoveEnd s (.cmWrite i w) (s.storeWord i w)
  | cell (a : Nat) (c : Cell) (ha : a < s.par.dmCells) : HostMoveEnd s (.dmWrite a c) (s.writeCells [(a, c)])
  | reset : HostMoveEnd s .reset s.powerOn

theorem afterRead_next {α : Type} {answer : Host.Outcome α Fault Refusal} (h : afterRead answer s = .next t) : t = s := by
  cases answer with
  | next a => exact (Host.Outcome.next.inj h).symm
  | fault f => cases h
  | refused r => cases h

theorem hostMove_end {op : HostOp Cell} (h : hostMove op s = .next t) : HostMoveEnd s op t := by
  cases op with
  | csrRead n =>
    cases h
    exact .unchanged _
  | csrWrite n v =>
    cases h
    by_cases hn : n = 0
    · subst hn
      exact .ctrl v
    · rw [csrWrite_readOnly s v hn]
      exact .unchanged _
  | cmRead i =>
    cases afterRead_next h
    exact .unchanged _
  | cmWrite i w =>
    simp only [hostMove, cmWrite] at h
    split_ifs at h with howned hi <;> cases h
    · exact .word i w hi
    · exact .unchanged _
  | dmRead a =>
    cases afterRead_next h
    exact .unchanged _
  | dmWrite a c =>
    simp only [hostMove, dmWrite] at h
    split_ifs at h with howned ha <;> cases h
    · exact .cell a c ha
    · exact .unchanged _
  | reset =>
    cases h
    exact .reset

/-! ### The machine's step -/

theorem step_sequencer (hok : s.par.ok = true) (ht : s.turns = []) : step s = sequencerMove s := by
  simp [step, hok, ht]

theorem step_sequencer_turn (hok : s.par.ok = true) {rest : List (Turn Cell)} (ht : s.turns = .seq :: rest) :
    step s = sequencerMove { s with turns := rest } := by
  simp [step, hok, ht]

/-- A step is one move of one of the two agents, from a state whose list of moves may have lost its head. -/
theorem step_cases (h : step s = .next t) :
    ∃ rest, sequencerMove { s with turns := rest } = .next t ∨ ∃ op, hostMove op { s with turns := rest } = .next t := by
  unfold step at h
  split_ifs at h with hok
  cases hturns : s.turns with
  | nil =>
    simp only [hturns] at h
    exact ⟨s.turns, .inl h⟩
  | cons turn rest =>
    cases turn with
    | seq =>
      simp only [hturns] at h
      exact ⟨rest, .inl h⟩
    | host op =>
      simp only [hturns] at h
      exact ⟨rest, .inr ⟨op, h⟩⟩

/-! ### Every operation keeps a legal state legal -/

theorem inv_withTurns (h : s.Inv) (rest : List (Turn Cell)) : ({ s with turns := rest } : State).Inv := { h with }

/-- A fault of the block, FetchError exactly at `CM_WORDS` (`60_exceptions.md` R225, R228). -/
theorem inv_raise (h : s.Inv) {f : FaultCode} (hblock : f.isBlocks = true)
    (hfetch : f = .fetch ↔ s.cpc.toNat = s.par.cmWords) : (s.raise f).Inv :=
  { h with
    quiet := fun hne => absurd rfl hne
    fault := fun _ => ⟨hblock, rfl⟩
    fetch := fun _ => hfetch
    idle := fun hst => nomatch hst
    done := fun hst => nomatch hst }

theorem inv_finish (h : s.Inv) (hs : s.status = .run) (hpc : s.cpc.toNat < s.par.cmWords) : s.finish.Inv :=
  { h with
    quiet := fun _ => h.quiet (by simp [hs])
    fault := fun hst => nomatch hst
    fetch := fun hst => nomatch hst
    idle := fun hst => nomatch hst
    done := fun _ => hpc }

/-- A command that has passed its checks stores inside `DM` alone, and `cpc` stays at most `CM_WORDS`. -/
theorem inv_completed (h : s.Inv) (hs : s.status = .run) (hpc : s.cpc.toNat < s.par.cmWords) {i : Instr}
    (hpass : faultOf i s.par s.d = none) : (completed i s).Inv := by
  have hcpc : (s.cpc + 1).toNat = s.cpc.toNat + 1 := cpc_succ_toNat h.par hpc
  have hst : (completed i s).status = .run := hs
  exact
    { h with
      dmWf := wf_writeAll _ _ h.dmWf
      dmBelow := below_writeAll _ _ _ h.dmBelow fun p hp => valid_of_faultOf hpass p.1 (.inr (writesOf_addr hp))
      cpcLe := by rw [completed_cpc, completed_par, hcpc]; omega
      fault := fun herr => nomatch hst.symm.trans herr
      fetch := fun herr => nomatch hst.symm.trans herr
      idle := fun hidle => nomatch hst.symm.trans hidle
      done := fun hdone => nomatch hst.symm.trans hdone }

theorem inv_storeWord (h : s.Inv) {i : Nat} (w : Word) (hi : i < s.par.cmWords) : (s.storeWord i w).Inv :=
  { h with
    cmWf := wf_set _ _ _ h.cmWf
    cmBelow := below_set _ _ _ _ h.cmBelow hi }

theorem inv_writeCells (h : s.Inv) {ws : List (Nat × Cell)} (hws : ∀ p ∈ ws, p.1 < s.par.dmCells) :
    (s.writeCells ws).Inv :=
  { h with
    dmWf := wf_writeAll _ _ h.dmWf
    dmBelow := below_writeAll _ _ _ h.dmBelow hws }

/-- The registers a program starts from are legal in `IDLE` and in `RUN` (`70_reset_and_hazards.md` R251). -/
theorem inv_clearRegs (h : s.Inv) {st : RunState} (hst : st = .idle ∨ st = .run) :
    ({ s.clearRegs with status := st } : State).Inv :=
  { h with
    cpcLe := Nat.zero_le _
    quiet := fun _ => ⟨rfl, rfl⟩
    fault := fun herr => by rcases hst with rfl | rfl <;> cases herr
    fetch := fun herr => by rcases hst with rfl | rfl <;> cases herr
    idle := fun _ => ⟨rfl, rfl⟩
    done := fun hdone => by rcases hst with rfl | rfl <;> cases hdone }

theorem inv_ctrlWrite (h : s.Inv) (v : BitVec 32) : (s.ctrlWrite v).Inv := by
  rcases ctrlWrite_cases s v with heq | ⟨-, st, hst, heq⟩ <;> rw [heq]
  · exact h
  · exact inv_clearRegs h hst

/-- A memory that nothing is written to is legal, whatever launch contents it holds. -/
theorem inv_emptyMemories (h : s.Inv) (boot : Nat) : ({ s with cm := [], dm := [], boot := boot } : State).Inv :=
  { h with
    cmWf := rfl
    dmWf := rfl
    cmBelow := fun _ hp => absurd hp (List.not_mem_nil)
    dmBelow := fun _ hp => absurd hp (List.not_mem_nil) }

theorem inv_powerOn (h : s.Inv) : s.powerOn.Inv :=
  inv_clearRegs (inv_emptyMemories h (s.boot + 1)) (.inl rfl)

theorem inv_reset : State.reset.Inv where
  par := by decide
  cmWf := rfl
  dmWf := rfl
  cmBelow := fun _ hp => absurd hp (List.not_mem_nil)
  dmBelow := fun _ hp => absurd hp (List.not_mem_nil)
  cpcLe := Nat.zero_le _
  quiet := fun _ => ⟨rfl, rfl⟩
  fault := fun herr => nomatch herr
  fetch := fun herr => nomatch herr
  idle := fun _ => ⟨rfl, rfl⟩
  done := fun hdone => nomatch hdone

theorem inv_runStepEnd (h : s.Inv) (hs : s.status = .run) (hend : RunStepEnd s t) : t.Inv := by
  cases hend with
  | fetchFault hpc => exact inv_raise h rfl (iff_of_true rfl (Nat.le_antisymm h.cpcLe hpc))
  | commandFault hpc f hblock hfetch => exact inv_raise h hblock (iff_of_false hfetch hpc.ne)
  | halt hpc => exact inv_finish h hs hpc
  | completes hpc i hpass => exact inv_completed h hs hpc hpass

theorem inv_sequencerMove (h : s.Inv) (hmove : sequencerMove s = .next t) : t.Inv := by
  rcases sequencerMove_cases hmove with ⟨-, rfl⟩ | ⟨hs, hend⟩
  · exact h
  · exact inv_runStepEnd h hs hend

theorem inv_hostMove (h : s.Inv) {op : HostOp Cell} (hmove : hostMove op s = .next t) : t.Inv := by
  cases hostMove_end hmove with
  | unchanged => exact h
  | ctrl v => exact inv_ctrlWrite h v
  | word i w hi => exact inv_storeWord h w hi
  | cell a c ha => exact inv_writeCells h (by simpa using ha)
  | reset => exact inv_powerOn h

/-! ### The statements -/

/-- Settles O24: each move of either agent keeps the invariant, operation by operation. -/
theorem stepKeepsLegalStates : Obligations.StepKeepsLegalStates := by
  intro s t h hstep
  obtain ⟨rest, hmove | ⟨op, hmove⟩⟩ := step_cases hstep
  · exact inv_sequencerMove (inv_withTurns h rest) hmove
  · exact inv_hostMove (inv_withTurns h rest) hmove

/-- Settles O25, from the ends of the sequencer's and of the host's moves. -/
theorem statusTransitions : Obligations.StatusTransitions := by
  refine ⟨fun s t hmove => ?_, fun s n v => ?_, fun s => rfl, fun s t op hmove hreset hctrl => ?_⟩
  · rcases sequencerMove_cases hmove with ⟨-, rfl⟩ | ⟨hs, hend⟩
    · exact seqTransition_self _
    · rw [hs]
      cases hend with
      | fetchFault => rfl
      | commandFault => rfl
      | halt => rfl
      | completes => simp [hs]
  · by_cases hn : n = 0
    · subst hn
      exact ctrlWrite_transition s v
    · rw [csrWrite_readOnly s v hn]
      exact ctrlTransition_self _
  · cases hostMove_end hmove with
    | unchanged => rfl
    | ctrl v => exact absurd rfl (hctrl v)
    | word => rfl
    | cell => rfl
    | reset => exact absurd rfl hreset

/-- Settles O26: a completed command leaves `descAfter`, which is `d` itself but for SETD. -/
theorem onlySetdWritesDescriptors : Obligations.OnlySetdWritesDescriptors := by
  intro i s t r hexec hne
  rcases exec_cases hexec with ⟨f, -, rfl⟩ | ⟨-, rfl⟩ | ⟨-, -, rfl⟩
  · exact absurd rfl hne
  · exact absurd rfl hne
  · cases i with
    | setd rd imm =>
      by_cases hr : r = rd
      · exact ⟨imm, by rw [hr]⟩
      · exact absurd (desc_get_set_other s.d rd r imm hr) hne
    | _ => exact absurd rfl hne

/-- Settles O27, from the ends of a step of a running program. -/
theorem cpcAdvancesByOne : Obligations.CpcAdvancesByOne := by
  intro s t hok hs hle hstep
  cases runStep_end hstep with
  | fetchFault hpc => exact ⟨nofun, fun _ => rfl, hle, fun _ => rfl⟩
  | commandFault hpc f => exact ⟨nofun, fun _ => rfl, hle, fun hend => absurd hend hpc.ne⟩
  | halt hpc => exact ⟨nofun, fun _ => rfl, hle, fun hend => absurd hend hpc.ne⟩
  | completes hpc i =>
    have hcpc : (completed i s).cpc.toNat = s.cpc.toNat + 1 := cpc_succ_toNat hok hpc
    exact ⟨fun _ => hcpc, fun hne => absurd hs hne, hcpc.trans_le hpc, fun hend => absurd hend hpc.ne⟩

/-- Settles O28: no end of a step touches `CM`, the parameters, the launch contents or the moves to come. -/
theorem programsCannotChangeCommandMemory : Obligations.ProgramsCannotChangeCommandMemory := by
  intro s t hmove
  rcases sequencerMove_cases hmove with ⟨-, rfl⟩ | ⟨-, hend⟩
  · exact ⟨rfl, rfl, rfl, rfl⟩
  · cases hend with
    | fetchFault => exact ⟨rfl, rfl, rfl, rfl⟩
    | commandFault => exact ⟨rfl, rfl, rfl, rfl⟩
    | halt => exact ⟨rfl, rfl, rfl, rfl⟩
    | completes => exact ⟨rfl, rfl, rfl, rfl⟩

/-- Settles O6, by the sequencer's rule for a word that decodes. -/
theorem stepRunsTheDecodedCommand : Obligations.StepRunsTheDecodedCommand := by
  intro s i hok hs hpc hd
  constructor
  · intro ht
    rw [step_sequencer hok ht, sequencerMove_running hs, runStep_of_decode_ok hpc hd]
  · intro rest ht
    rw [step_sequencer_turn hok ht, sequencerMove_running (s := { s with turns := rest }) hs]
    exact runStep_of_decode_ok (s := { s with turns := rest }) hpc hd

/-- Settles O7, by the sequencer's rules for a fetch past the end and for a rejected word. -/
theorem fetchAndDecodeFaults : Obligations.FetchAndDecodeFaults := by
  intro s hok ht hs
  rw [step_sequencer hok ht, sequencerMove_running hs]
  exact ⟨runStep_past_end, fun hpc _ hd => runStep_of_decode_error hpc hd⟩

/-- Settles O22, clause by clause of the invariant. -/
theorem resetStateIsLegal : Obligations.ResetStateIsLegal := inv_reset

/-- Settles O23: nothing is listed in a memory after reset, so a read of it is the free value. -/
theorem resetValues : Obligations.ResetValues :=
  ⟨desc_zero_get, rfl, csrRead_reset (by decide), csrRead_reset (by decide), csrRead_reset (by decide), rfl,
    fun _ => rfl, fun _ => rfl⟩

/-- Settles O30, by the rules for CLEAR and START in and out of the states where they act. -/
theorem ctrlClearsThenStarts : Obligations.CtrlClearsThenStarts :=
  ⟨fun _ _ => ⟨rfl, rfl⟩, fun _ => ⟨clear_running, clear_stopped⟩, fun _ => ⟨start_running_or_err, start_idle_or_done⟩⟩

/-- Settles O31; the three parameters fit their fields by R5. -/
theorem csrMap : Obligations.CsrMap := by
  refine ⟨fun n hn => csrRead_reset hn, fun s hok => ?_⟩
  obtain ⟨hmmax, -, hdm, -, hcm⟩ := (params_ok_iff s.par).1 hok
  refine ⟨rfl, csrRead_status s, csrRead_err s, BitVec.toNat_setWidth_of_le (by decide), BitVec.toNat_setWidth_of_le (by decide),
    ?_, ?_, ?_, fun r => ?_, fun n hn => csrRead_unlisted s hn, fun n v hn => csrWrite_readOnly s v hn, fun n => rfl⟩
  · simp only [State.csrRead, State.cfg, BitVec.toNat_ofNat]
    omega
  · simp only [State.csrRead, BitVec.toNat_ofNat]
    omega
  · simp only [State.csrRead, BitVec.toNat_ofNat]
    omega
  · rw [csrRead_desc, BitVec.toNat_setWidth_of_le (by decide)]

/-- Settles O32: both ways to start leave the cleared registers and the memories. -/
theorem startForgetsThePreviousRun : Obligations.StartForgetsThePreviousRun := by
  intro s s' hpar hcm hdm hboot
  have hagree := clearRegs_agree hpar hcm hdm hboot .run
  constructor
  · intro hs hs'
    rw [start_idle_or_done hs, start_idle_or_done hs']
    exact ⟨rfl, hagree⟩
  · intro hs hs'
    rw [csrWrite_clear_and_start hs, csrWrite_clear_and_start hs']
    exact ⟨rfl, hagree⟩

end Sys2Proof.Proofs

/-! # Memory and its ownership: proofs of the statements about `20_memory.md`

First the rules: how writes to different addresses commute, what a command reads of `DM`, what the ownership rule says of
the next command, and what the host port answers. Then the integers that binary64 holds exactly. The statements are settled
at the end, from these rules. -/

namespace Sys2Proof.Proofs

open Sys2Proof.Machine Sys2Proof.Laws

/-! ### Writes to different addresses commute (`20_memory.md` R53) -/

section
variable {α : Type}

/-- Whatever the order of the two addresses and the head's, the two entries end in the same places; also in a memory that is
not in canonical form. -/
theorem set_comm (m : Memory α) {a b : Nat} (hab : a ≠ b) (v w : α) :
    Memory.set (Memory.set m a v) b w = Memory.set (Memory.set m b w) a v := by
  induction m with
  | nil => grind [Memory.set]
  | cons p rest ih => grind [Memory.set]

/-- A write to an address outside a list of writes may come before them or after them. -/
theorem writeAll_set (m : Memory α) (ws : List (Nat × α)) {a : Nat} (v : α) (hfree : ∀ p ∈ ws, p.1 ≠ a) :
    Memory.writeAll (Memory.set m a v) ws = Memory.set (Memory.writeAll m ws) a v := by
  induction ws generalizing m with
  | nil => rfl
  | cons p ws ih =>
    rw [writeAll_cons, set_comm m (hfree p List.mem_cons_self).symm, ih _ fun q hq => hfree q (List.mem_cons_of_mem p hq)]
    rfl

end

theorem cell_writeCell (s : State) (a : Nat) (c : Cell) (b : Nat) :
    (s.writeCells [(a, c)]).cell b = if b = a then c else s.cell b := by
  simp only [State.cell, writeCells_dm, writeAll_cons, writeAll_nil, get?_set]
  split_ifs <;> rfl

/-! ### What a command reads of `DM` (`20_memory.md` R52, R69) -/

/-- The lowest bit of an index becomes the highest of its reversal (`41_bitrev.md` R120). -/
theorem rev_succ (m i : Nat) : rev (m + 1) i = i % 2 * 2^m + rev m (i / 2) := by
  have hshift : ∀ t, i / 2^(t + 1) % 2 * 2^(m - (t + 1)) = i / 2 / 2^t % 2 * 2^(m - 1 - t) := fun t => by
    rw [Nat.pow_succ', Nat.div_div_eq_div_mul, Nat.sub_add_eq, Nat.sub_right_comm]
  simp [rev, List.range_succ_eq_map, Function.comp_def, hshift]

theorem rev_lt (m i : Nat) : rev m i < 2^m := by
  induction m generalizing i with
  | zero => simp [rev]
  | succ m ih =>
    rw [rev_succ, Nat.pow_succ]
    have hlow := ih (i / 2)
    rcases Nat.mod_two_eq_zero_or_one i with hbit | hbit <;> rw [hbit] <;> omega

theorem paddedInput_congr (T : Tier) (ty : ElemTy) (m : Nat) (d : Desc) {read read' : Nat → T.C}
    (hread : ∀ a ∈ vecSet d.srcElem d.len.toNat, read a = read' a) :
    paddedInput T ty m d read = paddedInput T ty m d read' := by
  refine List.map_congr_left fun j _ => ?_
  split_ifs with hj
  · rw [hread _ ((mem_vecSet _ _ _).2 ⟨j, hj, rfl⟩)]
  · rfl

theorem bflyWrites_congr (T : Tier) (e : Nat) (k : Int) (d : Desc) (n : Nat) {read read' : Nat → T.C}
    (hread : ∀ a ∈ vecSet d.srcElem 2, read a = read' a) :
    bflyWrites T e k d read n = bflyWrites T e k d read' n := by
  have helem : ∀ j < 2, read (d.srcElem j) = read' (d.srcElem j) := fun j hj =>
    hread _ ((mem_vecSet _ _ _).2 ⟨j, hj, rfl⟩)
  rw [bflyWrites, bflyWrites, helem 0 (by omega), helem 1 (by omega)]

/-- A command's writes depend on the cells of its source set alone, in any tier. -/
theorem writesOf_congr (T : Tier) (i : Instr) (d : Desc) (n : Nat) {read read' : Nat → T.C}
    (hread : ∀ a ∈ srcSet i d, read a = read' a) : writesOf T i d read n = writesOf T i d read' n := by
  cases i with
  | halt => rfl
  | setd rd imm => rfl
  | brtab m => rfl
  | brperm m =>
    refine List.map_congr_left fun i _ => ?_
    rw [hread _ ((mem_vecSet _ _ _).2 ⟨rev m i, rev_lt m i, rfl⟩)]
  | bflyF e k => exact bflyWrites_congr T e k d n hread
  | bflyI e k => exact bflyWrites_congr T e (-(k : Int)) d n hread
  | fftB m => rw [writesOf, writesOf, fftWrites, fftWrites, paddedInput_congr T .byte m d hread]
  | fftI m => rw [writesOf, writesOf, fftWrites, fftWrites, paddedInput_congr T .int m d hread]
  | fftC m => rw [writesOf, writesOf, fftWrites, fftWrites, paddedInput_congr T .complex m d hread]
  | ifft m => rw [writesOf, writesOf, ifftWrites, ifftWrites, paddedInput_congr T .complex m d hread]
  | qshift m =>
    have hlt : ∀ j, shifted (2^m) j < 2^m := fun j => Nat.mod_lt _ (Nat.two_pow_pos m)
    refine List.flatMap_congr fun r _ => List.map_congr_left fun c _ => ?_
    rw [hread _ ((mem_matSet _ _ _).2 ⟨_, hlt r, _, hlt c, rfl⟩)]

/-! ### A cell that a command does not touch (`20_memory.md` R64) -/

/-- Writing a cell that a command does not touch commutes with the command. -/
theorem completed_writeCell (i : Instr) (s : State) {a : Nat} (c : Cell) (hsrc : a ∉ srcSet i s.d)
    (hdst : a ∉ dstSet i s.d) : completed i (s.writeCells [(a, c)]) = (completed i s).writeCells [(a, c)] := by
  have hread : ∀ b ∈ srcSet i s.d, (s.writeCells [(a, c)]).cell b = s.cell b := fun b hb => by
    rw [cell_writeCell, if_neg (ne_of_mem_of_not_mem hb hsrc)]
  have hwrites : ∀ p ∈ writesOf f64Tier i s.d s.cell s.draws, p.1 ≠ a := fun p hp =>
    ne_of_mem_of_not_mem (writesOf_addr hp) hdst
  have hdm : (completed i (s.writeCells [(a, c)])).dm = Memory.set (completed i s).dm a c := by
    calc (completed i (s.writeCells [(a, c)])).dm
      _ = Memory.writeAll (Memory.set s.dm a c) (writesOf f64Tier i s.d (s.writeCells [(a, c)]).cell s.draws) := rfl
      _ = Memory.writeAll (Memory.set s.dm a c) (writesOf f64Tier i s.d s.cell s.draws) := by
        rw [writesOf_congr f64Tier i s.d s.draws hread]
      _ = Memory.set (completed i s).dm a c := writeAll_set _ _ c hwrites
  calc completed i (s.writeCells [(a, c)])
    _ = { completed i s with dm := (completed i (s.writeCells [(a, c)])).dm } := rfl
    _ = (completed i s).writeCells [(a, c)] := by rw [hdm]; rfl

/-- ... whatever the end of the command: one that faults touches nothing. -/
theorem exec_writeCell {i : Instr} {s t : State} {a : Nat} (c : Cell)
    (hfree : faultOf i s.par s.d = none → a ∉ srcSet i s.d ∧ a ∉ dstSet i s.d) (h : exec i s = .next t) :
    exec i (s.writeCells [(a, c)]) = .next (t.writeCells [(a, c)]) := by
  rcases exec_cases h with ⟨f, hf, rfl⟩ | ⟨rfl, rfl⟩ | ⟨hpass, hi, rfl⟩
  · rw [exec_eq, writeCells_par, writeCells_d, hf]
    rfl
  · rfl
  · obtain ⟨hsrc, hdst⟩ := hfree hpass
    simp only [exec_eq, writeCells_par, writeCells_d, hpass, if_neg hi, completed_writeCell i s c hsrc hdst]

/-! ### What the rest of a program owns (`20_memory.md` R60) -/

/-- Ownership depends on the program and the parameters, not on data memory. -/
theorem ownedFrom_congr {s s' : State} (hpar : s.par = s'.par) (hword : ∀ j, s.word j = s'.word j) (a fuel pc : Nat)
    (d : Desc) : ownedFrom s a fuel pc d = ownedFrom s' a fuel pc d := by
  induction fuel generalizing pc d with
  | zero => rfl
  | succ fuel ih => simp only [ownedFrom, hpar, hword, ih]

/-- A cell that the rest of a program does not own is not touched by the next command, nor owned by the commands after it. -/
theorem not_owned_next {s : State} {a : Nat} {i : Instr} (hpc : s.cpc.toNat < s.par.cmWords)
    (hd : decode (s.word s.cpc.toNat) = .ok i) (hpass : faultOf i s.par s.d = none) (hfree : s.owned a = false) :
    (a ∉ srcSet i s.d ∧ a ∉ dstSet i s.d) ∧
      (i ≠ .halt →
        ownedFrom s a (s.par.cmWords - (s.cpc.toNat + 1)) (s.cpc.toNat + 1) (descAfter i s.d) = false) := by
  have hfuel : s.par.cmWords - s.cpc.toNat = s.par.cmWords - (s.cpc.toNat + 1) + 1 := by omega
  rw [State.owned, hfuel, ownedFrom] at hfree
  simpa [Nat.not_le.2 hpc, hd, hpass] using hfree

theorem not_owned_completed {s : State} {a : Nat} {i : Instr} (hok : s.par.ok = true) (hpc : s.cpc.toNat < s.par.cmWords)
    (hd : decode (s.word s.cpc.toNat) = .ok i) (hpass : faultOf i s.par s.d = none) (hi : i ≠ .halt)
    (hfree : s.owned a = false) : (completed i s).owned a = false := by
  have hcpc : (completed i s).cpc.toNat = s.cpc.toNat + 1 := cpc_succ_toNat hok hpc
  rw [State.owned, hcpc, ownedFrom_congr (s := completed i s) (s' := s) rfl fun _ => rfl]
  exact (not_owned_next hpc hd hpass hfree).2 hi

/-! ### The host port (`20_memory.md` R58 to R60) -/

theorem step_host {s : State} (hok : s.par.ok = true) {op : HostOp Cell} {rest : List (Turn Cell)}
    (ht : s.turns = .host op :: rest) : step s = hostMove op { s with turns := rest } := by
  simp [step, hok, ht]

theorem step_badParameters {s : State} (hok : s.par.ok = false) : step s = .fault .badParameters := by
  simp [step, hok]

theorem cmOwned_stopped {s : State} (hs : s.status ≠ .run) : s.cmOwned = false := by
  simp [State.cmOwned, hs]

theorem cmOwned_running {s : State} (hs : s.status = .run) : s.cmOwned = true := by
  simp [State.cmOwned, hs]

theorem dmOwned_stopped {s : State} (hs : s.status ≠ .run) (a : Nat) : s.dmOwned a = false := by
  simp [State.dmOwned, hs]

theorem dmOwned_running {s : State} (hs : s.status = .run) (a : Nat) : s.dmOwned a = s.owned a := by
  simp [State.dmOwned, hs]

section
variable {s : State} {a i : Nat}

theorem cmRead_allowed (h : s.cmOwned = false) :
    cmRead i s = .next (if i < s.par.cmWords then some (s.word i) else none) := by
  simp [cmRead, h]

theorem cmWrite_allowed (h : s.cmOwned = false) (w : Word) :
    cmWrite i w s = .next (if i < s.par.cmWords then s.storeWord i w else s) := by
  simp [cmWrite, h]

theorem cmWrite_refused (h : s.cmOwned = true) (w : Word) : cmWrite i w s = .refused .hostOwnership := by
  simp [cmWrite, h]

theorem dmRead_allowed (h : s.dmOwned a = false) :
    dmRead a s = .next (if a < s.par.dmCells then some (s.cell a) else none) := by
  simp [dmRead, h]

theorem dmRead_refused (h : s.dmOwned a = true) : dmRead a s = .refused .hostOwnership := by
  simp [dmRead, h]

theorem dmWrite_allowed (h : s.dmOwned a = false) (c : Cell) :
    dmWrite a c s = .next (if a < s.par.dmCells then s.writeCells [(a, c)] else s) := by
  simp [dmWrite, h]

theorem dmWrite_refused (h : s.dmOwned a = true) (c : Cell) : dmWrite a c s = .refused .hostOwnership := by
  simp [dmWrite, h]

end

/-- During a run a write of `CTRL` changes nothing (`10_state.md` R30). -/
theorem ctrlWrite_running {s : State} (hs : s.status = .run) (v : BitVec 32) : s.ctrlWrite v = s := by
  rcases ctrlWrite_cases s v with heq | ⟨hstopped, -⟩
  · exact heq
  · exact absurd hs hstopped

/-! ### The integers that binary64 holds exactly (`40_butterfly.md` R91) -/

theorem ofMag_toNat (sgn : Bool) {m : Nat} (hm : m < 2^63) : (F64.ofMag sgn m).toNat = (if sgn then 2^63 + m else m) := by
  rw [F64.ofMag, BitVec.toNat_ofNat, Nat.mod_eq_of_lt]
  split_ifs <;> omega

theorem mag_ofMag (sgn : Bool) {m : Nat} (hm : m < 2^63) : F64.mag (F64.ofMag sgn m) = m := by
  rw [F64.mag, ofMag_toNat sgn hm]
  split_ifs <;> omega

theorem sign_ofMag (sgn : Bool) {m : Nat} (hm : m < 2^63) : F64.sign (F64.ofMag sgn m) = sgn := by
  rw [F64.sign, ofMag_toNat sgn hm]
  cases sgn
  · simpa using hm
  · simp

/-- A significand of 53 bits is not rounded: scaled by `2^e` it is the pattern with exponent field `e + 1`. -/
theorem roundMag_normal {q e : Nat} (hlow : 2^52 ≤ q) (hhigh : q < 2^53) (he : e < 2046) :
    F64.roundMag (q * 2^e) 1 = e * 2^52 + q := by
  have hlog : Nat.log2 (q * 2^e) = e + 52 := by
    rw [Nat.log2_eq_iff (by positivity)]
    constructor
    · rw [Nat.pow_add, Nat.mul_comm]
      exact Nat.mul_le_mul_right _ hlow
    · rw [Nat.add_assoc, Nat.pow_add, Nat.mul_comm]
      exact Nat.mul_lt_mul_of_pos_left hhigh (by positivity)
  have hpos : 0 < 2^e := Nat.two_pow_pos e
  simp only [F64.roundMag, Nat.div_one, hlog, Nat.add_sub_cancel, Nat.one_mul, Nat.mul_mod_left, Nat.mul_div_left _ hpos]
  rw [if_neg (by omega)]
  exact Nat.min_eq_left (by simp only [F64.infMag]; omega)

theorem magUnits_normal {q e : Nat} (hlow : 2^52 ≤ q) (hhigh : q < 2^53) : F64.magUnits (e * 2^52 + q) = q * 2^e := by
  have hexp : (e * 2^52 + q) / 2^52 = e + 1 := by omega
  have hfrac : (e * 2^52 + q) % 2^52 + 2^52 = q := by omega
  rw [F64.magUnits, hexp, hfrac, if_neg (by omega), Nat.add_sub_cancel]

/-- A number of at most 53 bits, in units of 2^-1074, is a significand of 53 bits scaled. -/
theorem exists_significand {n : Nat} (hpos : 0 < n) (hn : n < 2^53) :
    ∃ q e, n * 2^1074 = q * 2^e ∧ 2^52 ≤ q ∧ q < 2^53 ∧ e < 2046 := by
  have hlog : Nat.log2 n < 53 := (Nat.log2_lt hpos.ne').2 hn
  have hself := Nat.log2_self_le hpos.ne'
  have hlt := Nat.lt_log2_self (n := n)
  refine ⟨n * 2^(52 - Nat.log2 n), 1022 + Nat.log2 n, ?_, ?_, ?_, by omega⟩
  · rw [Nat.mul_assoc, ← Nat.pow_add, show 52 - n.log2 + (1022 + n.log2) = 1074 by omega]
  · calc 2^52 = 2^n.log2 * 2^(52 - n.log2) := by rw [← Nat.pow_add, Nat.add_sub_cancel' (by omega)]
      _ ≤ n * 2^(52 - n.log2) := Nat.mul_le_mul_right _ hself
  · calc n * 2^(52 - n.log2) < 2^(n.log2 + 1) * 2^(52 - n.log2) := Nat.mul_lt_mul_of_pos_right hlt (Nat.two_pow_pos _)
      _ = 2^53 := by rw [← Nat.pow_add]; congr 1; omega

/-- The magnitude of a natural number of at most 53 bits is finite and exact. -/
theorem roundMag_exact {n : Nat} (hn : n < 2^53) :
    F64.roundMag (n * 2^1074) 1 < F64.infMag ∧ F64.magUnits (F64.roundMag (n * 2^1074) 1) = n * 2^1074 := by
  rcases Nat.eq_zero_or_pos n with rfl | hpos
  · rw [Nat.zero_mul]
    decide
  · obtain ⟨q, e, heq, hlow, hhigh, he⟩ := exists_significand hpos hn
    rw [heq, roundMag_normal hlow hhigh he, magUnits_normal hlow hhigh]
    exact ⟨by simp only [F64.infMag]; omega, rfl⟩

/-- `ofInt` is exact on integers of at most 53 bits. -/
theorem ofInt_exact {v : Int} (hv : v.natAbs < 2^53) :
    F64.isFinite (F64.ofInt v) = true ∧ F64.units (F64.ofInt v) = v * 2^1074 := by
  obtain ⟨hfin, hunits⟩ := roundMag_exact hv
  have hmag := hfin.trans (show F64.infMag < 2^63 by decide)
  rw [F64.isFinite, F64.units, F64.ofInt, F64.ofUnits, mag_ofMag _ hmag, sign_ofMag _ hmag, hunits]
  refine ⟨decide_eq_true hfin, ?_⟩
  rw [Nat.cast_mul, Int.natCast_natAbs, Nat.cast_pow, Nat.cast_ofNat]
  split_ifs with hneg
  · rw [abs_of_neg (by simpa using hneg), neg_mul, neg_neg]
  · rw [abs_of_nonneg (by simpa using hneg)]

theorem ofInt_zero : F64.ofInt 0 = 0 := by
  rw [F64.ofInt, F64.ofUnits, Int.natAbs_zero, Nat.zero_mul]
  decide

/-- A typed element whose view is an integer of at most 53 bits is that integer (`20_memory.md` R55). -/
theorem ofInt_element {z : Cplx F64} {v : Int} (hz : z = { re := F64.ofInt v, im := F64.ofInt 0 }) (hv : v.natAbs < 2^53) :
    F64.isFinite z.re = true ∧ z.im = 0 ∧ F64.units z.re = v * 2^1074 := by
  obtain ⟨hfin, hunits⟩ := ofInt_exact hv
  rw [hz]
  exact ⟨hfin, ofInt_zero, hunits⟩

/-! ### The statements -/

/-- Settles O35, by the ends of the step: a fault and HALT leave memory alone, and a command that completes touches cells of
its own sets alone. -/
theorem unownedCellsCannotBeSeen : Obligations.UnownedCellsCannotBeSeen := by
  intro s t a c h hs hturns hfree hstep
  rw [step_sequencer h.par hturns, sequencerMove_running hs] at hstep
  rw [step_sequencer (s := s.writeCells [(a, c)]) h.par hturns, sequencerMove_running (s := s.writeCells [(a, c)]) hs]
  rcases runStep_cases s with ⟨hpc, hrun⟩ | ⟨hpc, ⟨e, hd, hrun⟩ | ⟨i, hd, hrun⟩⟩
  · cases hrun.symm.trans hstep
    exact ⟨runStep_past_end hpc, nofun⟩
  · cases hrun.symm.trans hstep
    exact ⟨runStep_of_decode_error hpc hd, nofun⟩
  · have hexec := hrun.symm.trans hstep
    refine ⟨?_, fun ht => ?_⟩
    · rw [runStep_of_decode_ok (s := s.writeCells [(a, c)]) hpc hd]
      exact exec_writeCell c (fun hpass => (not_owned_next hpc hd hpass hfree).1) hexec
    · rcases exec_cases hexec with ⟨f, -, rfl⟩ | ⟨-, rfl⟩ | ⟨hpass, hi, rfl⟩
      · cases ht
      · cases ht
      · exact not_owned_completed h.par hpc hd hpass hi hfree

/-- Settles O33: nothing is owned outside a run, so every access is a plain read or write of its memory. -/
theorem hostReadsBackItsWrites : Obligations.HostReadsBackItsWrites := by
  intro s hs
  have hcm := cmOwned_stopped hs
  have hdm := dmOwned_stopped hs
  refine ⟨fun a c ha => ⟨s.writeCells [(a, c)], ?_, rfl, fun b hb => ?_⟩,
    fun i w hi => ⟨s.storeWord i w, ?_, rfl, fun j hj => ?_⟩, fun a c ha => ⟨?_, ?_⟩, fun i w hi => ⟨?_, ?_⟩⟩
  · exact dmWrite_stopped s hs a c ha
  · rw [dmRead_stopped (s.writeCells [(a, c)]) hs b hb, cell_writeCell]
  · exact cmWrite_stopped s hs i w hi
  · rw [cmRead_allowed (s := s.storeWord i w) hcm, if_pos (by exact hj), word_storeWord]
  · rw [hostMove, dmWrite_allowed (hdm a), if_neg (by omega)]
  · rw [dmRead_allowed (hdm a), if_neg (by omega)]
  · rw [hostMove, cmWrite_allowed hcm, if_neg (by omega)]
  · rw [cmRead_allowed hcm, if_neg (by omega)]

/-- Settles O40: the integers of the two integer views have at most 32 bits, and binary64 holds those exactly. -/
theorem typedElementRead : Obligations.TypedElementRead := by
  intro c
  have hbyte : byteOf c = (c.toNat % 2^8 : Nat) := rfl
  have hint : intOf c = (BitVec.ofNat 32 c.toNat).toInt := rfl
  refine ⟨?_, ?_, ?_, ?_⟩
  · rw [← hbyte]
    exact ofInt_element rfl (by rw [hbyte]; omega)
  · rw [← hint]
    have hlow := BitVec.le_toInt (c.extractLsb' 0 32)
    have hhigh := BitVec.toInt_lt (x := c.extractLsb' 0 32)
    exact ofInt_element rfl (by simp only [intOf]; omega)
  · rfl
  · exact congrArg (BitVec.ofNat 64) (Nat.shiftRight_eq_div_pow c.toNat 64)

/-- Settles O9, by the machine's rule for a turn of the host. -/
theorem hostMovesAreWholeSteps : Obligations.HostMovesAreWholeSteps :=
  ⟨fun _ _ _ hok ht => step_host hok ht, fun _ hok => step_badParameters hok⟩

/-- Settles O34, by the host port's answers: during a run `CM` is owned, and of `DM` the cells that the rest of the program
touches. -/
theorem hostOwnershipDuringRun : Obligations.HostOwnershipDuringRun := by
  intro s hs
  have hdm := dmOwned_running hs
  refine ⟨fun i w => cmWrite_refused (cmOwned_running hs) w, fun a c hown => ?_, fun a c hfree ha => ?_,
    fun v => congrArg _ (ctrlWrite_running hs v)⟩
  · rw [← hdm] at hown
    exact ⟨dmWrite_refused hown c, dmRead_refused hown⟩
  · rw [← hdm] at hfree
    rw [hostMove, dmWrite_allowed hfree, dmRead_allowed hfree, if_pos ha, if_pos ha]
    exact ⟨rfl, rfl⟩

end Sys2Proof.Proofs

/-! # The encoding: proofs of the statements about `30_encoding.md`

First the formats: a format's fields are the whole of its word, each operand in its range, and a row of the opcode table asks
for the fixed fields alone. Then what the decoder answers, said once: `decode w` is the command that `w` spells by its format
(`decode_eq_ok_iff`), and a word spells a command exactly when it is the word of that command (`spells_iff`). The statements
are settled at the end, from these rules. -/

namespace Sys2Proof.Proofs

open Sys2Proof.Machine Sys2Proof.Laws

section
variable {w : Word}

/-! ### Fields of a word (`00_scope.md` R7) -/

theorem bits_lt (w : Word) (hi lo : Nat) : bits w hi lo < 2^(hi + 1 - lo) := Nat.mod_lt _ (Nat.two_pow_pos _)

/-- A field cut in two below bit `mid`. -/
theorem bits_cut (w : Word) {hi mid lo : Nat} (hmid : lo < mid) (hhi : mid ≤ hi) :
    bits w hi lo = bits w hi mid * 2^(mid - lo) + bits w (mid - 1) lo := by
  have hwidth : hi + 1 - lo = (mid - lo) + (hi + 1 - mid) := by omega
  have hplace : lo + (mid - lo) = mid := by omega
  have hlow : mid - 1 + 1 - lo = mid - lo := by omega
  rw [bits, hwidth, Nat.pow_add, Nat.mod_mul, Nat.div_div_eq_div_mul, ← Nat.pow_add, hplace]
  rw [bits, bits, hlow, Nat.mul_comm, Nat.add_comm]

/-! ### The register numbers (`30_encoding.md` R73) -/

theorem regNum_le (rd : Reg) : rd.num ≤ 6 := by cases rd <;> decide

theorem regOfNum_num (rd : Reg) : Reg.ofNum rd.num = some rd := by cases rd <;> rfl

/-- The numbers 0 to 6 each name a register. -/
theorem exists_regNum {n : Nat} (hn : n ≤ 6) : ∃ rd : Reg, n = rd.num := by
  interval_cases n
  exacts [⟨.SRC, rfl⟩, ⟨.SSTR, rfl⟩, ⟨.DST, rfl⟩, ⟨.DSTR, rfl⟩, ⟨.LEN, rfl⟩, ⟨.SPITCH, rfl⟩, ⟨.DPITCH, rfl⟩]

theorem num_of_regOfNum {n : Nat} {rd : Reg} (h : Reg.ofNum n = some rd) : n = rd.num := by
  have hn : n ≤ 6 := by
    by_contra hgt
    obtain ⟨k, rfl⟩ : ∃ k, n = k + 7 := ⟨n - 7, by omega⟩
    cases h
  obtain ⟨r, rfl⟩ := exists_regNum hn
  cases (regOfNum_num r).symm.trans h
  rfl

/-! ### The formats (`30_encoding.md` R73 to R76) -/

/-- `HALT` (R79 (b)): every bit is zero. -/
def FormatHalt (w : Word) : Prop := bits w 31 28 = 0 ∧ bits w 27 0 = 0

/-- Format S (R73). -/
def FormatS (w : Word) (rd : Reg) (imm : BitVec 24) : Prop :=
  bits w 31 28 = 1 ∧ bits w 27 24 = rd.num ∧ bits w 23 0 = imm.toNat

/-- Format M (R74) of opcode `op`. -/
def FormatM (op : Nat) (w : Word) (m : Nat) : Prop := bits w 31 28 = op ∧ bits w 27 4 = 0 ∧ bits w 3 0 = m

/-- Format B (R76) with direction bit `dir`. -/
def FormatB (dir : Nat) (w : Word) (e k : Nat) : Prop :=
  bits w 31 28 = 4 ∧ bits w 27 27 = dir ∧ (bits w 26 24 = 0 ∧ bits w 19 10 = 0) ∧ bits w 23 20 = e ∧ bits w 9 0 = k

/-- Format T (R75) with type tag `ty`. -/
def FormatT (ty : Nat) (w : Word) (m : Nat) : Prop :=
  bits w 31 28 = 5 ∧ bits w 27 26 = ty ∧ bits w 25 4 = 0 ∧ bits w 3 0 = m

/-- A word spells a command: it has the command's format, with the operands in their fields (R82). -/
def Spells (w : Word) : Instr → Prop
  | .halt => FormatHalt w
  | .setd rd imm => FormatS w rd imm
  | .brtab m => FormatM 2 w m
  | .brperm m => FormatM 3 w m
  | .bflyF e k => FormatB 0 w e k
  | .bflyI e k => FormatB 1 w e k
  | .fftB m => FormatT 0 w m
  | .fftI m => FormatT 1 w m
  | .fftC m => FormatT 2 w m
  | .ifft m => FormatM 6 w m
  | .qshift m => FormatM 7 w m

/-! ### The fields of a format make up its word -/

theorem ofNat_eq_word {n : Nat} (hn : n < 2^32) : BitVec.ofNat 32 n = w ↔ w.toNat = n := by
  rw [← BitVec.toNat_inj, BitVec.toNat_ofNat, Nat.mod_eq_of_lt hn, eq_comm]

theorem formatHalt_iff : FormatHalt w ↔ BitVec.ofNat 32 0 = w := by
  have hw := w.isLt
  simp only [FormatHalt, bits, ofNat_eq_word (w := w) (n := 0) (by decide)]
  omega

theorem formatS_iff {rd : Reg} {imm : BitVec 24} :
    FormatS w rd imm ↔ BitVec.ofNat 32 (0x10000000 + rd.num * 2^24 + imm.toNat) = w := by
  have hw := w.isLt
  have hrd := regNum_le rd
  have himm := imm.isLt
  rw [ofNat_eq_word (by omega)]
  simp only [FormatS, bits]
  omega

theorem formatM_iff {op m : Nat} (hop : op < 16) :
    FormatM op w m ↔ m < 16 ∧ BitVec.ofNat 32 (op * 2^28 + m) = w := by
  have hw := w.isLt
  constructor
  · rintro ⟨h1, h2, h3⟩
    simp only [bits] at h1 h2 h3
    exact ⟨by omega, (ofNat_eq_word (by omega)).2 (by omega)⟩
  · rintro ⟨hm, h⟩
    rw [ofNat_eq_word (by omega)] at h
    simp only [FormatM, bits]
    omega

theorem formatB_iff {dir e k : Nat} (hdir : dir < 2) :
    FormatB dir w e k ↔ (e < 16 ∧ k < 1024) ∧ BitVec.ofNat 32 (0x40000000 + dir * 2^27 + e * 2^20 + k) = w := by
  have hw := w.isLt
  constructor
  · rintro ⟨h1, h2, ⟨h3, h4⟩, h5, h6⟩
    simp only [bits] at h1 h2 h3 h4 h5 h6
    exact ⟨by omega, (ofNat_eq_word (by omega)).2 (by omega)⟩
  · rintro ⟨⟨he, hk⟩, h⟩
    rw [ofNat_eq_word (by omega)] at h
    simp only [FormatB, bits]
    omega

theorem formatT_iff {ty m : Nat} (hty : ty < 4) :
    FormatT ty w m ↔ m < 16 ∧ BitVec.ofNat 32 (0x50000000 + ty * 2^26 + m) = w := by
  have hw := w.isLt
  constructor
  · rintro ⟨h1, h2, h3, h4⟩
    simp only [bits] at h1 h2 h3 h4
    exact ⟨by omega, (ofNat_eq_word (by omega)).2 (by omega)⟩
  · rintro ⟨hm, h⟩
    rw [ofNat_eq_word (by omega)] at h
    simp only [FormatT, bits]
    omega

/-- A word spells a command exactly when the command is well formed and the word is its encoding. -/
theorem spells_iff {i : Instr} : Spells w i ↔ i.wf = true ∧ encode i = w := by
  cases i with
  | halt => simpa [Spells, Instr.wf, encode] using formatHalt_iff
  | setd rd imm => simpa [Spells, Instr.wf, encode] using formatS_iff
  | brtab m | brperm m | ifft m | qshift m =>
    simpa [Spells, Instr.wf, orderFits, encode] using formatM_iff (by decide)
  | bflyF e k | bflyI e k =>
    simpa [Spells, Instr.wf, orderFits, exponentFits, encode] using formatB_iff (by decide)
  | fftB m | fftI m | fftC m =>
    simpa [Spells, Instr.wf, orderFits, encode] using formatT_iff (by decide)

/-! ### What the decoder answers (`30_encoding.md` R80) -/

theorem decodeS_eq_ok {i : Instr} (hop : bits w 31 28 = 1) (h : decodeS w = .ok i) : Spells w i := by
  unfold decodeS at h
  split at h
  next rd hrd =>
    cases h
    refine ⟨hop, num_of_regOfNum hrd, ?_⟩
    simp [bits]
  next => cases h

theorem decodeM_eq_ok {mk : Nat → Instr} {i : Instr} (h : decodeM mk w = .ok i) :
    bits w 27 4 = 0 ∧ mk (bits w 3 0) = i := by
  unfold decodeM at h
  split at h
  next hz => exact ⟨hz, Except.ok.inj h⟩
  next => cases h

theorem decodeB_eq_ok {i : Instr} (hop : bits w 31 28 = 4) (h : decodeB w = .ok i) : Spells w i := by
  unfold decodeB at h
  split at h
  next hz =>
    split at h
    next hdir =>
      cases h
      exact ⟨hop, hdir, hz, rfl, rfl⟩
    next hdir =>
      cases h
      have hbit : bits w 27 27 < 2^1 := bits_lt w 27 27
      exact ⟨hop, by omega, hz, rfl, rfl⟩
  next => cases h

theorem decodeT_eq_ok {i : Instr} (hop : bits w 31 28 = 5) (h : decodeT w = .ok i) : Spells w i := by
  unfold decodeT at h
  split at h
  next hz =>
    split at h
    case h_1 hty | h_2 hty | h_3 hty =>
      cases h
      exact ⟨hop, hty, hz, rfl⟩
    next => cases h
  next => cases h

theorem spells_of_decode {i : Instr} (h : decode w = .ok i) : Spells w i := by
  unfold decode at h
  split at h
  next hop =>
    split at h
    next hz =>
      cases h
      exact ⟨hop, hz⟩
    next => cases h
  next hop => exact decodeS_eq_ok hop h
  case h_3 hop | h_4 hop | h_7 hop | h_8 hop =>
    obtain ⟨hz, rfl⟩ := decodeM_eq_ok h
    exact ⟨hop, hz, rfl⟩
  next hop => exact decodeB_eq_ok hop h
  next hop => exact decodeT_eq_ok hop h
  next => cases h

theorem decode_of_spells {i : Instr} (h : Spells w i) : decode w = .ok i := by
  cases i with
  | halt =>
    obtain ⟨hop, hz⟩ := h
    simp [decode, hop, hz]
  | setd rd imm =>
    obtain ⟨hop, hrd, himm⟩ := h
    simp [decode, decodeS, hop, hrd, himm, regOfNum_num]
  | brtab m | brperm m | ifft m | qshift m =>
    obtain ⟨hop, hz, hm⟩ := h
    simp [decode, decodeM, hop, hz, hm]
  | bflyF e k | bflyI e k =>
    obtain ⟨hop, hdir, hz, he, hk⟩ := h
    simp [decode, decodeB, hop, hdir, hz, he, hk]
  | fftB m | fftI m | fftC m =>
    obtain ⟨hop, hty, hz, hm⟩ := h
    simp [decode, decodeT, hop, hty, hz, hm]

/-- The decoder reads off the command that the word spells. -/
theorem decode_eq_ok_iff {i : Instr} : decode w = .ok i ↔ Spells w i := ⟨spells_of_decode, decode_of_spells⟩

/-! ### The words that spell no command (`30_encoding.md` R79) -/

/-- The cases of R79. -/
def SpellsNone (w : Word) : Prop :=
  8 ≤ bits w 31 28 ∨
  (bits w 31 28 = 0 ∧ bits w 27 0 ≠ 0) ∨
  (bits w 31 28 = 1 ∧ 7 ≤ bits w 27 24) ∨
  ((bits w 31 28 = 2 ∨ bits w 31 28 = 3 ∨ bits w 31 28 = 6 ∨ bits w 31 28 = 7) ∧ bits w 27 4 ≠ 0) ∨
  (bits w 31 28 = 5 ∧ (bits w 25 4 ≠ 0 ∨ bits w 27 26 = 3)) ∨
  (bits w 31 28 = 4 ∧ (bits w 26 24 ≠ 0 ∨ bits w 19 10 ≠ 0))

/-- A register number of at most 6 makes a word of opcode 1 a `SETD`. -/
theorem exists_spells_setd (hop : bits w 31 28 = 1) (hrd : bits w 27 24 ≤ 6) : ∃ rd imm, Spells w (.setd rd imm) := by
  obtain ⟨rd, hrd⟩ := exists_regNum hrd
  exact ⟨rd, BitVec.ofNat 24 (bits w 23 0), hop, hrd, by simp [bits]⟩

theorem not_spells_of_spellsNone (hw : SpellsNone w) (i : Instr) : ¬ Spells w i := by
  intro h
  unfold SpellsNone at hw
  cases i with
  | halt =>
    obtain ⟨hop, hz⟩ := h
    omega
  | setd rd imm =>
    obtain ⟨hop, hrd, -⟩ := h
    have := regNum_le rd
    omega
  | brtab m | brperm m | ifft m | qshift m =>
    obtain ⟨hop, hz, -⟩ := h
    omega
  | bflyF e k | bflyI e k =>
    obtain ⟨hop, -, ⟨hz, hz'⟩, -⟩ := h
    omega
  | fftB m | fftI m | fftC m =>
    obtain ⟨hop, hty, hz, -⟩ := h
    omega

theorem exists_spells_of_not_spellsNone (hw : ¬ SpellsNone w) : ∃ i, Spells w i := by
  unfold SpellsNone at hw
  have hdir : bits w 27 27 < 2^1 := bits_lt w 27 27
  have hty : bits w 27 26 < 2^2 := bits_lt w 27 26
  have hop : bits w 31 28 < 8 := by omega
  generalize hop' : bits w 31 28 = op at hop hw
  interval_cases op
  · exact ⟨.halt, hop', by omega⟩
  · obtain ⟨rd, imm, h⟩ := exists_spells_setd hop' (by omega)
    exact ⟨_, h⟩
  · exact ⟨.brtab _, hop', by omega, rfl⟩
  · exact ⟨.brperm _, hop', by omega, rfl⟩
  · obtain hd | hd : bits w 27 27 = 0 ∨ bits w 27 27 = 1 := by omega
    · exact ⟨.bflyF _ _, hop', hd, by omega, rfl, rfl⟩
    · exact ⟨.bflyI _ _, hop', hd, by omega, rfl, rfl⟩
  · obtain ht | ht | ht : bits w 27 26 = 0 ∨ bits w 27 26 = 1 ∨ bits w 27 26 = 2 := by omega
    · exact ⟨.fftB _, hop', ht, by omega, rfl⟩
    · exact ⟨.fftI _, hop', ht, by omega, rfl⟩
    · exact ⟨.fftC _, hop', ht, by omega, rfl⟩
  · exact ⟨.ifft _, hop', by omega, rfl⟩
  · exact ⟨.qshift _, hop', by omega, rfl⟩

theorem decode_of_spellsNone (hw : SpellsNone w) : ∃ e, decode w = .error e := by
  cases hd : decode w with
  | error e => exact ⟨e, rfl⟩
  | ok i => exact absurd (spells_of_decode hd) (not_spells_of_spellsNone hw i)

/-- A fetch that answers has read the word at `cpc`, inside `CM` (`10_state.md` R26). -/
theorem of_fetch_eq_some {s : State} (hf : s.fetch = some w) :
    s.cpc.toNat < s.par.cmWords ∧ s.word s.cpc.toNat = w := by
  unfold State.fetch at hf
  split at hf
  next => cases hf
  next hpc => exact ⟨Nat.not_le.1 hpc, Option.some.inj hf⟩

/-! ### The rows of the opcode table (`30_encoding.md` R84) -/

/-- A mask of `k` bits from bit `lo` on keeps the field of those bits, in its place. -/
theorem and_mask_eq_field (n k lo : Nat) : n &&& (2^k - 1) * 2^lo = n / 2^lo % 2^k * 2^lo := by
  apply Nat.eq_of_testBit_eq
  intro j
  simp only [Nat.testBit_and, Nat.testBit_mul_two_pow, Nat.testBit_two_pow_sub_one, Nat.testBit_mod_two_pow,
    Nat.testBit_div_two_pow]
  by_cases hj : lo ≤ j
  · simp [hj, Bool.and_comm]
  · simp [hj]

theorem toNat_and_maskS : (w &&& 0xF0000000#32).toNat = bits w 31 28 * 2^28 := and_mask_eq_field w.toNat 4 28

theorem toNat_and_maskOrder : (w &&& 0xFFFFFFF0#32).toNat = bits w 31 4 * 2^4 := and_mask_eq_field w.toNat 28 4

/-- The mask of format B has the two fields [31:24] and [19:10]. -/
theorem toNat_and_maskB : (w &&& 0xFF0FFC00#32).toNat = bits w 31 24 * 2^24 + bits w 19 10 * 2^10 := by
  have hlow : bits w 19 10 * 2^10 < 2^24 := by
    have : bits w 19 10 < 2^10 := bits_lt w 19 10
    omega
  calc (w &&& 0xFF0FFC00#32).toNat = w.toNat &&& ((2^8 - 1) * 2^24 ||| (2^10 - 1) * 2^10) := by rw [BitVec.toNat_and]; rfl
    _ = bits w 31 24 * 2^24 ||| bits w 19 10 * 2^10 := by
      rw [Nat.and_or_distrib_left, and_mask_eq_field, and_mask_eq_field]; rfl
    _ = bits w 31 24 * 2^24 + bits w 19 10 * 2^10 := by
      rw [Nat.mul_comm, Nat.two_pow_add_eq_or_of_lt hlow]

theorem matchesHalt_iff : w &&& 0xFFFFFFFF#32 = 0x00000000#32 ↔ FormatHalt w := by
  rw [show (0xFFFFFFFF#32 : Word) = BitVec.allOnes 32 from rfl, BitVec.and_allOnes, formatHalt_iff, eq_comm]

theorem matchesS_iff : w &&& 0xF0000000#32 = 0x10000000#32 ↔ bits w 31 28 = 1 := by
  rw [← BitVec.toNat_inj, toNat_and_maskS]
  show _ = 0x10000000 ↔ _
  omega

theorem matchesM_iff {op : Nat} (hop : op < 16) :
    w &&& 0xFFFFFFF0#32 = BitVec.ofNat 32 (op * 2^28) ↔ FormatM op w (bits w 3 0) := by
  have hcut : bits w 31 4 = bits w 31 28 * 2^24 + bits w 27 4 := bits_cut w (by decide) (by decide)
  have hlow : bits w 27 4 < 2^24 := bits_lt w 27 4
  rw [eq_comm, ofNat_eq_word (by omega), toNat_and_maskOrder, FormatM]
  omega

theorem matchesB_iff {dir : Nat} (hdir : dir < 2) :
    w &&& 0xFF0FFC00#32 = BitVec.ofNat 32 (0x40000000 + dir * 2^27) ↔ FormatB dir w (bits w 23 20) (bits w 9 0) := by
  have hcut : bits w 31 24 = bits w 31 28 * 2^4 + bits w 27 24 := bits_cut w (by decide) (by decide)
  have hcut' : bits w 27 24 = bits w 27 27 * 2^3 + bits w 26 24 := bits_cut w (by decide) (by decide)
  have hdirBit : bits w 27 27 < 2^1 := bits_lt w 27 27
  have hzero : bits w 26 24 < 2^3 := bits_lt w 26 24
  have hzero' : bits w 19 10 < 2^10 := bits_lt w 19 10
  rw [eq_comm, ofNat_eq_word (by omega), toNat_and_maskB, FormatB]
  omega

theorem matchesT_iff {ty : Nat} (hty : ty < 4) :
    w &&& 0xFFFFFFF0#32 = BitVec.ofNat 32 (0x50000000 + ty * 2^26) ↔ FormatT ty w (bits w 3 0) := by
  have hcut : bits w 31 4 = bits w 31 28 * 2^24 + bits w 27 4 := bits_cut w (by decide) (by decide)
  have hcut' : bits w 27 4 = bits w 27 26 * 2^22 + bits w 25 4 := bits_cut w (by decide) (by decide)
  have htag : bits w 27 26 < 2^2 := bits_lt w 27 26
  have hzero : bits w 25 4 < 2^22 := bits_lt w 25 4
  rw [eq_comm, ofNat_eq_word (by omega), toNat_and_maskOrder, FormatT]
  omega

/-- A word that matches a row, with a register number of at most 6 in `SETD`'s, spells a command of the row's name. -/
theorem exists_spells_of_matches {row : OpcodeRow} (hrow : row ∈ opcodeTable) (hm : w &&& row.mask = row.pattern)
    (hrd : row.name = "SETD" → bits w 27 24 ≤ 6) : ∃ i, Spells w i ∧ mnemonic i = row.name := by
  simp only [opcodeTable, List.mem_cons, List.not_mem_nil, or_false] at hrow
  rcases hrow with rfl | rfl | rfl | rfl | rfl | rfl | rfl | rfl | rfl | rfl | rfl
  · exact ⟨.halt, matchesHalt_iff.1 hm, rfl⟩
  · obtain ⟨rd, imm, h⟩ := exists_spells_setd (matchesS_iff.1 hm) (hrd rfl)
    exact ⟨_, h, rfl⟩
  · exact ⟨.brtab _, (matchesM_iff (by decide)).1 hm, rfl⟩
  · exact ⟨.brperm _, (matchesM_iff (by decide)).1 hm, rfl⟩
  · exact ⟨.bflyF _ _, (matchesB_iff (by decide)).1 hm, rfl⟩
  · exact ⟨.bflyI _ _, (matchesB_iff (by decide)).1 hm, rfl⟩
  · exact ⟨.fftB _, (matchesT_iff (by decide)).1 hm, rfl⟩
  · exact ⟨.fftI _, (matchesT_iff (by decide)).1 hm, rfl⟩
  · exact ⟨.fftC _, (matchesT_iff (by decide)).1 hm, rfl⟩
  · exact ⟨.ifft _, (matchesM_iff (by decide)).1 hm, rfl⟩
  · exact ⟨.qshift _, (matchesM_iff (by decide)).1 hm, rfl⟩

/-- The row of a command. -/
def rowOf : Instr → OpcodeRow
  | .halt => opcodeTable[0]
  | .setd _ _ => opcodeTable[1]
  | .brtab _ => opcodeTable[2]
  | .brperm _ => opcodeTable[3]
  | .bflyF _ _ => opcodeTable[4]
  | .bflyI _ _ => opcodeTable[5]
  | .fftB _ => opcodeTable[6]
  | .fftI _ => opcodeTable[7]
  | .fftC _ => opcodeTable[8]
  | .ifft _ => opcodeTable[9]
  | .qshift _ => opcodeTable[10]

theorem rowOf_mem (i : Instr) : rowOf i ∈ opcodeTable := by cases i <;> exact List.getElem_mem _

theorem rowOf_name (i : Instr) : (rowOf i).name = mnemonic i := by cases i <;> rfl

theorem opcodeTable_names_nodup : (opcodeTable.map OpcodeRow.name).Nodup := by decide

/-- The table has one row for a mnemonic. -/
theorem eq_rowOf {row : OpcodeRow} {i : Instr} (hrow : row ∈ opcodeTable) (hname : mnemonic i = row.name) : row = rowOf i :=
  List.inj_on_of_nodup_map opcodeTable_names_nodup hrow (rowOf_mem i) (hname.symm.trans (rowOf_name i).symm)

theorem matches_rowOf {i : Instr} (h : Spells w i) : w &&& (rowOf i).mask = (rowOf i).pattern := by
  cases i with
  | halt => exact matchesHalt_iff.2 h
  | setd rd imm => exact matchesS_iff.2 h.1
  | brtab m | brperm m | ifft m | qshift m =>
    obtain ⟨-, -, rfl⟩ := id h
    exact (matchesM_iff (by decide)).2 h
  | bflyF e k | bflyI e k =>
    obtain ⟨-, -, -, rfl, rfl⟩ := id h
    exact (matchesB_iff (by decide)).2 h
  | fftB m | fftI m | fftC m =>
    obtain ⟨-, -, -, rfl⟩ := id h
    exact (matchesT_iff (by decide)).2 h

theorem register_le_of_setd {i : Instr} (h : Spells w i) (hname : mnemonic i = "SETD") : bits w 27 24 ≤ 6 := by
  cases i with
  | setd rd imm =>
    obtain ⟨-, hrd, -⟩ := h
    exact hrd.trans_le (regNum_le rd)
  | _ => simp [mnemonic] at hname

end

/-! ### The statements -/

/-- Settles O2: the word of a well-formed command spells it, and the decoder reads off what a word spells. -/
theorem decodeOfEncode : Obligations.DecodeOfEncode := fun _ hwf => decode_of_spells (spells_iff.2 ⟨hwf, rfl⟩)

/-- Settles O3, by the same two rules read the other way. -/
theorem encodeOfDecode : Obligations.EncodeOfDecode := fun _ _ hd => spells_iff.1 (spells_of_decode hd)

/-- Settles O4: a word of R79's list spells no command and any other word spells one, so the decoder answers an error or that
command. -/
theorem illegalWordsAreExactlyThose : Obligations.IllegalWordsAreExactlyThose := by
  refine ⟨fun s w hf hw => ?_, fun s w hf hw => ?_, by decide, by decide⟩
  · obtain ⟨hpc, rfl⟩ := of_fetch_eq_some hf
    obtain ⟨e, hd⟩ := decode_of_spellsNone hw
    exact runStep_of_decode_error hpc hd
  · obtain ⟨hpc, rfl⟩ := of_fetch_eq_some hf
    obtain ⟨i, hi⟩ := exists_spells_of_not_spellsNone hw
    exact ⟨i, decode_of_spells hi, runStep_of_decode_ok hpc (decode_of_spells hi)⟩

/-- Settles O5: a row's mask and pattern fix the fields that its command's format fixes, and a mnemonic has one row. -/
theorem opcodeRowsMatchDecoding : Obligations.OpcodeRowsMatchDecoding := by
  intro row hrow w
  simp only [decode_eq_ok_iff]
  constructor
  · rintro ⟨hm, hrd⟩
    exact exists_spells_of_matches hrow hm hrd
  · rintro ⟨i, hi, hname⟩
    refine ⟨?_, fun hsetd => register_le_of_setd hi (hname.trans hsetd)⟩
    rw [eq_rowOf hrow hname]
    exact matches_rowOf hi

/-- Settles O1, by running the decoder on each word. -/
theorem wordsOfTheSpecDecode : Obligations.WordsOfTheSpecDecode := by
  unfold Obligations.WordsOfTheSpecDecode
  decide

end Sys2Proof.Proofs

/-! # Binary64, the twiddle factor and the butterfly: proofs of the statements about `40_butterfly.md`

First the rules: how a quotient is rounded, what each operation answers by the kinds of its operands, how the twiddle table
unfolds by quadrants, and how far its fixed-point cosine and sine lie from the exact ones. The statements are settled at the
end, from these rules. -/

namespace Sys2Proof.Proofs

open Sys2Proof.Machine Sys2Proof.Laws

/-! ### Rounding (`40_butterfly.md` R91) -/

/-- A significand of at most 53 bits, the carry to `2^53` included, scaled by `2^e`; only the lowest scale has shorter ones. -/
theorem magUnits_scaled {q e : Nat} (hlow : e = 0 ∨ 2^52 ≤ q) (hhigh : q ≤ 2^53) :
    F64.magUnits (e * 2^52 + q) = q * 2^e := by
  rcases Nat.lt_or_ge q (2^52) with hsub | hnorm
  · obtain rfl : e = 0 := by omega
    rw [F64.magUnits, if_pos (by omega)]
    omega
  · rcases Nat.lt_or_eq_of_le hhigh with hlt | rfl
    · exact magUnits_normal hnorm hlt
    · have hcarry : e * 2^52 + 2^53 = (e + 1) * 2^52 + 2^52 := by omega
      calc F64.magUnits (e * 2^52 + 2^53)
        _ = F64.magUnits ((e + 1) * 2^52 + 2^52) := by rw [hcarry]
        _ = 2^52 * 2^(e + 1) := magUnits_normal (by omega) (by omega)
        _ = 2^53 * 2^e := by omega

/-- Bits [62:0] as a scaled significand. -/
theorem exists_scaled (m : Nat) : ∃ q e, m = e * 2^52 + q ∧ (e = 0 ∨ 2^52 ≤ q) ∧ q < 2^53 := by
  rcases Nat.eq_zero_or_pos (m / 2^52) with h | h
  · exact ⟨m, 0, by omega, by omega, by omega⟩
  · exact ⟨m % 2^52 + 2^52, m / 2^52 - 1, by omega, by omega, by omega⟩

theorem magUnits_strictMono : StrictMono F64.magUnits := by
  refine strictMono_nat_of_lt_succ fun m => ?_
  obtain ⟨q, e, rfl, hlow, hhigh⟩ := exists_scaled m
  rw [Nat.add_assoc, magUnits_scaled hlow hhigh.le, magUnits_scaled (by omega) hhigh]
  exact Nat.mul_lt_mul_of_pos_right (Nat.lt_succ_self q) (Nat.two_pow_pos e)

/-- The power of two that the last bit of a rounded significand stands for. -/
def ulpLog (num den : Nat) : Nat := Nat.log2 (num / den) - 52

/-- The step between the neighbours of `num / den`, over `den`. -/
def ulp (num den : Nat) : Nat := den * 2^(ulpLog num den)

/-- The significand, rounded once to nearest, ties to even. -/
def significand (num den : Nat) : Nat :=
  let q := num / ulp num den
  let r := num % ulp num den
  if ulp num den < 2 * r ∨ (2 * r = ulp num den ∧ q % 2 = 1) then q + 1 else q

/-- Bits [62:0] of the rounding, before what is past the largest finite value becomes an infinity. -/
def nearestMag (num den : Nat) : Nat := ulpLog num den * 2^52 + significand num den

theorem roundMag_eq_min (num den : Nat) : F64.roundMag num den = min (nearestMag num den) F64.infMag := rfl

section
variable {num den : Nat}

theorem quotient_bounds (num den : Nat) :
    (ulpLog num den = 0 ∨ 2^52 ≤ num / ulp num den) ∧ num / ulp num den < 2^53 := by
  rw [ulp, ← Nat.div_div_eq_div_mul, ulpLog]
  rcases Nat.lt_or_ge (num / den) (2^53) with hsmall | hlarge
  · have : Nat.log2 (num / den) < 53 := by
      rcases Nat.eq_zero_or_pos (num / den) with h | h
      · rw [h]; decide
      · exact (Nat.log2_lt h.ne').2 hsmall
    rw [show Nat.log2 (num / den) - 52 = 0 by omega]
    simpa using hsmall
  · have hne : num / den ≠ 0 := by omega
    have hlog : 53 ≤ Nat.log2 (num / den) := (Nat.le_log2 hne).2 hlarge
    refine ⟨.inr ?_, ?_⟩
    · rw [Nat.le_div_iff_mul_le (Nat.two_pow_pos _), ← Nat.pow_add, Nat.add_sub_cancel' (by omega)]
      exact Nat.log2_self_le hne
    · rw [Nat.div_lt_iff_lt_mul (Nat.two_pow_pos _), ← Nat.pow_add]
      exact Nat.lt_log2_self.trans_eq (by congr 1; omega)

/-- Rounding to one of two neighbours: no multiple outside them is nearer, and one as near is the tie's other side. -/
theorem nearest_of_neighbours {q u r v : Nat} (hr : r < u) (hv : v ≤ q * u ∨ (q + 1) * u ≤ v) {w : Nat}
    (hw : w = if u < 2 * r ∨ (2 * r = u ∧ q % 2 = 1) then q + 1 else q) :
    |(w * u : Int) - (q * u + r : Nat)| ≤ |(v : Int) - (q * u + r : Nat)| ∧
    (|(w * u : Int) - (q * u + r : Nat)| = |(v : Int) - (q * u + r : Nat)| → v ≠ w * u → w % 2 = 0) := by
  rw [Nat.add_mul, Nat.one_mul] at hv
  split_ifs at hw with hup
  · subst hw
    have hprod : ((q + 1 : Nat) : Int) * u = ((q * u + u : Nat) : Int) := by push_cast; ring
    have hprod' : (q + 1) * u = q * u + u := by ring
    rw [hprod, hprod']
    generalize q * u = l at *
    rw [Int.abs_eq_natAbs, Int.abs_eq_natAbs]
    omega
  · subst hw
    have hprod : (w : Int) * u = ((w * u : Nat) : Int) := by push_cast; ring
    rw [hprod]
    generalize w * u = l at *
    rw [Int.abs_eq_natAbs, Int.abs_eq_natAbs]
    omega

theorem magUnits_nearestMag (num den : Nat) :
    F64.magUnits (nearestMag num den) = significand num den * 2^(ulpLog num den) := by
  obtain ⟨hlow, hhigh⟩ := quotient_bounds num den
  have hle : significand num den = num / ulp num den ∨ significand num den = num / ulp num den + 1 := by
    rw [significand]; split_ifs <;> simp
  exact magUnits_scaled (by omega) (by omega)

/-- A magnitude is not strictly between the neighbours of `num / den`. -/
theorem magUnits_neighbours (num den c : Nat) : F64.magUnits c * den ≤ num / ulp num den * ulp num den ∨
    (num / ulp num den + 1) * ulp num den ≤ F64.magUnits c * den := by
  obtain ⟨hlow, hhigh⟩ := quotient_bounds num den
  have hscale : ∀ q, q * ulp num den = q * 2^(ulpLog num den) * den := fun q => by rw [ulp]; ring
  rw [hscale, hscale, ← magUnits_scaled hlow hhigh.le, ← magUnits_scaled (by omega) hhigh]
  rcases Nat.lt_or_ge c (ulpLog num den * 2^52 + (num / ulp num den + 1)) with h | h
  · exact .inl (Nat.mul_le_mul_right _ (magUnits_strictMono.monotone (by omega)))
  · exact .inr (Nat.mul_le_mul_right _ (magUnits_strictMono.monotone h))

/-- No magnitude is nearer, and where another is as near the rounding is even. -/
theorem nearestMag_nearest (hden : 0 < den) (num c : Nat) :
    |((F64.magUnits (nearestMag num den) * den : Nat) - num : Int)| ≤ |((F64.magUnits c * den : Nat) - num : Int)| ∧
    (|((F64.magUnits (nearestMag num den) * den : Nat) - num : Int)| = |((F64.magUnits c * den : Nat) - num : Int)| →
      c ≠ nearestMag num den → nearestMag num den % 2 = 0) := by
  have hulp : 0 < ulp num den := Nat.mul_pos hden (Nat.two_pow_pos _)
  obtain ⟨hle, htie⟩ :=
    nearest_of_neighbours (Nat.mod_lt num hulp) (magUnits_neighbours num den c) (w := significand num den) rfl
  have hval : F64.magUnits (nearestMag num den) * den = significand num den * ulp num den := by
    rw [magUnits_nearestMag, ulp]; ring
  rw [Nat.mul_comm, Nat.div_add_mod, ← Nat.cast_mul, ← hval] at hle htie
  refine ⟨hle, fun heq hne => ?_⟩
  have := htie heq fun hc => hne (magUnits_strictMono.injective (Nat.eq_of_mul_eq_mul_right hden hc))
  rw [nearestMag]
  omega

/-- Rounding reaches the power of two `2^54` times `2^e` exactly from `2^e` below it on, half a step of the significands
below it. -/
theorem nearestMag_reaches (hden : 0 < den) (num e : Nat) :
    (e + 2) * 2^52 + 2^52 ≤ nearestMag num den ↔ den * ((2^54 - 1) * 2^e) ≤ num := by
  have hpow : F64.magUnits ((e + 2) * 2^52 + 2^52) * den = 2^54 * (2^e * den) := by
    rw [magUnits_scaled (by omega) (by omega), Nat.pow_add]
    ring
  have hprev : F64.magUnits ((e + 1) * 2^52 + (2^53 - 1)) * den = (2^54 - 2) * (2^e * den) := by
    rw [magUnits_scaled (by omega) (by omega), Nat.pow_succ]
    ring
  obtain ⟨hnear, htie⟩ := nearestMag_nearest hden num ((e + 2) * 2^52 + 2^52)
  obtain ⟨hnear', -⟩ := nearestMag_nearest hden num ((e + 1) * 2^52 + (2^53 - 1))
  have hstep : 0 < 2^e * den := Nat.mul_pos (Nat.two_pow_pos e) hden
  have hmono : ∀ {a b}, a ≤ b → F64.magUnits a * den ≤ F64.magUnits b * den := fun h =>
    Nat.mul_le_mul_right den (magUnits_strictMono.monotone h)
  rw [show den * ((2^54 - 1) * 2^e) = (2^54 - 1) * (2^e * den) by ring]
  rw [hpow] at hnear htie
  rw [hprev] at hnear'
  simp only [Int.abs_eq_natAbs] at hnear hnear' htie
  constructor
  · intro hge
    have hv := hmono hge
    omega
  · intro hge
    by_contra hlt
    have hle : nearestMag num den ≤ (e + 1) * 2^52 + (2^53 - 1) := by omega
    have hv := hmono hle
    rw [hprev] at hv
    have heven := htie (by omega) (by omega)
    have hlt' : nearestMag num den < (e + 1) * 2^52 + (2^53 - 1) := by omega
    have hv' := Nat.mul_lt_mul_of_pos_right (magUnits_strictMono hlt') hden
    omega

theorem infMag_lt : F64.infMag < 2^63 := by decide

theorem roundMag_le (num den : Nat) : F64.roundMag num den ≤ F64.infMag := Nat.min_le_right _ _

theorem roundMag_eq_infMag (hden : 0 < den) (num : Nat) :
    F64.roundMag num den = F64.infMag ↔ den * ((2^54 - 1) * 2^2044) ≤ num := by
  rw [← nearestMag_reaches hden, roundMag_eq_min, min_eq_right_iff]
  rfl

/-- The rounding of a quotient is the value of its sign rounded once, as R91 says. -/
theorem isRounding_ofUnits (sgn : Bool) (num : Nat) (hden : 0 < den) :
    F64.IsRounding sgn num den (F64.ofUnits sgn num den) := by
  have hle := roundMag_le num den
  have hlt := hle.trans_lt infMag_lt
  rw [F64.ofUnits]
  constructor
  · exact sign_ofMag sgn hlt
  · rwa [mag_ofMag sgn hlt]
  · rw [mag_ofMag sgn hlt]
    exact roundMag_eq_infMag hden num
  · rw [mag_ofMag sgn hlt]
    intro hfin c _
    have heq : F64.roundMag num den = nearestMag num den := by
      rw [roundMag_eq_min] at hfin ⊢
      omega
    rw [heq]
    exact_mod_cast nearestMag_nearest hden num c

end

/-! ### The kinds of operands, and what each operation answers for them (`40_butterfly.md` R91, R97) -/

section
variable {x y : F64}

theorem toNat_eq_sign_mag (x : F64) : x.toNat = (if F64.sign x then 2^63 else 0) + F64.mag x := by
  have := x.isLt
  simp only [F64.sign, F64.mag, decide_eq_true_eq]
  split_ifs <;> omega

theorem mag_lt (x : F64) : F64.mag x < 2^63 := Nat.mod_lt _ (Nat.two_pow_pos 63)

theorem ofMag_sign_mag (x : F64) : F64.ofMag (F64.sign x) (F64.mag x) = x := by
  apply BitVec.eq_of_toNat_eq
  rw [ofMag_toNat _ (mag_lt x), toNat_eq_sign_mag x]
  split_ifs <;> omega

@[simp] theorem mag_neg (x : F64) : F64.mag (F64.neg x) = F64.mag x := by
  rw [F64.mag, F64.neg, BitVec.toNat_xor, Nat.xor_mod_two_pow]
  exact Nat.xor_zero _

@[simp] theorem sign_neg (x : F64) : F64.sign (F64.neg x) = !F64.sign x := by
  have hmsb : ∀ y : F64, F64.sign y = y.msb := fun y => (BitVec.msb_eq_decide y).symm
  rw [hmsb, hmsb, F64.neg, BitVec.msb_xor]
  exact Bool.xor_true _

theorem neg_ofMag (sgn : Bool) {m : Nat} (hm : m < 2^63) : F64.neg (F64.ofMag sgn m) = F64.ofMag (!sgn) m := by
  rw [← ofMag_sign_mag (F64.neg _), mag_neg, sign_neg, mag_ofMag sgn hm, sign_ofMag sgn hm]

@[simp] theorem isNaN_neg (x : F64) : F64.isNaN (F64.neg x) = F64.isNaN x := by rw [F64.isNaN, F64.isNaN, mag_neg]

@[simp] theorem isInf_neg (x : F64) : F64.isInf (F64.neg x) = F64.isInf x := by rw [F64.isInf, F64.isInf, mag_neg]

@[simp] theorem isFinite_neg (x : F64) : F64.isFinite (F64.neg x) = F64.isFinite x := by
  rw [F64.isFinite, F64.isFinite, mag_neg]

@[simp] theorem units_neg (x : F64) : F64.units (F64.neg x) = -F64.units x := by
  rw [F64.units, F64.units, mag_neg, sign_neg]
  cases F64.sign x <;> simp

theorem units_natAbs (x : F64) : (F64.units x).natAbs = F64.magUnits (F64.mag x) := by
  rw [F64.units]
  split_ifs <;> simp

theorem mag_ne_zero_of_magUnits (h : 0 < F64.magUnits (F64.mag x)) : F64.mag x ≠ 0 := fun h0 => by
  rw [h0] at h
  exact absurd h (by decide)

theorem isNaN_of_isFinite (h : F64.isFinite x = true) : F64.isNaN x = false := by
  simp only [F64.isFinite, F64.isNaN, decide_eq_true_eq, decide_eq_false_iff_not] at *
  omega

theorem isInf_of_isFinite (h : F64.isFinite x = true) : F64.isInf x = false := by
  simp only [F64.isFinite, F64.isInf, decide_eq_true_eq, beq_eq_false_iff_ne] at *
  omega

theorem mag_of_isInf (h : F64.isInf x = true) : F64.mag x = F64.infMag := by simpa [F64.isInf] using h

theorem sum_of_isNaN (op : ArithOp) (h : F64.isNaN x = true ∨ F64.isNaN y = true) : F64.sum op x y = F64.nan op x y := by
  simp [F64.sum, h]

theorem mul_of_isNaN (h : F64.isNaN x = true ∨ F64.isNaN y = true) : F64.mul x y = F64.nan .mul x y := by
  simp [F64.mul, h]

theorem div_of_isNaN (h : F64.isNaN x = true ∨ F64.isNaN y = true) : F64.div x y = F64.nan .div x y := by
  simp [F64.div, h]

theorem sum_finite (op : ArithOp) (hx : F64.isFinite x = true) (hy : F64.isFinite y = true) :
    F64.sum op x y =
      if F64.units x + F64.units y = 0 then F64.ofMag (F64.sign x && F64.sign y) 0
      else F64.ofUnits (decide (F64.units x + F64.units y < 0)) (F64.units x + F64.units y).natAbs 1 := by
  simp [F64.sum, isNaN_of_isFinite hx, isNaN_of_isFinite hy, isInf_of_isFinite hx, isInf_of_isFinite hy]

theorem mul_finite (hx : F64.isFinite x = true) (hy : F64.isFinite y = true) :
    F64.mul x y =
      F64.ofUnits (F64.sign x != F64.sign y) (F64.magUnits (F64.mag x) * F64.magUnits (F64.mag y)) (2^1074) := by
  simp only [F64.mul, isNaN_of_isFinite hx, isNaN_of_isFinite hy, isInf_of_isFinite hx, isInf_of_isFinite hy, Bool.or_false,
    Bool.false_eq_true, if_false]

theorem div_finite (hx : F64.isFinite x = true) (hy : F64.isFinite y = true) (h0 : F64.mag y ≠ 0) :
    F64.div x y =
      F64.ofUnits (F64.sign x != F64.sign y) (F64.magUnits (F64.mag x) * 2^1074) (F64.magUnits (F64.mag y)) := by
  simp only [F64.div, isNaN_of_isFinite hx, isNaN_of_isFinite hy, isInf_of_isFinite hx, isInf_of_isFinite hy, Bool.or_false,
    Bool.false_eq_true, if_false, h0]

theorem sum_inf_left (op : ArithOp) (hx : F64.isInf x = true) (hy : F64.isNaN y = false) :
    F64.sum op x y = if F64.isInf y = true ∧ F64.sign x ≠ F64.sign y then F64.nan op x y else x := by
  simp [F64.sum, isNaN_of_isInf x hx, hx, hy]

theorem sum_inf_right (op : ArithOp) (hx : F64.isFinite x = true) (hy : F64.isInf y = true) : F64.sum op x y = y := by
  simp [F64.sum, isNaN_of_isFinite hx, isInf_of_isFinite hx, isNaN_of_isInf y hy, hy]

theorem mul_inf (hx : F64.isNaN x = false) (hy : F64.isNaN y = false) (h : F64.isInf x = true ∨ F64.isInf y = true) :
    F64.mul x y = if F64.mag x = 0 ∨ F64.mag y = 0 then F64.nan .mul x y
      else F64.ofMag (F64.sign x != F64.sign y) F64.infMag := by
  simp [F64.mul, hx, hy, h]

theorem div_inf_left (hx : F64.isInf x = true) (hy : F64.isFinite y = true) :
    F64.div x y = F64.ofMag (F64.sign x != F64.sign y) F64.infMag := by
  simp [F64.div, isNaN_of_isInf x hx, hx, isNaN_of_isFinite hy, isInf_of_isFinite hy]

theorem mag_ne_zero_of_isInf (h : F64.isInf x = true) : F64.mag x ≠ 0 := by
  rw [mag_of_isInf h]
  decide

theorem isFinite_of_mag_eq_zero (h : F64.mag x = 0) : F64.isFinite x = true := by
  rw [F64.isFinite, h]
  decide

/-- What R97 lets a model know of an operation's NaN. -/
theorem quietNaN_of_eq_nan {r : F64} {op : ArithOp} (h : r = F64.nan op x y) :
    F64.isNaN r = true ∧ r.getLsbD 51 = true := by
  rw [h]
  exact ⟨isNaN_nan op x y, quiet_nan op x y⟩

theorem quietNaN_of_isNaN_operand (h : F64.isNaN x = true ∨ F64.isNaN y = true) :
    ∀ r ∈ [F64.add x y, F64.sub x y, F64.mul x y, F64.div x y], F64.isNaN r = true ∧ r.getLsbD 51 = true := by
  have hneg : F64.isNaN x = true ∨ F64.isNaN (F64.neg y) = true := by rwa [isNaN_neg]
  simp only [List.forall_mem_cons, List.not_mem_nil, false_imp_iff, implies_true, and_true]
  exact ⟨quietNaN_of_eq_nan (sum_of_isNaN _ h), quietNaN_of_eq_nan (sum_of_isNaN _ hneg),
    quietNaN_of_eq_nan (mul_of_isNaN h), quietNaN_of_eq_nan (div_of_isNaN h)⟩

theorem isRounding_sum (op : ArithOp) (hx : F64.isFinite x = true) (hy : F64.isFinite y = true)
    (hne : F64.units x + F64.units y ≠ 0) :
    F64.IsRounding (decide (F64.units x + F64.units y < 0)) (F64.units x + F64.units y).natAbs 1 (F64.sum op x y) := by
  rw [sum_finite op hx hy, if_neg hne]
  exact isRounding_ofUnits _ _ one_pos

theorem isRounding_mul (hx : F64.isFinite x = true) (hy : F64.isFinite y = true) :
    F64.IsRounding (F64.sign x != F64.sign y) ((F64.units x).natAbs * (F64.units y).natAbs) (2^1074) (F64.mul x y) := by
  rw [mul_finite hx hy, units_natAbs, units_natAbs]
  exact isRounding_ofUnits _ _ (by positivity)

theorem isRounding_div (hx : F64.isFinite x = true) (hy : F64.isFinite y = true) (hne : F64.units y ≠ 0) :
    F64.IsRounding (F64.sign x != F64.sign y) ((F64.units x).natAbs * 2^1074) (F64.units y).natAbs (F64.div x y) := by
  have hpos : 0 < F64.magUnits (F64.mag y) := by
    rw [← units_natAbs]
    exact Int.natAbs_pos.2 hne
  rw [div_finite hx hy (mag_ne_zero_of_magUnits hpos), units_natAbs, units_natAbs]
  exact isRounding_ofUnits _ _ hpos

/-- Two infinities: equal signs cancel in a difference and opposite ones in a sum, and the others stay. -/
theorem infinity_infinity (hx : F64.isInf x = true) (hy : F64.isInf y = true) :
    F64.add x y = (if F64.sign x ≠ F64.sign y then F64.nan .add x y else x) ∧
    F64.sub x y = (if F64.sign x = F64.sign y then F64.nan .sub x (F64.neg y) else x) ∧
    F64.mul x y = F64.ofMag (F64.sign x != F64.sign y) F64.infMag := by
  have hnx := isNaN_of_isInf x hx
  have hny := isNaN_of_isInf y hy
  refine ⟨?_, ?_, ?_⟩
  · rw [F64.add, sum_inf_left .add hx hny]
    simp only [hy, true_and]
  · rw [F64.sub, sum_inf_left .sub hx ((isNaN_neg y).trans hny)]
    simp only [isInf_neg, hy, sign_neg, true_and, ne_eq, Bool.eq_not, not_not]
  · rw [mul_inf hnx hny (.inl hx), if_neg (by simp [mag_ne_zero_of_isInf, hx, hy])]

theorem infinity_zero (hx : F64.isInf x = true) (hy : F64.mag y = 0) :
    F64.mul x y = F64.nan .mul x y ∧ F64.mul y x = F64.nan .mul y x := by
  have hnx := isNaN_of_isInf x hx
  have hny := isNaN_of_isFinite (isFinite_of_mag_eq_zero hy)
  rw [mul_inf hnx hny (.inl hx), mul_inf hny hnx (.inr hx), if_pos (.inr hy), if_pos (.inl hy)]
  exact ⟨rfl, rfl⟩

/-- An infinity against a finite operand. -/
theorem infinity_finite (hx : F64.isInf x = true) (hy : F64.isFinite y = true) :
    F64.add x y = x ∧ F64.add y x = x ∧ F64.sub x y = x ∧ F64.sub y x = F64.neg x ∧
    F64.div x y = F64.ofMag (F64.sign x != F64.sign y) F64.infMag ∧
    (F64.mag y ≠ 0 → F64.mul x y = F64.ofMag (F64.sign x != F64.sign y) F64.infMag ∧
      F64.mul y x = F64.ofMag (F64.sign x != F64.sign y) F64.infMag) := by
  have hnx := isNaN_of_isInf x hx
  have hny := isNaN_of_isFinite hy
  have hsum : ∀ (op : ArithOp) {z : F64}, F64.isFinite z = true → F64.sum op x z = x := fun op z hz => by
    rw [sum_inf_left op hx (isNaN_of_isFinite hz), if_neg (by simp [isInf_of_isFinite hz])]
  refine ⟨hsum .add hy, sum_inf_right _ hy hx, hsum .sub ((isFinite_neg y).trans hy),
    sum_inf_right _ hy ((isInf_neg x).trans hx), div_inf_left hx hy, fun hne => ?_⟩
  have h0 := mag_ne_zero_of_isInf hx
  rw [mul_inf hnx hny (.inl hx), mul_inf hny hnx (.inr hx), if_neg (by tauto), if_neg (by tauto), bne_comm (a := F64.sign y)]
  exact ⟨rfl, rfl⟩

end

/-! ### Zeros and powers of two -/

theorem roundMag_zero {den : Nat} (hden : 0 < den) : F64.roundMag 0 den = 0 := by
  have hzero : significand 0 den = 0 := by
    have hulp : 0 < ulp 0 den := Nat.mul_pos hden (Nat.two_pow_pos _)
    simp only [significand, Nat.zero_div, Nat.zero_mod]
    rw [if_neg (by omega)]
  have hlog : ulpLog 0 den = 0 := by rw [ulpLog, Nat.zero_div]; decide
  rw [roundMag_eq_min, nearestMag, hzero, hlog]
  rfl

/-- A zero factor gives a zero with the exclusive-or of the signs. -/
theorem mul_zero_factor {z x : F64} (hz : F64.mag z = 0) (hx : F64.isFinite x = true) :
    F64.mul z x = F64.ofMag (F64.sign z != F64.sign x) 0 ∧ F64.mul x z = F64.ofMag (F64.sign x != F64.sign z) 0 := by
  have hzfin := isFinite_of_mag_eq_zero hz
  rw [mul_finite hzfin hx, mul_finite hx hzfin, hz, show F64.magUnits 0 = 0 by rfl, Nat.zero_mul, Nat.mul_zero, F64.ofUnits,
    F64.ofUnits, roundMag_zero (by positivity)]
  exact ⟨rfl, rfl⟩

/-- The pattern of `2^-M` and the value of `2^M`, for the orders of the block. -/
theorem powerOfTwo_units {m : Nat} (hm : m ≤ 15) :
    F64.sign (F64.ofInt (2^m)) = false ∧ F64.isFinite (F64.ofInt (2^m)) = true ∧
    F64.magUnits (F64.mag (F64.ofInt (2^m))) = 2^m * 2^1074 ∧
    F64.sign (BitVec.ofNat 64 ((1023 - m) * 2^52)) = false ∧ F64.isFinite (BitVec.ofNat 64 ((1023 - m) * 2^52)) = true ∧
    2^m * F64.magUnits (F64.mag (BitVec.ofNat 64 ((1023 - m) * 2^52))) = 2^1074 := by
  revert m
  decide +kernel

theorem kind_cases (x : F64) : F64.isNaN x = true ∨ F64.isInf x = true ∨ F64.isFinite x = true := by
  simp only [F64.isNaN, F64.isInf, F64.isFinite, decide_eq_true_eq, beq_iff_eq]
  omega

/-! ### The twiddle table by quadrants (`40_butterfly.md` R95) -/

/-- The entry at an angle of `q` quadrants and a rest with the given cosine and sine. -/
def quadrantEntry (q : Nat) (cs : Nat × Nat) : Cplx F64 :=
  match q with
  | 0 => { re := Twiddle.toF64 false cs.1, im := Twiddle.toF64 true cs.2 }
  | 1 => { re := Twiddle.toF64 true cs.2, im := Twiddle.toF64 true cs.1 }
  | 2 => { re := Twiddle.toF64 true cs.1, im := Twiddle.toF64 false cs.2 }
  | _ => { re := Twiddle.toF64 false cs.2, im := Twiddle.toF64 false cs.1 }

/-- The exponent reduced modulo `2^E`. -/
def reduced (e : Nat) (k : Int) : Nat := (k % (2^e : Int)).toNat

theorem twrom_eq (e : Nat) (k : Int) :
    Twiddle.twrom e k = quadrantEntry (4 * reduced e k / 2^e) (Twiddle.quadrant e (4 * reduced e k % 2^e)) := rfl

theorem reduced_lt (e : Nat) (k : Int) : reduced e k < 2^e := by
  have hlow := Int.emod_nonneg k (show (2^e : Int) ≠ 0 by positivity)
  have hhigh := Int.emod_lt_of_pos k (show (0 : Int) < 2^e by positivity)
  rw [reduced, Int.toNat_lt hlow]
  exact_mod_cast hhigh

/-- The entry where four times the reduced exponent is `q` quadrants and a rest. -/
theorem twrom_of_split {e q f : Nat} {k : Int} (h : 4 * reduced e k = q * 2^e + f) (hf : f < 2^e) :
    Twiddle.twrom e k = quadrantEntry q (Twiddle.quadrant e f) := by
  have h' : f + 2^e * q = 4 * reduced e k := by rw [Nat.add_comm, Nat.mul_comm, h]
  obtain ⟨hdiv, hmod⟩ := (Nat.div_mod_unique (Nat.two_pow_pos e)).2 ⟨h', hf⟩
  rw [twrom_eq, hdiv, hmod]

theorem exists_split (e : Nat) (k : Int) : ∃ q f, 4 * reduced e k = q * 2^e + f ∧ q < 4 ∧ f < 2^e :=
  ⟨4 * reduced e k / 2^e, 4 * reduced e k % 2^e, (Nat.div_add_mod' _ _).symm,
    (Nat.div_lt_iff_lt_mul (Nat.two_pow_pos e)).2 (by have := reduced_lt e k; omega), Nat.mod_lt _ (Nat.two_pow_pos e)⟩

theorem reduced_cast (e : Nat) (k : Int) : (reduced e k : Int) = k % 2^e :=
  Int.toNat_of_nonneg (Int.emod_nonneg k (by positivity))

theorem reduced_add_period (e : Nat) (k : Int) : reduced e (k + 2^e) = reduced e k := by
  rw [reduced, reduced, Int.add_emod_right]

theorem reduced_of_lt {e r : Nat} (hr : r < 2^e) : reduced e (r : Int) = r := by
  have : (r : Int) % 2^e = r := Int.emod_eq_of_lt (by positivity) (by exact_mod_cast hr)
  rw [reduced, this, Int.toNat_natCast]

theorem reduced_neg (e : Nat) (k : Int) : reduced e (-k) = if reduced e k = 0 then 0 else 2^e - reduced e k := by
  have hk := reduced_cast e k
  have hneg := reduced_cast e (-k)
  have hlt := reduced_lt e k
  have hsum : (reduced e k + reduced e (-k) : Int) % 2^e = 0 := by
    rw [hk, hneg, ← Int.add_emod, add_neg_cancel, Int.zero_emod]
  have hdvd : 2^e ∣ reduced e k + reduced e (-k) := by
    exact_mod_cast Int.dvd_of_emod_eq_zero hsum
  obtain ⟨c, hc⟩ := hdvd
  have hlt' := reduced_lt e (-k)
  have hc2 : c < 2 := by
    by_contra h
    have : 2^e * 2 ≤ 2^e * c := Nat.mul_le_mul_left _ (by omega)
    omega
  interval_cases c
  · rw [if_pos (by omega)]; omega
  · rw [if_neg (by omega)]; omega

/-! ### Rounding a fixed-point value -/

theorem roundMag_ne_zero {num den : Nat} (hden : 0 < den) (h : 2 * den ≤ num) : F64.roundMag num den ≠ 0 := by
  intro hzero
  have hmag : nearestMag num den = 0 := by
    have hinf : 0 < F64.infMag := by decide
    rw [roundMag_eq_min] at hzero
    omega
  have hnear := (nearestMag_nearest hden num 1).1
  rw [hmag, show F64.magUnits 0 = 0 from rfl, show F64.magUnits 1 = 1 from rfl] at hnear
  simp only [Int.abs_eq_natAbs] at hnear
  omega

theorem two_pow_lt_mul {a b c : Nat} (hab : a < b) (hc : 1 ≤ c) : 2^a < c * 2^b :=
  (Nat.pow_lt_pow_right one_lt_two hab).trans_le (Nat.le_mul_of_pos_left _ hc)

theorem twiddleOne_pos : 0 < Twiddle.one := by decide

@[simp] theorem toF64_zero (sgn : Bool) : Twiddle.toF64 sgn 0 = 0 := by
  revert sgn
  decide +kernel

theorem mag_toF64 (sgn : Bool) (v : Nat) : F64.mag (Twiddle.toF64 sgn v) = F64.roundMag (v * 2^1074) Twiddle.one :=
  mag_ofMag _ ((roundMag_le _ _).trans_lt infMag_lt)

theorem mag_toF64_ne_zero (sgn : Bool) {v : Nat} (hv : v ≠ 0) : F64.mag (Twiddle.toF64 sgn v) ≠ 0 := by
  have hone : 2 * Twiddle.one = 2^193 := by decide
  have hnum : 2 * Twiddle.one ≤ v * 2^1074 := hone.trans_le (two_pow_lt_mul (by omega) (Nat.pos_of_ne_zero hv)).le
  exact (mag_toF64 sgn v).trans_ne (roundMag_ne_zero twiddleOne_pos hnum)

/-- Changing the sign of a part, a zero staying `+0`. -/
theorem toF64_not (sgn : Bool) (v : Nat) : Twiddle.toF64 (!sgn) v =
    if F64.mag (Twiddle.toF64 sgn v) = 0 then 0 else F64.neg (Twiddle.toF64 sgn v) := by
  rcases eq_or_ne v 0 with rfl | hv
  · revert sgn
    decide +kernel
  · rw [if_neg (mag_toF64_ne_zero sgn hv)]
    simp only [Twiddle.toF64, F64.ofUnits, hv, ne_eq, not_false_eq_true, decide_true, Bool.and_true]
    rw [neg_ofMag _ ((roundMag_le _ _).trans_lt infMag_lt)]

/-! ### Symmetry and exact points of the table (`40_butterfly.md` R96) -/

theorem angle_half {e f : Nat} (h : 2 * f = 2^e) : Twiddle.angle e f = Twiddle.angle 1 1 := by
  have hf : 0 < f := by
    have := Nat.two_pow_pos e
    omega
  have : 2^(e + 1) = 2^2 * f := by rw [Nat.pow_succ]; omega
  rw [Twiddle.angle, Twiddle.angle, this, Nat.mul_div_mul_right _ _ hf, Nat.mul_one]

/-- At half a quadrant the cosine and the sine round alike. -/
theorem toF64_cosFixed_half {e f : Nat} (h : 2 * f = 2^e) (sgn : Bool) :
    Twiddle.toF64 sgn (Twiddle.cosFixed e f) = Twiddle.toF64 sgn (Twiddle.sinFixed e f) := by
  have hone : ∀ sgn, Twiddle.toF64 sgn (Twiddle.cosFixed 1 1) = Twiddle.toF64 sgn (Twiddle.sinFixed 1 1) := by
    decide +kernel
  simp only [Twiddle.cosFixed, Twiddle.sinFixed, angle_half h]
  exact hone sgn

/-- Reflecting the rest of the angle within its quadrant exchanges cosine and sine. -/
theorem toF64_quadrant_reflect {e f : Nat} (hf : f ≤ 2^e) (sgn : Bool) :
    Twiddle.toF64 sgn (Twiddle.quadrant e (2^e - f)).1 = Twiddle.toF64 sgn (Twiddle.quadrant e f).2 ∧
    Twiddle.toF64 sgn (Twiddle.quadrant e (2^e - f)).2 = Twiddle.toF64 sgn (Twiddle.quadrant e f).1 := by
  simp only [Twiddle.quadrant, Nat.sub_sub_self hf]
  rcases Nat.lt_trichotomy (2 * f) (2^e) with h | h | h
  · simp [if_pos h.le, if_neg (show ¬ 2 * (2^e - f) ≤ 2^e by omega)]
  · rw [if_pos h.le, if_pos (by omega), show 2^e - f = f by omega]
    exact ⟨toF64_cosFixed_half h sgn, (toF64_cosFixed_half h sgn).symm⟩
  · simp [if_neg (show ¬ 2 * f ≤ 2^e by omega), if_pos (show 2 * (2^e - f) ≤ 2^e by omega)]

theorem quadrant_zero (e : Nat) : Twiddle.quadrant e 0 = (Twiddle.one, 0) := by
  have hangle : Twiddle.angle e 0 = 0 := by simp [Twiddle.angle]
  simp only [Twiddle.quadrant, Twiddle.cosFixed, Twiddle.sinFixed, hangle]
  rw [if_pos (by positivity)]
  rfl

/-- The exact points (R94 (g)). -/
theorem quadrantEntry_exact :
    quadrantEntry 0 (Twiddle.one, 0) = { re := F64.ofInt 1, im := 0 } ∧
    quadrantEntry 1 (Twiddle.one, 0) = { re := 0, im := F64.ofInt (-1) } ∧
    quadrantEntry 2 (Twiddle.one, 0) = { re := F64.ofInt (-1), im := 0 } ∧
    quadrantEntry 3 (Twiddle.one, 0) = { re := 0, im := F64.ofInt 1 } := by
  decide +kernel

/-- The entries at a multiple of a quadrant. -/
theorem twrom_quarter {e r q : Nat} (hr : r < 2^e) (hq : 4 * r = q * 2^e) :
    Twiddle.twrom e (r : Int) = quadrantEntry q (Twiddle.one, 0) := by
  rw [twrom_of_split (by rw [reduced_of_lt hr, hq]; rfl) (Nat.two_pow_pos e), quadrant_zero]

theorem twrom_zero (e : Nat) : Twiddle.twrom e 0 = { re := F64.ofInt 1, im := 0 } := by
  rw [← quadrantEntry_exact.1, ← twrom_quarter (e := e) (r := 0) (Nat.two_pow_pos e) (by simp), Nat.cast_zero]

theorem twrom_order_zero (k : Int) : Twiddle.twrom 0 k = { re := F64.ofInt 1, im := 0 } := by
  rw [← twrom_zero 0, twrom_eq, twrom_eq, reduced, reduced, pow_zero, Int.emod_one, Int.emod_one]

/-- `z` is the conjugate of `w`, a zero part `+0` in both. -/
def IsTableConj (z w : Cplx F64) : Prop := z.re = w.re ∧ z.im = if F64.mag w.im = 0 then 0 else F64.neg w.im

theorem isTableConj_quadrantEntry_exact (q : Nat) (hq : q < 4) :
    IsTableConj (quadrantEntry ((4 - q) % 4) (Twiddle.one, 0)) (quadrantEntry q (Twiddle.one, 0)) := by
  unfold IsTableConj
  revert q
  decide +kernel

theorem isTableConj_quadrantEntry_reflect {e f q : Nat} (hf : f ≤ 2^e) (hq : q < 4) :
    IsTableConj (quadrantEntry (3 - q) (Twiddle.quadrant e (2^e - f))) (quadrantEntry q (Twiddle.quadrant e f)) := by
  have hcos := fun sgn => (toF64_quadrant_reflect hf sgn).1
  have hsin := fun sgn => (toF64_quadrant_reflect hf sgn).2
  interval_cases q
  · exact ⟨hsin _, (hcos _).trans (toF64_not true _)⟩
  · exact ⟨hcos _, (hsin _).trans (toF64_not true _)⟩
  · exact ⟨hsin _, (hcos _).trans (toF64_not false _)⟩
  · exact ⟨hcos _, (hsin _).trans (toF64_not false _)⟩

theorem isTableConj_twrom_neg (e : Nat) (k : Int) : IsTableConj (Twiddle.twrom e (-k)) (Twiddle.twrom e k) := by
  obtain ⟨q, f, hsplit, hq, hf⟩ := exists_split e k
  have hneg := reduced_neg e k
  rcases Nat.eq_zero_or_pos f with rfl | hpos
  · have hsplit' : 4 * reduced e (-k) = (4 - q) % 4 * 2^e + 0 := by
      rw [hneg]
      interval_cases q <;> split_ifs <;> omega
    rw [twrom_of_split hsplit hf, twrom_of_split hsplit' hf, quadrant_zero]
    exact isTableConj_quadrantEntry_exact q hq
  · have hsplit' : 4 * reduced e (-k) = (3 - q) * 2^e + (2^e - f) := by
      rw [hneg]
      interval_cases q <;> split_ifs <;> omega
    rw [twrom_of_split hsplit hf, twrom_of_split hsplit' (by omega)]
    exact isTableConj_quadrantEntry_reflect hf.le hq

/-! ### The power series that the fixed-point series truncates -/

/-- `1 - t/(j(j+1)) + t^2/(j(j+1)(j+2)(j+3)) - …`: the cosine of `√t` from `j = 1`, the sine over its argument from
`j = 2`. -/
noncomputable def expansion (t : ℝ) (j : Nat) : ℝ := ∑' i : Nat, (-t)^i / (j.ascFactorial (2 * i) : ℝ)

theorem ascFactorial_add_two (j k : Nat) : j.ascFactorial (k + 2) = j * (j + 1) * (j + 2).ascFactorial k := by
  rw [Nat.ascFactorial_succ, ← Nat.succ_ascFactorial, Nat.ascFactorial_succ, ← Nat.succ_ascFactorial, Nat.mul_assoc]

theorem two_pow_le_ascFactorial {j : Nat} (hj : 1 ≤ j) (i : Nat) : 2^i ≤ j.ascFactorial (2 * i) := by
  induction i generalizing j with
  | zero => simp
  | succ i ih =>
    rw [Nat.mul_succ, ascFactorial_add_two, Nat.pow_succ, Nat.mul_comm]
    exact Nat.mul_le_mul (by nlinarith) (ih (by omega))

section
variable {t : ℝ} {j : Nat}

theorem norm_expansionTerm_le (ht0 : 0 ≤ t) (ht1 : t ≤ 1) (hj : 1 ≤ j) (i : Nat) :
    ‖(-t)^i / (j.ascFactorial (2 * i) : ℝ)‖ ≤ (1 / 2)^i := by
  have hasc : (2^i : ℝ) ≤ j.ascFactorial (2 * i) := by exact_mod_cast two_pow_le_ascFactorial hj i
  rw [norm_div, norm_pow, norm_neg, Real.norm_of_nonneg ht0, Real.norm_natCast, one_div, inv_pow, ← one_div]
  exact div_le_div₀ zero_le_one (pow_le_one₀ ht0 ht1) (by positivity) hasc

theorem summable_expansion (ht0 : 0 ≤ t) (ht1 : t ≤ 1) (hj : 1 ≤ j) :
    Summable fun i : Nat => (-t)^i / (j.ascFactorial (2 * i) : ℝ) :=
  .of_norm_bounded summable_geometric_two (norm_expansionTerm_le ht0 ht1 hj)

theorem expansion_succ (ht0 : 0 ≤ t) (ht1 : t ≤ 1) (hj : 1 ≤ j) :
    expansion t j = 1 - t * expansion t (j + 2) / ((j * (j + 1) : Nat) : ℝ) := by
  have hterm : ∀ i : Nat, (-t)^(i + 1) / (j.ascFactorial (2 * (i + 1)) : ℝ) =
      -t / ((j * (j + 1) : Nat) : ℝ) * ((-t)^i / ((j + 2).ascFactorial (2 * i) : ℝ)) := fun i => by
    rw [Nat.mul_succ, ascFactorial_add_two, Nat.cast_mul, pow_succ', mul_div_mul_comm]
  rw [expansion, (summable_expansion ht0 ht1 hj).tsum_eq_zero_add]
  simp only [hterm, tsum_mul_left]
  rw [← expansion]
  simp only [pow_zero, Nat.mul_zero, Nat.ascFactorial_zero, Nat.cast_one]
  ring

theorem expansion_bounds (ht0 : 0 ≤ t) (ht1 : t ≤ 1) (hj : 1 ≤ j) : 0 ≤ expansion t j ∧ expansion t j ≤ 1 := by
  have hnonneg : ∀ k, 1 ≤ k → 0 ≤ expansion t k := fun k hk => by
    have habs : |expansion t (k + 2)| ≤ 2 :=
      tsum_of_norm_bounded hasSum_geometric_two (norm_expansionTerm_le ht0 ht1 (by omega))
    have hden : (2 : ℝ) ≤ (k * (k + 1) : Nat) := by exact_mod_cast (by nlinarith : 2 ≤ k * (k + 1))
    rw [expansion_succ ht0 ht1 hk, sub_nonneg, div_le_one (by linarith)]
    nlinarith [(abs_le.1 habs).2]
  refine ⟨hnonneg j hj, ?_⟩
  rw [expansion_succ ht0 ht1 hj, sub_le_self_iff]
  have := hnonneg (j + 2) (by omega)
  positivity

end

theorem expansion_sq_one (x : ℝ) : expansion (x^2) 1 = Real.cos x := by
  rw [← (Real.hasSum_cos x).tsum_eq, expansion]
  refine tsum_congr fun i => ?_
  rw [Nat.one_ascFactorial, neg_pow, pow_mul]

theorem mul_expansion_sq_two (x : ℝ) : x * expansion (x^2) 2 = Real.sin x := by
  rw [← (Real.hasSum_sin x).tsum_eq, expansion, ← tsum_mul_left]
  refine tsum_congr fun i => ?_
  have hasc : Nat.ascFactorial 2 (2 * i) = (2 * i + 1).factorial := by
    have := Nat.succ_ascFactorial 1 (2 * i)
    rw [Nat.one_ascFactorial, Nat.one_mul, Nat.add_comm 1] at this
    rw [Nat.factorial_succ, ← this]
  rw [hasc, neg_pow, ← pow_mul]
  ring

/-! ### The fixed-point arithmetic -/

/-- The number that a fixed-point value stands for. -/
noncomputable def fixed (v : Nat) : ℝ := v / Twiddle.one

/-- One unit in the last place of the fixed point. -/
noncomputable def fixedUlp : ℝ := 1 / Twiddle.one

theorem abs_div_sub_div (a b : ℝ) {c : ℝ} (hc : 0 < c) : |a / c - b / c| = |a - b| / c := by
  rw [div_sub_div_same, abs_div, abs_of_pos hc]

theorem abs_cast_div_sub (a : Nat) {n : Nat} (hn : 0 < n) : |((a / n : Nat) : ℝ) - a / n| ≤ 1 := by
  have hn' : (0 : ℝ) < n := by exact_mod_cast hn
  have hlt : (a : ℝ) < (a / n : Nat) * n + n := by exact_mod_cast Nat.lt_div_mul_add hn
  have hle : (a / n : ℝ) < (a / n : Nat) + 1 := by
    rw [div_lt_iff₀ hn']
    linarith
  have := Nat.cast_div_le (α := ℝ) (m := a) (n := n)
  rw [abs_le]
  constructor <;> linarith

theorem twiddleOne_cast_pos : (0 : ℝ) < Twiddle.one := by exact_mod_cast twiddleOne_pos

theorem fixed_div (a : Nat) {n : Nat} (hn : 0 < n) : |fixed (a / n) - fixed a / n| ≤ fixedUlp := by
  have h := div_le_div_of_nonneg_right (abs_cast_div_sub a hn) twiddleOne_cast_pos.le
  rw [← abs_div_sub_div _ _ twiddleOne_cast_pos] at h
  rwa [fixed, fixed, fixedUlp, div_right_comm]

theorem fixed_mul (a b : Nat) : |fixed (a * b / Twiddle.one) - fixed a * fixed b| ≤ fixedUlp := by
  have h := fixed_div (a * b) twiddleOne_pos
  have heq : fixed (a * b) / Twiddle.one = fixed a * fixed b := by
    rw [fixed, fixed, fixed, Nat.cast_mul, div_mul_div_comm, div_div]
  rwa [heq] at h

theorem fixed_nonneg (v : Nat) : 0 ≤ fixed v := by unfold fixed; positivity

theorem fixed_le_one {v : Nat} (hv : v ≤ Twiddle.one) : fixed v ≤ 1 := by
  rw [fixed, div_le_one twiddleOne_cast_pos]
  exact_mod_cast hv

theorem fixed_sub {v : Nat} (hv : v ≤ Twiddle.one) : fixed (Twiddle.one - v) = 1 - fixed v := by
  rw [fixed, fixed, Nat.cast_sub hv, sub_div, div_self twiddleOne_cast_pos.ne']

theorem mul_div_le_one {a b : Nat} (ha : a ≤ Twiddle.one) (hb : b ≤ Twiddle.one) : a * b / Twiddle.one ≤ Twiddle.one :=
  Nat.div_le_of_le_mul (Nat.mul_le_mul ha hb)

theorem series_le_one (y n j : Nat) : Twiddle.series y n j ≤ Twiddle.one := by
  cases n with
  | zero => exact le_rfl
  | succ n => exact Nat.sub_le _ _

/-- The error of a product whose factors lie in `[0, 1]`. -/
theorem abs_mul_sub_mul {a b a' b' : ℝ} (ha0 : 0 ≤ a) (ha1 : a ≤ 1) (hb0 : 0 ≤ b') (hb1 : b' ≤ 1) :
    |a * b - a' * b'| ≤ |b - b'| + |a - a'| := by
  calc |a * b - a' * b'| = |a * (b - b') + (a - a') * b'| := by ring_nf
    _ ≤ |a| * |b - b'| + |a - a'| * |b'| := by rw [← abs_mul, ← abs_mul]; exact abs_add_le _ _
    _ ≤ 1 * |b - b'| + |a - a'| * 1 := by
      rw [abs_of_nonneg ha0, abs_of_nonneg hb0]
      gcongr
    _ = |b - b'| + |a - a'| := by ring

theorem fixedUlp_pos : 0 < fixedUlp := div_pos one_pos twiddleOne_cast_pos

section
variable {t δ : ℝ} {y : Nat} (ht0 : 0 ≤ t) (ht1 : t ≤ 1) (hy : y ≤ Twiddle.one) (hδ : |fixed y - t| ≤ δ)
include ht0 ht1 hy hδ

/-- One nested term divides the error of the inner series by its two factors. -/
theorem series_succ_error (n : Nat) {j : Nat} (hj : 1 ≤ j) :
    |fixed (Twiddle.series y (n + 1) j) - expansion t j| ≤
      (|fixed (Twiddle.series y n (j + 2)) - expansion t (j + 2)| + δ + fixedUlp) / (j * (j + 1) : Nat) + fixedUlp := by
  obtain ⟨hlow, hhigh⟩ := expansion_bounds (j := j + 2) ht0 ht1 (by omega)
  have hle := mul_div_le_one hy (series_le_one y n (j + 2))
  have hprod := fixed_mul y (Twiddle.series y n (j + 2))
  have hfactors := abs_mul_sub_mul (b := fixed (Twiddle.series y n (j + 2))) (a' := t) (fixed_nonneg y) (fixed_le_one hy)
    hlow hhigh
  rw [Twiddle.series, expansion_succ ht0 ht1 hj]
  generalize y * Twiddle.series y n (j + 2) / Twiddle.one = a at *
  have hquot := fixed_div a (show 0 < j * (j + 1) by positivity)
  rw [fixed_sub ((Nat.div_le_self _ _).trans hle), sub_sub_sub_cancel_left, abs_sub_comm]
  have hinner := (abs_sub_le (fixed a) (fixed y * fixed (Twiddle.series y n (j + 2))) (t * expansion t (j + 2))).trans
    (add_le_add hprod hfactors)
  calc |fixed (a / (j * (j + 1))) - t * expansion t (j + 2) / (j * (j + 1) : Nat)|
      ≤ |fixed (a / (j * (j + 1))) - fixed a / (j * (j + 1) : Nat)| +
          |fixed a - t * expansion t (j + 2)| / (j * (j + 1) : Nat) := by
        rw [← abs_div_sub_div _ _ (show (0 : ℝ) < (j * (j + 1) : Nat) by positivity)]
        exact abs_sub_le _ _ _
    _ ≤ fixedUlp +
          (|fixed (Twiddle.series y n (j + 2)) - expansion t (j + 2)| + δ + fixedUlp) / (j * (j + 1) : Nat) := by
        gcongr
        linarith
    _ = _ := add_comm _ _

/-- The fixed-point series: the first term left out, and what the argument's error and the roundings leave. -/
theorem series_error (n : Nat) {j : Nat} (hj : 1 ≤ j) :
    |fixed (Twiddle.series y n j) - expansion t j| ≤ 1 / (j.ascFactorial (2 * n) : ℝ) + (δ + 3 * fixedUlp) := by
  have hulp := fixedUlp_pos
  have hδ0 : 0 ≤ δ := (abs_nonneg _).trans hδ
  induction n generalizing j with
  | zero =>
    obtain ⟨hlow, hhigh⟩ := expansion_bounds ht0 ht1 hj
    have hone : fixed Twiddle.one = 1 := div_self twiddleOne_cast_pos.ne'
    rw [Twiddle.series, hone, Nat.mul_zero, Nat.ascFactorial_zero, Nat.cast_one, div_one, abs_le]
    constructor <;> linarith
  | succ n ih =>
    have hden : (2 : ℝ) ≤ (j * (j + 1) : Nat) := by exact_mod_cast (by nlinarith : 2 ≤ j * (j + 1))
    rw [show 2 * (n + 1) = 2 * n + 2 by rfl, ascFactorial_add_two, Nat.cast_mul _ (Nat.ascFactorial _ _)]
    calc |fixed (Twiddle.series y (n + 1) j) - expansion t j|
        ≤ (|fixed (Twiddle.series y n (j + 2)) - expansion t (j + 2)| + δ + fixedUlp) / (j * (j + 1) : Nat) + fixedUlp :=
          series_succ_error ht0 ht1 hy hδ n hj
      _ ≤ (1 / ((j + 2).ascFactorial (2 * n) : ℝ) + (δ + 3 * fixedUlp) + δ + fixedUlp) / (j * (j + 1) : Nat) +
            fixedUlp := by
          gcongr
          exact ih (by omega)
      _ = 1 / ((j * (j + 1) : Nat) * ((j + 2).ascFactorial (2 * n) : ℝ)) + (2 * δ + 4 * fixedUlp) / (j * (j + 1) : Nat) +
            fixedUlp := by
          rw [mul_comm (_ : ℝ), ← div_div]
          ring
      _ ≤ 1 / ((j * (j + 1) : Nat) * ((j + 2).ascFactorial (2 * n) : ℝ)) + (2 * δ + 4 * fixedUlp) / 2 + fixedUlp := by
          gcongr
      _ = _ := by ring

end

/-! ### The cosine and sine of a rest of a quadrant -/

/-- The exact angle. -/
noncomputable def exactAngle (e f : Nat) : ℝ := Real.pi / 2 * (f / 2^e)

theorem fixedUlp_le : fixedUlp ≤ 1 / 10^30 := by
  rw [fixedUlp, Twiddle.one]
  norm_num

/-- The literal is π to more digits than the bounds known of π. -/
theorem fixed_piFixed : |fixed Twiddle.piFixed - Real.pi| ≤ 1 / 10^20 := by
  have hlow := Real.pi_gt_d20
  have hhigh := Real.pi_lt_d20
  have hlow' : 3.14159265358979323846 ≤ fixed Twiddle.piFixed := by
    rw [fixed, Twiddle.one, Twiddle.piFixed]
    norm_num
  have hhigh' : fixed Twiddle.piFixed ≤ 3.14159265358979323847 := by
    rw [fixed, Twiddle.one, Twiddle.piFixed]
    norm_num
  rw [abs_le]
  constructor <;> linarith

theorem exactAngle_eq (e f : Nat) : exactAngle e f = Real.pi * (f / 2^(e + 1)) := by
  rw [exactAngle, pow_succ]
  field_simp

theorem cosFixed_le_one (e f : Nat) : Twiddle.cosFixed e f ≤ Twiddle.one := series_le_one _ _ _

section
variable {e f : Nat} (hf : 2 * f ≤ 2^e)
include hf

theorem half_turns_le : (f : ℝ) / 2^(e + 1) ≤ 1 / 4 := by
  have hf' : (2 * f : ℝ) ≤ 2^e := by exact_mod_cast hf
  rw [div_le_div_iff₀ (by positivity) (by norm_num), pow_succ]
  linarith

theorem exactAngle_bounds : 0 ≤ exactAngle e f ∧ exactAngle e f ≤ 1 := by
  have hpi := Real.pi_pos
  have hpi4 := Real.pi_lt_four
  have hquarter := half_turns_le hf
  have hnonneg : 0 ≤ (f : ℝ) / 2^(e + 1) := by positivity
  rw [exactAngle_eq]
  constructor
  · positivity
  · nlinarith

theorem angle_le_one : Twiddle.angle e f ≤ Twiddle.one := by
  have hpi : Twiddle.piFixed ≤ 4 * Twiddle.one := by decide
  refine Nat.div_le_of_le_mul ?_
  calc Twiddle.piFixed * f ≤ 4 * Twiddle.one * f := Nat.mul_le_mul_right _ hpi
    _ = 2 * (2 * f) * Twiddle.one := by ring
    _ ≤ 2 * 2^e * Twiddle.one := by gcongr
    _ = 2^(e + 1) * Twiddle.one := by rw [Nat.pow_succ, Nat.mul_comm 2]

theorem angle_error : |fixed (Twiddle.angle e f) - exactAngle e f| ≤ 1 / 10^20 := by
  have hquarter := half_turns_le hf
  have hdiv := fixed_div (Twiddle.piFixed * f) (Nat.two_pow_pos (e + 1))
  have heq : fixed (Twiddle.piFixed * f) / (2^(e + 1) : Nat) = fixed Twiddle.piFixed * (f / 2^(e + 1)) := by
    rw [fixed, fixed]
    push_cast
    ring
  rw [heq] at hdiv
  calc |fixed (Twiddle.angle e f) - exactAngle e f|
      ≤ |fixed (Twiddle.angle e f) - fixed Twiddle.piFixed * (f / 2^(e + 1))| +
          |fixed Twiddle.piFixed - Real.pi| * (f / 2^(e + 1)) := by
        rw [exactAngle_eq, ← abs_of_nonneg (show (0 : ℝ) ≤ f / 2^(e + 1) by positivity), ← abs_mul, sub_mul,
          abs_of_nonneg (show (0 : ℝ) ≤ f / 2^(e + 1) by positivity)]
        exact abs_sub_le _ _ _
    _ ≤ 1 / 10^30 + 1 / 10^20 * (1 / 4) := by
        gcongr
        · exact hdiv.trans fixedUlp_le
        · exact fixed_piFixed
    _ ≤ 1 / 10^20 := by norm_num

theorem angle_sq_error :
    |fixed (Twiddle.angle e f * Twiddle.angle e f / Twiddle.one) - exactAngle e f ^ 2| ≤ 3 / 10^20 := by
  obtain ⟨hlow, hhigh⟩ := exactAngle_bounds hf
  have hprod := fixed_mul (Twiddle.angle e f) (Twiddle.angle e f)
  have hfactors := abs_mul_sub_mul (b := fixed (Twiddle.angle e f)) (a' := exactAngle e f) (fixed_nonneg _)
    (fixed_le_one (angle_le_one hf)) hlow hhigh
  have hangle := angle_error hf
  have hulp := fixedUlp_le
  rw [sq]
  refine (abs_sub_le _ (fixed (Twiddle.angle e f) * fixed (Twiddle.angle e f)) _).trans ?_
  linarith

theorem angleSeries_error {j : Nat} (hj : 1 ≤ j) :
    |fixed (Twiddle.series (Twiddle.angle e f * Twiddle.angle e f / Twiddle.one) 24 j) -
      expansion (exactAngle e f ^ 2) j| ≤ 5 / 10^20 := by
  obtain ⟨hlow, hhigh⟩ := exactAngle_bounds hf
  have hangle := angle_le_one hf
  have herror := series_error (sq_nonneg _) (pow_le_one₀ hlow hhigh) (mul_div_le_one hangle hangle) (angle_sq_error hf)
    24 hj
  have hulp := fixedUlp_le
  have hrest : 1 / (j.ascFactorial (2 * 24) : ℝ) ≤ 1 / 10^20 := by
    have : 10^20 ≤ j.ascFactorial (2 * 24) := by
      calc 10^20 ≤ Nat.ascFactorial 1 (2 * 24) := by decide
        _ ≤ j.ascFactorial (2 * 24) := Nat.ascFactorial_le _ hj
    gcongr
    exact_mod_cast this
  linarith

theorem cosFixed_error : |fixed (Twiddle.cosFixed e f) - Real.cos (exactAngle e f)| ≤ 1 / 10^19 := by
  rw [← expansion_sq_one]
  exact (angleSeries_error hf le_rfl).trans (by norm_num)

theorem sinFixed_error : |fixed (Twiddle.sinFixed e f) - Real.sin (exactAngle e f)| ≤ 1 / 10^19 := by
  obtain ⟨hlow, hhigh⟩ := exactAngle_bounds hf
  obtain ⟨hexpLow, hexpHigh⟩ := expansion_bounds (j := 2) (sq_nonneg _) (pow_le_one₀ hlow hhigh) (by omega)
  have hprod := fixed_mul (Twiddle.angle e f) (Twiddle.series (Twiddle.angle e f * Twiddle.angle e f / Twiddle.one) 24 2)
  have hfactors := abs_mul_sub_mul (a' := exactAngle e f)
    (b := fixed (Twiddle.series (Twiddle.angle e f * Twiddle.angle e f / Twiddle.one) 24 2)) (fixed_nonneg _)
    (fixed_le_one (angle_le_one hf)) hexpLow hexpHigh
  have hseries := angleSeries_error hf (j := 2) (by omega)
  have hangle := angle_error hf
  have hulp := fixedUlp_le
  rw [← mul_expansion_sq_two]
  refine (abs_sub_le _ _ _).trans ((add_le_add hprod hfactors).trans ?_)
  linarith

theorem sinFixed_le_one : Twiddle.sinFixed e f ≤ Twiddle.one := mul_div_le_one (angle_le_one hf) (series_le_one _ _ _)

end

/-! ### The quadrant and the entry -/

theorem exactAngle_reflect {e f : Nat} (hf : f ≤ 2^e) : exactAngle e (2^e - f) = Real.pi / 2 - exactAngle e f := by
  rw [exactAngle, exactAngle, Nat.cast_sub hf]
  push_cast
  rw [sub_div, div_self (by positivity)]
  ring

/-- The fixed-point pair of a rest of a quadrant: within `ε` of the exact cosine and sine, and at most 1. -/
structure IsCosSin (ε φ : ℝ) (cs : Nat × Nat) : Prop where
  cos : |fixed cs.1 - Real.cos φ| ≤ ε
  sin : |fixed cs.2 - Real.sin φ| ≤ ε
  cosLe : cs.1 ≤ Twiddle.one
  sinLe : cs.2 ≤ Twiddle.one

theorem isCosSin_quadrant {e f : Nat} (hf : f ≤ 2^e) : IsCosSin (1 / 10^19) (exactAngle e f) (Twiddle.quadrant e f) := by
  rw [Twiddle.quadrant]
  split_ifs with h
  · exact ⟨cosFixed_error h, sinFixed_error h, cosFixed_le_one e f, sinFixed_le_one h⟩
  · have h' : 2 * (2^e - f) ≤ 2^e := by omega
    have hcos := cosFixed_error h'
    have hsin := sinFixed_error h'
    rw [exactAngle_reflect hf, Real.cos_pi_div_two_sub] at hcos
    rw [exactAngle_reflect hf, Real.sin_pi_div_two_sub] at hsin
    exact ⟨hsin, hcos, sinFixed_le_one h', cosFixed_le_one _ _⟩

/-- Every multiple of a power of two with at most 53 bits is a magnitude. -/
theorem exists_magUnits (e : Nat) {n : Nat} (hn : n ≤ 2^53) : ∃ c, F64.magUnits c = n * 2^e := by
  induction e generalizing n with
  | zero => exact ⟨0 * 2^52 + n, magUnits_scaled (.inl rfl) hn⟩
  | succ e ih =>
    rcases Nat.lt_or_ge n (2^52) with h | h
    · obtain ⟨c, hc⟩ := ih (n := 2 * n) (by omega)
      exact ⟨c, hc.trans (by rw [Nat.pow_succ]; ring)⟩
    · exact ⟨_, magUnits_scaled (.inr h) hn⟩

theorem magUnits_roundMag_nearest {num den : Nat} (hden : 0 < den) (hnum : num < den * ((2^54 - 1) * 2^2044)) (c : Nat) :
    |(F64.magUnits (F64.roundMag num den) : ℝ) - num / den| ≤ |(F64.magUnits c : ℝ) - num / den| := by
  have heq : F64.roundMag num den = nearestMag num den := by
    have := mt (nearestMag_reaches hden num 2044).1 (by omega)
    rw [roundMag_eq_min]
    exact Nat.min_eq_left (by simp only [F64.infMag]; omega)
  have hden' : (0 : ℝ) < den := by exact_mod_cast hden
  have hscale : ∀ x : ℝ, |x - num / den| = |x * den - num| / den := fun x => by
    rw [← abs_div_sub_div _ _ hden', mul_div_cancel_right₀ _ hden'.ne']
  have hnear := (nearestMag_nearest hden num c).1
  rw [hscale, hscale, heq]
  refine div_le_div_of_nonneg_right ?_ hden'.le
  exact_mod_cast hnear

/-- A fixed-point value in `[0, 1]` is rounded by at most 2^-54: it is that near to a multiple of 2^-53. -/
theorem roundMag_error {v : Nat} (hv : v ≤ Twiddle.one) :
    |(F64.magUnits (F64.roundMag (v * 2^1074) Twiddle.one) : ℝ) / 2^1074 - fixed v| ≤ 1 / 2^54 := by
  obtain ⟨n, hn, hlow, hhigh⟩ : ∃ n ≤ 2^53, v ≤ n * 2^139 + 2^138 ∧ n * 2^139 ≤ v + 2^138 := by
    simp only [Twiddle.one] at hv
    exact ⟨(v + 2^138) / 2^139, by omega, by omega, by omega⟩
  obtain ⟨c, hc⟩ := exists_magUnits 1021 hn
  have hfinite : v * 2^1074 < Twiddle.one * ((2^54 - 1) * 2^2044) := by
    have hpow : 2^1074 < (2^54 - 1) * 2^2044 := two_pow_lt_mul (by omega) (by omega)
    exact Nat.mul_lt_mul_of_le_of_lt hv hpow twiddleOne_pos
  have hnear := magUnits_roundMag_nearest twiddleOne_pos hfinite c
  have hgrid : |(n : ℝ) / 2^53 - fixed v| ≤ 1 / 2^54 := by
    have hlow' : (v : ℝ) ≤ n * 2^139 + 2^138 := by exact_mod_cast hlow
    have hhigh' : (n * 2^139 : ℝ) ≤ v + 2^138 := by exact_mod_cast hhigh
    have hone : (Twiddle.one : ℝ) = 2^192 := by norm_num [Twiddle.one]
    rw [fixed, hone, abs_le]
    constructor <;> linarith
  have hvalue : ((v * 2^1074 : Nat) : ℝ) / Twiddle.one = fixed v * 2^1074 := by
    rw [fixed, Nat.cast_mul, Nat.cast_pow, Nat.cast_ofNat, div_mul_eq_mul_div]
  have hpoint : (F64.magUnits c : ℝ) = n / 2^53 * 2^1074 := by
    rw [hc, Nat.cast_mul, Nat.cast_pow, Nat.cast_ofNat, show 1074 = 53 + 1021 by rfl, pow_add]
    field_simp
  have hunit : (0 : ℝ) < 2^1074 := by positivity
  rw [hvalue, hpoint, ← sub_mul, abs_mul, abs_of_pos hunit] at hnear
  calc |(F64.magUnits (F64.roundMag (v * 2^1074) Twiddle.one) : ℝ) / 2^1074 - fixed v|
      = |(F64.magUnits (F64.roundMag (v * 2^1074) Twiddle.one) : ℝ) - fixed v * 2^1074| / 2^1074 := by
        rw [← abs_div_sub_div _ _ hunit, mul_div_cancel_right₀ _ hunit.ne']
    _ ≤ |(n : ℝ) / 2^53 - fixed v| := (div_le_iff₀ hunit).2 hnear
    _ ≤ 1 / 2^54 := hgrid

theorem toReal_ofMag (sgn : Bool) {m : Nat} (hm : m < 2^63) :
    F64.toReal (F64.ofMag sgn m) = (if sgn then -1 else 1) * (F64.magUnits m / 2^1074 : ℝ) := by
  rw [F64.toReal, F64.units, mag_ofMag sgn hm, sign_ofMag sgn hm]
  cases sgn
  · simp
  · simp [neg_div]

theorem toReal_toF64 (sgn : Bool) {v : Nat} (hv : v ≤ Twiddle.one) :
    |F64.toReal (Twiddle.toF64 sgn v) - (if sgn then -1 else 1) * fixed v| ≤ 1 / 2^54 := by
  rcases eq_or_ne v 0 with rfl | hne
  · rw [toF64_zero]
    norm_num [F64.toReal, show F64.units 0 = 0 by decide, fixed]
  · have hround := roundMag_error hv
    rw [Twiddle.toF64, F64.ofUnits, toReal_ofMag _ ((roundMag_le _ _).trans_lt infMag_lt)]
    simp only [hne, ne_eq, not_false_eq_true, decide_true, Bool.and_true]
    have hsign : |(if sgn then -1 else 1 : ℝ)| = 1 := by cases sgn <;> simp
    rw [← mul_sub, abs_mul, hsign, one_mul]
    exact hround

theorem toF64_error (sgn : Bool) {v : Nat} (hv : v ≤ Twiddle.one) {x : ℝ} (hx : |fixed v - x| ≤ 1 / 10^19) :
    |F64.toReal (Twiddle.toF64 sgn v) - (if sgn then -x else x)| ≤ 1 / 2^53 := by
  have hround := toReal_toF64 sgn hv
  have hsmall : (1 / 2^54 + 1 / 10^19 : ℝ) ≤ 1 / 2^53 := by norm_num
  have hsign : |(if sgn then -1 else 1) * fixed v - (if sgn then -x else x)| ≤ 1 / 10^19 := by
    cases sgn
    · simpa using hx
    · simpa [abs_sub_comm, neg_add_eq_sub] using hx
  exact ((abs_sub_le _ _ _).trans (add_le_add hround hsign)).trans hsmall

/-- The exact factor by quadrants. -/
theorem exactTwiddle_angle {e q f : Nat} {k : Int} (h : 4 * reduced e k = q * 2^e + f) :
    (exactTwiddle e k).re = Real.cos (exactAngle e f + q * (Real.pi / 2)) ∧
    (exactTwiddle e k).im = -Real.sin (exactAngle e f + q * (Real.pi / 2)) := by
  have hk : (k : ℝ) = reduced e k + 2^e * (k / 2^e : Int) := by
    have := reduced_cast e k
    have hdiv := Int.emod_add_mul_ediv k (2^e)
    rw [← this] at hdiv
    exact_mod_cast hdiv.symm
  have h' : (4 * reduced e k : ℝ) = q * 2^e + f := by exact_mod_cast h
  have harg : 2 * Real.pi * k / 2^e = exactAngle e f + q * (Real.pi / 2) + (k / 2^e : Int) * (2 * Real.pi) := by
    rw [hk, exactAngle]
    have hr : (reduced e k : ℝ) = (q * 2^e + f) / 4 := by linarith
    rw [hr]
    field_simp
    ring
  simp only [exactTwiddle, harg, Real.cos_add_int_mul_two_pi, Real.sin_add_int_mul_two_pi, and_self]

theorem quadrantEntry_error {q : Nat} (hq : q < 4) {φ : ℝ} {cs : Nat × Nat} (h : IsCosSin (1 / 10^19) φ cs) :
    |F64.toReal (quadrantEntry q cs).re - Real.cos (φ + q * (Real.pi / 2))| ≤ 1 / 2^53 ∧
    |F64.toReal (quadrantEntry q cs).im - -Real.sin (φ + q * (Real.pi / 2))| ≤ 1 / 2^53 := by
  have hcos := fun sgn => toF64_error sgn h.cosLe h.cos
  have hsin := fun sgn => toF64_error sgn h.sinLe h.sin
  interval_cases q
  · rw [Nat.cast_zero, zero_mul, add_zero]
    exact ⟨hcos false, hsin true⟩
  · rw [Nat.cast_one, one_mul, Real.cos_add_pi_div_two, Real.sin_add_pi_div_two]
    exact ⟨hsin true, hcos true⟩
  · rw [Nat.cast_ofNat, mul_div_cancel₀ _ two_ne_zero, Real.cos_add_pi, Real.sin_add_pi, neg_neg]
    exact ⟨hcos true, hsin false⟩
  · rw [show φ + ((3 : Nat) : ℝ) * (Real.pi / 2) = φ + Real.pi + Real.pi / 2 by push_cast; ring, Real.cos_add_pi_div_two,
      Real.sin_add_pi_div_two, Real.cos_add_pi, Real.sin_add_pi, neg_neg, neg_neg]
    exact ⟨hsin false, hcos false⟩

/-! ### The exact twiddle factor (`40_butterfly.md` R93, R94) -/

section
variable (n : Nat) (j k : Int)

theorem W_eq_exp : W n k = Complex.exp ((-(2 * Real.pi * k / n) : ℝ) * Complex.I) := by
  rw [W]
  push_cast
  ring_nf

theorem W_mul_W : W n j * W n k = W n (j + k) := by
  rw [W, W, W, ← Complex.exp_add]
  push_cast
  ring_nf

theorem W_neg : W n (-k) = starRingEnd ℂ (W n k) := by
  rw [W_eq_exp, W_eq_exp, ← Complex.exp_conj, map_mul, Complex.conj_ofReal, Complex.conj_I]
  push_cast
  ring_nf

theorem norm_W : ‖W n k‖ = 1 := by
  rw [W_eq_exp, Complex.norm_exp_ofReal_mul_I]

theorem W_zero_right : W n 0 = 1 := by
  simp [W]

/-- Reduction of the fraction `k/N`. -/
theorem W_mul_left {m : Nat} (hm : 0 < m) : W (m * n) (m * k) = W n k := by
  have hm' : (m : ℂ) ≠ 0 := by exact_mod_cast hm.ne'
  rw [W, W]
  push_cast
  congr 2
  rw [mul_left_comm, mul_div_mul_left _ _ hm']

theorem W_one : W 1 k = 1 := by
  rw [W, Complex.exp_eq_one_iff]
  exact ⟨-k, by push_cast; ring⟩

end

/-- A quarter turn. -/
theorem W_four_one : W 4 1 = -Complex.I := by
  rw [W_eq_exp, show -(2 * Real.pi * (1 : Int) / (4 : Nat)) = -(Real.pi / 2) by push_cast; ring, Complex.exp_mul_I]
  simp

theorem W_four : W 4 2 = -1 ∧ W 4 3 = Complex.I ∧ W 4 4 = 1 := by
  have h2 : W 4 2 = -1 := (W_mul_W 4 1 1).symm.trans (by rw [W_four_one]; simp)
  have h3 : W 4 3 = Complex.I := (W_mul_W 4 2 1).symm.trans (by rw [h2, W_four_one]; simp)
  exact ⟨h2, h3, (W_mul_W 4 3 1).symm.trans (by rw [h3, W_four_one]; simp)⟩

/-- The turns by quarters, in every modulus. -/
theorem W_quarter {n : Nat} (hn : 0 < n) (q : Int) : W (4 * n) (q * n) = W 4 q := by
  rw [Nat.mul_comm, Int.mul_comm, W_mul_left 4 q hn]

theorem W_self {n : Nat} (hn : 0 < n) : W n n = 1 := by
  rw [← W_mul_left n n (show 0 < 4 by omega)]
  exact (W_quarter hn 4).trans W_four.2.2

theorem W_half {n : Nat} (hn : 0 < n) : W (2 * n) n = -1 := by
  rw [← W_mul_left (2 * n) n (show 0 < 2 by omega), ← Nat.mul_assoc]
  exact (W_quarter hn 2).trans W_four.1

theorem toComplex_exactTwiddle (e : Nat) (k : Int) : toComplex (exactTwiddle e k) = W (2^e) k := by
  rw [W_eq_exp, toComplex, exactTwiddle]
  apply Complex.ext
  · rw [Complex.exp_ofReal_mul_I_re, Real.cos_neg]
    push_cast
    rfl
  · rw [Complex.exp_ofReal_mul_I_im, Real.sin_neg]
    push_cast
    rfl

/-! ### The butterfly in exact arithmetic (`40_butterfly.md` R102) -/

theorem toComplex_bfly (a b w : Cplx ℝ) :
    toComplex (idealNumerics.bfly a b w).1 = toComplex a + toComplex w * toComplex b ∧
    toComplex (idealNumerics.bfly a b w).2 = toComplex a - toComplex w * toComplex b :=
  ⟨by apply Complex.ext <;> simp [toComplex, Numerics.bfly, Numerics.cadd, Numerics.cmul],
   by apply Complex.ext <;> simp [toComplex, Numerics.bfly, Numerics.csub, Numerics.cmul]⟩

/-! ### The butterfly command (`40_butterfly.md` R101) -/

theorem storedAs_halfBits (n : Nat) (x : F64) : F64.StoredAs x (halfBits n x) := by
  rw [F64.StoredAs, halfBits]
  split_ifs
  · exact ⟨isNaN_quietNaN _, quiet_quietNaN _⟩
  · rfl

theorem holdsCplx_cellOf (n : Nat) (z : Cplx F64) : holdsCplx (cellOf n z) z := by
  obtain ⟨hre, him⟩ := Cplx.mk.inj (cplxOf_cellOf n z)
  rw [holdsCplx, hre, him]
  exact ⟨storedAs_halfBits _ _, storedAs_halfBits _ _⟩

/-- After a complex vector is written, an element whose address is not written again holds its value. -/
theorem holdsCplx_writeCells (s : State) (n : Nat) (addr : Nat → Nat) (zs : List (Cplx F64)) {k : Nat} (hk : k < zs.length)
    (hlast : lastWrite addr zs.length k) :
    holdsCplx ((s.writeCells (cplxWrites f64Tier n addr zs)).cell (addr k)) zs[k] := by
  have hlen := cplxWrites_length f64Tier n addr zs
  have hcell := cell_writeCells_last s (cplxWrites f64Tier n addr zs) k (by omega) fun j hkj hj => by
    rw [cplxWrites_getElem, cplxWrites_getElem]
    exact hlast j hkj (by omega)
  rw [cplxWrites_getElem] at hcell
  rw [hcell]
  exact holdsCplx_cellOf _ _

/-- The frame of a command that writes data memory alone. -/
theorem completes_completed {i : Instr} {s : State} (hd : descAfter i s.d = s.d) :
    s.Completes (completed i s) (dstSet i s.d) where
  par := rfl
  d := hd
  cpc := rfl
  status := rfl
  err := rfl
  epc := rfl
  cm := rfl
  boot := rfl
  turns := rfl
  cells a ha := cell_writeCells_other s _ a fun _ hp => ne_of_mem_of_not_mem (writesOf_addr hp) ha

theorem exec_completed {i : Instr} {s : State} (hf : faultOf i s.par s.d = none) (hi : i ≠ .halt) :
    exec i s = .next (completed i s) := by
  rw [exec_eq, hf]
  simp only [if_neg hi]

/-- Of the two operands of each vector, the second one decides. -/
theorem bflyChecks_pass {par : Params} {d : Desc} {e : Nat} (he : e ≤ par.mmax)
    (hsrc : d.src.toNat + d.sstr.toNat < par.dmCells) (hdst : d.dst.toNat + d.dstr.toNat < par.dmCells) :
    firstFault (bflyChecks par d e) = none := by
  have hsrcValid : srcVecValid par d 2 = true := (srcVecValid_iff par d 2).2 fun j hj => by
    interval_cases j <;> simp only [Desc.srcElem] <;> omega
  have hdstValid : dstVecValid par d 2 = true := (dstVecValid_iff par d 2).2 fun j hj => by
    interval_cases j <;> simp only [Desc.dstElem] <;> omega
  rw [bflyChecks, (orderCheck_eq_none par e).2 he, hsrcValid, hdstValid]
  rfl

theorem faultOf_bfly {i : Instr} {par : Params} {d : Desc} {e : Nat} (hchecks : checksOf i par d = bflyChecks par d e)
    (hpass : firstFault (bflyChecks par d e) = none) : faultOf i par d = none := by
  rw [← firstFault_checksOf, hchecks, hpass]

/-- A command that writes one butterfly's results leaves them at `DST` and `DST + DSTR`. -/
theorem bfly_results {i : Instr} {s : State} {e : Nat} {kk : Int}
    (hwrites : writesOf f64Tier i s.d s.cell s.draws = bflyWrites f64Tier e kk s.d s.cell s.draws) :
    let r := f64Numerics.bfly (cplxOf (s.cell s.d.src.toNat)) (cplxOf (s.cell (s.d.src.toNat + s.d.sstr.toNat)))
      (Twiddle.twrom e kk)
    (s.d.dstr ≠ 0 → holdsCplx ((completed i s).cell s.d.dst.toNat) r.1) ∧
    holdsCplx ((completed i s).cell (s.d.dst.toNat + s.d.dstr.toNat)) r.2 := by
  intro r
  have hsrc : s.d.srcElem 0 = s.d.src.toNat ∧ s.d.srcElem 1 = s.d.src.toNat + s.d.sstr.toNat := by simp [Desc.srcElem]
  have hdst : s.d.dstElem 0 = s.d.dst.toNat ∧ s.d.dstElem 1 = s.d.dst.toNat + s.d.dstr.toNat := by simp [Desc.dstElem]
  have hcell : ∀ a, (completed i s).cell a = (s.writeCells (cplxWrites f64Tier s.draws s.d.dstElem [r.1, r.2])).cell a :=
    fun a => by
      have hr : bflyWrites f64Tier e kk s.d s.cell s.draws = cplxWrites f64Tier s.draws s.d.dstElem [r.1, r.2] := by
        rw [bflyWrites, hsrc.1, hsrc.2]
        rfl
      rw [← hr, ← hwrites]
      rfl
  rw [hcell, hcell, ← hdst.2, ← hdst.1]
  refine ⟨fun hne => holdsCplx_writeCells s s.draws s.d.dstElem [r.1, r.2] (k := 0) Nat.two_pos fun j hj hj2 => ?_,
    holdsCplx_writeCells s s.draws s.d.dstElem [r.1, r.2] (k := 1) Nat.one_lt_two fun j hj hj2 => ?_⟩
  · obtain rfl : j = 1 := by simp only [List.length_cons, List.length_nil] at hj2; omega
    have : s.d.dstr.toNat ≠ 0 := fun h => hne (BitVec.eq_of_toNat_eq h)
    rw [hdst.1, hdst.2]
    omega
  · simp only [List.length_cons, List.length_nil] at hj2
    omega

/-! ### The statements -/

/-- Settles O41: each operation rounds the exact result once (`isRounding_ofUnits`), or answers by the kinds of its
operands. -/
theorem roundsToNearestTiesToEven : Obligations.RoundsToNearestTiesToEven := by
  refine ⟨fun s num den hden => isRounding_ofUnits s num hden, fun x y hx hy => ⟨isRounding_sum _ hx hy, fun hne => ?_,
    isRounding_mul hx hy, isRounding_div hx hy⟩, fun x y => quietNaN_of_isNaN_operand, fun x y hx hy => ?_,
    fun x y hx hy => ?_, fun x y hx hy => infinity_finite hx hy, ?_⟩
  · have h := isRounding_sum .sub hx ((isFinite_neg y).trans hy)
    rw [units_neg, ← sub_eq_add_neg] at h
    exact h hne
  · obtain ⟨hadd, hsub, hmul⟩ := infinity_infinity hx hy
    refine ⟨fun hs => ?_, fun hs => ?_, hmul⟩
    · rw [if_pos hs] at hadd
      rw [if_neg hs] at hsub
      exact ⟨(quietNaN_of_eq_nan hadd).1, (quietNaN_of_eq_nan hadd).2, hsub⟩
    · rw [if_neg (not_not.2 hs)] at hadd
      rw [if_pos hs] at hsub
      exact ⟨(quietNaN_of_eq_nan hsub).1, (quietNaN_of_eq_nan hsub).2, hadd⟩
  · obtain ⟨hright, hleft⟩ := infinity_zero hx hy
    simp only [List.forall_mem_cons, List.not_mem_nil, false_imp_iff, implies_true, and_true]
    exact ⟨quietNaN_of_eq_nan hright, quietNaN_of_eq_nan hleft⟩
  · have hzeroInf := quietNaN_of_eq_nan
      (infinity_zero (x := F64.ofMag false F64.infMag) (y := 0) (by decide) (by decide)).2
    obtain ⟨hnan, hquiet⟩ := quietNaN_of_isNaN_operand (y := F64.mul (F64.ofInt (-1)) 0) (.inl hzeroInf.1) (F64.sub _ _)
      (List.mem_cons_of_mem _ List.mem_cons_self)
    simp only [Numerics.cmul]
    exact ⟨hnan, hquiet, by decide +kernel⟩

/-- Settles O46: the fixed-point cosine and sine are within 10^-19, the rounding adds at most 2^-54, and the quadrants only
change signs and exchange parts. -/
theorem twiddleTableIsAccurate : Obligations.TwiddleTableIsAccurate := by
  intro e k _
  obtain ⟨q, f, hsplit, hq, hf⟩ := exists_split e k
  obtain ⟨hre, him⟩ := exactTwiddle_angle hsplit
  rw [hre, him, twrom_of_split hsplit hf]
  exact quadrantEntry_error hq (isCosSin_quadrant hf.le)

/-- Settles O18: both commands pass `BFLY`'s checks and write one butterfly's results. -/
theorem bflyDoesOneButterfly : Obligations.BflyDoesOneButterfly := by
  intro e k s he _ hsrc _ hdst i kk hi
  have hpass := bflyChecks_pass he hsrc hdst
  have htouched : [s.d.dst.toNat, s.d.dst.toNat + s.d.dstr.toNat] = vecSet s.d.dstElem 2 := by
    simp [vecSet, Desc.dstElem, List.range_succ]
  rw [htouched]
  rcases hi with ⟨rfl, rfl⟩ | ⟨rfl, rfl⟩
  · exact ⟨_, exec_completed (faultOf_bfly rfl hpass) nofun, completes_completed rfl, bfly_results rfl⟩
  · exact ⟨_, exec_completed (faultOf_bfly rfl hpass) nofun, completes_completed rfl, bfly_results rfl⟩

/-- Settles O42: an exact zero sum and a product with a zero are answered by their signs alone. -/
theorem signsOfZeroResults : Obligations.SignsOfZeroResults := by
  refine ⟨fun x hx => ?_, by decide +kernel, by decide +kernel, by decide +kernel, fun x hx => ?_⟩
  · rw [F64.sub, sum_finite .sub hx ((isFinite_neg x).trans hx), units_neg, if_pos (Int.add_right_neg _), sign_neg,
      Bool.and_not_self]
    rfl
  · obtain ⟨hposLeft, hposRight⟩ := mul_zero_factor (z := 0) (by decide) hx
    obtain ⟨hnegLeft, hnegRight⟩ := mul_zero_factor (z := 0x8000000000000000#64) (by decide) hx
    rw [hposLeft, hposRight, hnegLeft, hnegRight, show F64.sign 0 = false by decide,
      show F64.sign 0x8000000000000000#64 = true by decide]
    cases F64.sign x <;> simp

/-- Settles O43: of finite values the two quotients are equal fractions, and a rounding depends on the fraction alone. -/
theorem divisionByNIsScaling : Obligations.DivisionByNIsScaling := by
  intro x m hm
  obtain ⟨hsign, hfin, hunits, hsign', hfin', hunits'⟩ := powerOfTwo_units hm
  have hunit : 0 < 2^1074 := by positivity
  have hpow := Nat.two_pow_pos m
  generalize F64.ofInt (2^m) = p at *
  generalize BitVec.ofNat 64 ((1023 - m) * 2^52) = q at *
  refine ⟨fun hnan => ?_, fun hnan => ⟨?_, isNaN_mul_left x q hnan⟩⟩
  · have hp : F64.mag p ≠ 0 := mag_ne_zero_of_magUnits (by rw [hunits]; positivity)
    have hq : F64.mag q ≠ 0 := mag_ne_zero_of_magUnits (Nat.pos_of_mul_pos_left (hunits' ▸ hunit))
    rcases kind_cases x with h | hinf | hx
    · simp [h] at hnan
    · rw [div_inf_left hinf hfin, mul_inf hnan (isNaN_of_isFinite hfin') (.inl hinf),
        if_neg (by simp [mag_ne_zero_of_isInf hinf, hq]), hsign, hsign']
    · rw [div_finite hx hfin hp, mul_finite hx hfin', hsign, hsign', F64.ofUnits, F64.ofUnits, hunits,
        ← roundMag_mul_left (2^m) _ (2^1074) hpow, Nat.mul_left_comm, hunits']
  · rw [div_of_isNaN (.inl hnan)]
    exact isNaN_nan _ _ _

/-- Settles O45: the table unfolds by quadrants (`twrom_of_split`), which negation of the exponent reverses. -/
theorem twiddleTableSymmetry : Obligations.TwiddleTableSymmetry := by
  obtain ⟨-, hdown, hleft, hup⟩ := quadrantEntry_exact
  have hquarter : ∀ e, 0 < 2^e ∧ 2^(e + 2) = 4 * 2^e := fun e => ⟨Nat.two_pow_pos e, by rw [Nat.pow_add]; omega⟩
  refine ⟨isTableConj_twrom_neg, fun e k => ?_, twrom_order_zero, twrom_zero, fun e => ?_, fun e => ?_⟩
  · rw [twrom_eq, twrom_eq, reduced_add_period]
  · have hpos := Nat.two_pow_pos e
    rw [← hleft, ← twrom_quarter (e := e + 1) (r := 2^e) (by omega) (by omega), Nat.cast_pow, Nat.cast_ofNat]
  · obtain ⟨hpos, hpow⟩ := hquarter e
    constructor
    · rw [← hdown, ← twrom_quarter (e := e + 2) (r := 2^e) (by omega) (by omega), Nat.cast_pow, Nat.cast_ofNat]
    · rw [← hup, ← twrom_quarter (e := e + 2) (r := 3 * 2^e) (by omega) (by omega), Nat.cast_mul, Nat.cast_pow,
        Nat.cast_ofNat, Nat.cast_ofNat]

/-- Settles O47, by the product rule, the reduction of the fraction and the four quarters of a turn. -/
theorem exactTwiddleProperties : Obligations.ExactTwiddleProperties := by
  refine ⟨toComplex_exactTwiddle, fun n k _ => W_neg n k, fun n k hn => ?_, fun n k _ => norm_W n k,
    fun n j k _ => W_mul_W n j k, fun n k hn => ?_, fun n k _ => W_mul_left n k (m := 2) (by omega), fun n hn => ?_, W_one⟩
  · rw [← W_mul_W, W_self hn, mul_one]
  · rw [← W_mul_W, W_half hn, mul_neg_one]
  · have hone := W_quarter hn 1
    rw [one_mul] at hone
    exact ⟨W_zero_right n, W_half hn, hone.trans W_four_one, (W_quarter hn 3).trans W_four.2.1⟩

/-- Settles O44: the row for `E = 0` is the exact point, and the others are evaluated. -/
theorem firstTwiddleEntries : Obligations.FirstTwiddleEntries := by
  refine ⟨fun k => ?_, ?_⟩
  · exact (twrom_order_zero k).trans (by decide +kernel)
  · decide +kernel

/-- Settles O48: in complex numbers the two results are `a + w·b` and `a - w·b`. -/
theorem butterflyInExactArithmetic : Obligations.ButterflyInExactArithmetic := by
  unfold Obligations.ButterflyInExactArithmetic
  intro A B
  have hA : ∀ a b w, A a b w = toComplex a + toComplex w * toComplex b := fun a b w => (toComplex_bfly a b w).1
  have hB : ∀ a b w, B a b w = toComplex a - toComplex w * toComplex b := fun a b w => (toComplex_bfly a b w).2
  have hzero : toComplex { re := 0, im := 0 } = 0 := rfl
  have hone : toComplex { re := 1, im := 0 } = 1 := rfl
  refine ⟨fun a b w => ⟨hA a b w, hB a b w⟩, fun a b w => ?_, fun a b w hw => ?_, fun a w => ?_, fun a b => ?_⟩
  · rw [hA, hB]
    exact ⟨by ring, by ring⟩
  · have hunit : starRingEnd ℂ (toComplex w) * toComplex w = 1 := by
      rw [Complex.conj_mul', hw, Complex.ofReal_one, one_pow]
    rw [hA, hB]
    exact ⟨by ring, by linear_combination (-toComplex b) * hunit⟩
  · rw [hA, hB, hzero, mul_zero, add_zero, sub_zero]
    exact ⟨rfl, rfl⟩
  · rw [hA, hB, hone, one_mul]
    exact ⟨rfl, rfl⟩

end Sys2Proof.Proofs

/-! # The bit reversal: proofs of the statements about `41_bitrev.md`

First the reversal itself, bit by bit. Then what a command that passes its checks and writes a vector leaves, and that for
`BRTAB` and `BRPERM`. The statements are settled at the end, from these rules. -/

namespace Sys2Proof.Proofs

open Sys2Proof.Machine Sys2Proof.Laws

/-! ### The bits of a reversal (`41_bitrev.md` R120, R121) -/

section
variable (m : Nat)

theorem rev_two_mul (i : Nat) : rev (m + 1) (2 * i) = rev m i := by
  have hlow : 2 * i % 2 = 0 ∧ 2 * i / 2 = i := by omega
  rw [rev_succ, hlow.1, hlow.2, Nat.zero_mul, Nat.zero_add]

theorem rev_two_mul_add_one (i : Nat) : rev (m + 1) (2 * i + 1) = rev m i + 2^m := by
  have hlow : (2 * i + 1) % 2 = 1 ∧ (2 * i + 1) / 2 = i := by omega
  rw [rev_succ, hlow.1, hlow.2, Nat.one_mul, Nat.add_comm]

/-- Bit `t` of the reversal is bit `m - 1 - t` of the index, and no bit from `m` on is set. -/
theorem testBit_rev (i t : Nat) : (rev m i).testBit t = (decide (t < m) && i.testBit (m - 1 - t)) := by
  induction m generalizing i t with
  | zero => simp [rev]
  | succ m ih =>
    have hlowest : (i % 2).testBit (t - m) = (decide (t - m < 1) && i.testBit (t - m)) := Nat.testBit_mod_two_pow i 1 _
    rw [rev_succ, Nat.mul_comm, Nat.testBit_two_pow_mul_add _ (rev_lt m (i / 2)), hlowest]
    rcases lt_trichotomy t m with ht | rfl | ht
    · have hidx : m + 1 - 1 - t = m - 1 - t + 1 := by omega
      rw [if_pos ht, ih, hidx, Nat.testBit_add_one]
      simp [ht, Nat.lt_succ_of_lt ht]
    · simp
    · have hout : ¬ t - m < 1 ∧ ¬ t < m + 1 := by omega
      simp [ht.not_gt, hout]

theorem rev_zero_right : rev m 0 = 0 :=
  Nat.eq_of_testBit_eq fun t => by simp [testBit_rev]

theorem rev_last : rev m (2^m - 1) = 2^m - 1 :=
  Nat.eq_of_testBit_eq fun t => by
    have hidx : t < m → m - 1 - t < m := by omega
    simp only [testBit_rev, Nat.testBit_two_pow_sub_one]
    by_cases ht : t < m <;> simp [ht, hidx]

variable {m} {i : Nat} (hi : i < 2^m)
include hi

theorem testBit_index {t : Nat} (ht : m ≤ t) : i.testBit t = false :=
  Nat.testBit_lt_two_pow (Nat.lt_of_lt_of_le hi (Nat.pow_le_pow_right Nat.two_pos ht))

/-- The reversal is an involution: each bit returns to its place. -/
theorem rev_rev : rev m (rev m i) = i := by
  refine Nat.eq_of_testBit_eq fun t => ?_
  rw [testBit_rev, testBit_rev]
  by_cases ht : t < m
  · have hback : m - 1 - t < m ∧ m - 1 - (m - 1 - t) = t := by omega
    simp [ht, hback]
  · simp [ht, testBit_index hi (Nat.not_lt.1 ht)]

/-- The fixed points are the palindromes. -/
theorem rev_eq_self_iff : rev m i = i ↔ ∀ t < m, i.testBit t = i.testBit (m - 1 - t) := by
  constructor
  · intro hfix t ht
    calc i.testBit t
      _ = (rev m i).testBit t := by rw [hfix]
      _ = i.testBit (m - 1 - t) := by simp [testBit_rev, ht]
  · intro hpal
    refine Nat.eq_of_testBit_eq fun t => ?_
    rw [testBit_rev]
    by_cases ht : t < m
    · simp [ht, hpal t ht]
    · simp [ht, testBit_index hi (Nat.not_lt.1 ht)]

end

/-! ### Commands that write a vector (`20_memory.md` R52, R53) -/

/-- A command that ends in `RUN` has passed its checks and completed. -/
theorem completed_of_running {i : Instr} {s t : State} (h : exec i s = .next t) (ht : t.status = .run) :
    faultOf i s.par s.d = none ∧ t = completed i s := by
  rcases exec_cases h with ⟨f, -, rfl⟩ | ⟨-, rfl⟩ | ⟨hpass, -, rfl⟩
  · exact absurd ht nofun
  · exact absurd ht nofun
  · exact ⟨hpass, rfl⟩

/-- After a vector is written, an element whose address is not written again holds its value. -/
theorem cell_writeCells_vector (s : State) (addr : Nat → Nat) (value : Nat → Cell) {n i : Nat} (hi : i < n)
    (hlast : lastWrite addr n i) :
    (s.writeCells ((List.range n).map fun j => (addr j, value j))).cell (addr i) = value i := by
  have hcell := cell_writeCells_last s ((List.range n).map fun j => (addr j, value j)) i (by simpa using hi)
    fun j hij hj => by simpa using hlast j hij (by simpa using hj)
  simpa using hcell

/-- Different destination elements have different addresses when the stride is not 0, or when there is one element. -/
theorem lastWrite_dstElem {d : Desc} {m i : Nat} (hdstr : d.dstr ≠ 0 ∨ m = 0) : lastWrite d.dstElem (2^m) i := by
  intro j hij hj hsame
  rcases hdstr with hdstr | rfl
  · have hpos : 0 < d.dstr.toNat := Nat.pos_of_ne_zero fun h => hdstr (BitVec.eq_of_toNat_eq h)
    have := Nat.mul_lt_mul_of_pos_right hij hpos
    simp only [Desc.dstElem] at hsame
    omega
  · omega

/-! ### BRTAB and BRPERM (`41_bitrev.md` R123, R124) -/

theorem faultOf_brtab {m : Nat} {par : Params} {d : Desc} (hm : m ≤ par.mmax)
    (hdst : ∀ i < 2^m, d.dstElem i < par.dmCells) : faultOf (.brtab m) par d = none := by
  rw [← firstFault_checksOf, checksOf, (orderCheck_eq_none par m).2 hm, (dstVecValid_iff par d _).2 hdst]
  rfl

theorem faultOf_brperm {m : Nat} {par : Params} {d : Desc} (hm : m ≤ par.mmax)
    (hsrc : ∀ j < 2^m, d.srcElem j < par.dmCells) (hdst : ∀ i < 2^m, d.dstElem i < par.dmCells) :
    faultOf (.brperm m) par d = none := by
  rw [← firstFault_checksOf, checksOf, (orderCheck_eq_none par m).2 hm, (srcVecValid_iff par d _).2 hsrc,
    (dstVecValid_iff par d _).2 hdst]
  rfl

section
variable {m i : Nat} {s : State} (hi : i < 2^m) (hlast : lastWrite s.d.dstElem (2^m) i)
include hi hlast

theorem completed_brtab_cell : (completed (.brtab m) s).cell (s.d.dstElem i) = BitVec.ofNat 128 (rev m i) :=
  cell_writeCells_vector s s.d.dstElem (fun j => natCell f64Tier (rev m j)) hi hlast

theorem completed_brperm_cell :
    (completed (.brperm m) s).cell (s.d.dstElem i) = s.cell (s.d.srcElem (rev m i)) :=
  cell_writeCells_vector s s.d.dstElem (fun j => s.cell (s.d.srcElem (rev m j))) hi hlast

end

/-! ### The statements -/

/-- Settles O16: the checks pass, and the command writes the vector of reversals. -/
theorem brtabWritesTheTable : Obligations.BrtabWritesTheTable := fun _ _ hm hdst =>
  ⟨_, exec_completed (faultOf_brtab hm hdst) nofun, completes_completed rfl, rfl, fun _ hi hlast =>
    completed_brtab_cell hi hlast⟩

/-- Settles O17: the checks pass, and the command writes the vector of reversed source elements. -/
theorem brpermPermutesTheVector : Obligations.BrpermPermutesTheVector := fun _ _ hm hsrc hdst =>
  ⟨_, exec_completed (faultOf_brperm hm hsrc hdst) nofun, completes_completed rfl, rfl, fun _ hi hlast =>
    completed_brperm_cell hi hlast⟩

/-- Settles O37, from the bits of a reversal; the tables are evaluated. -/
theorem bitReversalProperties : Obligations.BitReversalProperties :=
  ⟨fun m i hi => ⟨rev_lt m i, rev_rev hi⟩, fun m j hj => ⟨rev m j, rev_lt m j, rev_rev hj⟩,
    fun m => ⟨rev_zero_right m, rev_last m⟩, by decide, fun m i _ => ⟨rev_two_mul m i, rev_two_mul_add_one m i⟩,
    fun _ _ hi => rev_eq_self_iff hi, by decide, by decide, by decide, by decide, by decide⟩

/-- Settles O38: the second command reads each cell where the first wrote it, and the reversal is an involution. -/
theorem brpermTwiceRestores : Obligations.BrpermTwiceRestores := by
  intro m s t u v hst _ ht hdm hboot _ hsrc hsstr huv hv hs hu i hi
  obtain ⟨-, rfl⟩ := completed_of_running hst ht
  obtain ⟨-, rfl⟩ := completed_of_running huv hv
  have hcell : ∀ a, u.cell a = (completed (.brperm m) s).cell a := fun a => by rw [State.cell, State.cell, hdm, hboot]
  have helem : u.d.srcElem (rev m i) = s.d.dstElem (rev m i) := by rw [Desc.srcElem, Desc.dstElem, hsrc, hsstr]
  calc (completed (.brperm m) u).cell (u.d.dstElem i)
    _ = u.cell (u.d.srcElem (rev m i)) := completed_brperm_cell hi (lastWrite_dstElem hu)
    _ = (completed (.brperm m) s).cell (s.d.dstElem (rev m i)) := by rw [hcell, helem]
    _ = s.cell (s.d.srcElem (rev m (rev m i))) := completed_brperm_cell (rev_lt m i) (lastWrite_dstElem hs)
    _ = s.cell (s.d.srcElem i) := by rw [rev_rev hi]

end Sys2Proof.Proofs

/-! # The forward engine: proofs of the statements about `42_fft.md`

First the butterflies of a stage, in any order, and the source's natural-order buffer, both in any arithmetic. Then the
network in exact arithmetic, which is the discrete Fourier transform by halves, and the network on a single element in
binary64, which it copies to every place. With each goes what the commands leave. The statements are settled at the end, from
these rules. -/

namespace Sys2Proof.Proofs

open Sys2Proof.Machine Sys2Proof.Laws

/-! ### The butterflies of a stage (`42_fft.md` R135, R136) -/

/-- The butterflies of stage `m` as pairs of group and position, in the order of R135. -/
def stageButterflies (bigM m : Nat) : List (Nat × Nat) :=
  (List.range (2^bigM / 2^(m + 1))).flatMap fun g => (List.range (2^m)).map fun i => (g, i)

/-- The lower index `p` of a butterfly of stage `m`. -/
def lowIndex (m : Nat) (gi : Nat × Nat) : Nat := gi.1 * 2^(m + 1) + gi.2

/-- The index pair `{p, q}` of a butterfly of stage `m`. -/
def indexPair (m : Nat) (gi : Nat × Nat) : List Nat := [lowIndex m gi, lowIndex m gi + 2^m]

/-- One butterfly of stage `m`. -/
def runButterfly (num : Numerics) (sgn : Int) (m : Nat) (wb : List (Cplx num.R)) (gi : Nat × Nat) : List (Cplx num.R) :=
  butterflyAt num (num.tw (m + 1) (sgn * gi.2)) (lowIndex m gi) (lowIndex m gi + 2^m) wb

/-- The lower and the upper halves of a group are the whole group. -/
theorem groupIndices_perm (base half : Nat) :
    ((List.range half).flatMap fun i => [base + i, base + i + half]).Perm ((List.range (2 * half)).map (base + ·)) := by
  have hsplit : (List.range (2 * half)).map (base + ·) =
      (List.range half).map (base + ·) ++ (List.range half).flatMap fun i => [base + i + half] := by
    simp [Nat.two_mul, List.range_add, ← List.map_eq_flatMap, Nat.add_assoc, Nat.add_comm half]
  rw [hsplit]
  exact (List.map_append_flatMap_perm _ _ _).symm

/-- Consecutive groups are the whole buffer. -/
theorem flatMap_groups (groups span : Nat) :
    ((List.range groups).flatMap fun g => (List.range span).map (g * span + ·)) = List.range (groups * span) := by
  induction groups with
  | zero => simp
  | succ groups ih => rw [List.range_succ, List.flatMap_append, ih, Nat.succ_mul, List.range_add]; simp

/-- Every index of the buffer belongs to exactly one butterfly of the stage. -/
theorem indexPairs_perm {bigM m : Nat} (hm : m < bigM) :
    ((stageButterflies bigM m).flatMap (indexPair m)).Perm (List.range (2^bigM)) := by
  have hspan : 2^(m + 1) = 2 * 2^m := Nat.pow_succ'
  have hgroup : ∀ g, (((List.range (2^m)).map fun i => (g, i)).flatMap (indexPair m)).Perm
      ((List.range (2^(m + 1))).map (g * 2^(m + 1) + ·)) := fun g => by
    rw [List.flatMap_map, hspan]
    simpa only [indexPair, lowIndex, hspan] using groupIndices_perm (g * (2 * 2^m)) (2^m)
  have hbuffer := flatMap_groups (2^bigM / 2^(m + 1)) (2^(m + 1))
  rw [Nat.div_mul_cancel (pow_dvd_pow 2 hm)] at hbuffer
  rw [stageButterflies, List.flatMap_assoc, ← hbuffer]
  exact List.Perm.flatMap_left _ fun g _ => hgroup g

/-- A stage runs its butterflies one after the other. -/
theorem stagePass_eq_foldl (num : Numerics) (sgn : Int) (bigM m : Nat) (wb : List (Cplx num.R)) :
    stagePass num sgn bigM m wb = (stageButterflies bigM m).foldl (runButterfly num sgn m) wb := by
  rw [stageButterflies, List.foldl_flatMap]
  simp only [List.foldl_map]
  rfl

section
variable (num : Numerics)

theorem getD_set_ne {a x : Nat} (hax : a ≠ x) (v : Cplx num.R) (wb : List (Cplx num.R)) :
    (wb.set a v).getD x num.czero = wb.getD x num.czero := by
  simp only [List.getD, List.getElem?_set_ne hax]

/-- Butterflies on disjoint index pairs do not see each other. -/
theorem butterflyAt_comm (w w' : Cplx num.R) {p q p' q' : Nat} (hpp : p ≠ p') (hpq : p ≠ q') (hqp : q ≠ p') (hqq : q ≠ q')
    (wb : List (Cplx num.R)) :
    butterflyAt num w' p' q' (butterflyAt num w p q wb) = butterflyAt num w p q (butterflyAt num w' p' q' wb) := by
  simp only [butterflyAt, getD_set_ne num hpp, getD_set_ne num hpq, getD_set_ne num hqp, getD_set_ne num hqq,
    getD_set_ne num hpp.symm, getD_set_ne num hpq.symm, getD_set_ne num hqp.symm, getD_set_ne num hqq.symm]
  rw [List.set_comm _ _ hqp, List.set_comm _ _ hpp, List.set_comm _ _ hqq, List.set_comm _ _ hpq]

variable {num} {sgn : Int} {m : Nat}

theorem runButterfly_comm {gi gi' : Nat × Nat} (hdisj : (indexPair m gi).Disjoint (indexPair m gi'))
    (wb : List (Cplx num.R)) :
    runButterfly num sgn m (runButterfly num sgn m wb gi) gi' =
      runButterfly num sgn m (runButterfly num sgn m wb gi') gi := by
  obtain ⟨⟨hpp, hpq⟩, hqp, hqq⟩ : (lowIndex m gi ≠ lowIndex m gi' ∧ lowIndex m gi ≠ lowIndex m gi' + 2^m) ∧
      lowIndex m gi + 2^m ≠ lowIndex m gi' ∧ lowIndex m gi + 2^m ≠ lowIndex m gi' + 2^m := by
    simpa [indexPair, List.disjoint_left] using hdisj
  exact butterflyAt_comm num _ _ hpp hpq hqp hqq wb

/-- The butterflies of a stage commute, since the stage contains every index exactly once. -/
theorem foldl_runButterfly_perm {bigM : Nat} (hm : m < bigM) {order : List (Nat × Nat)}
    (horder : order.Perm (stageButterflies bigM m)) (wb : List (Cplx num.R)) :
    order.foldl (runButterfly num sgn m) wb = stagePass num sgn bigM m wb := by
  have hnodup : ((stageButterflies bigM m).flatMap (indexPair m)).Nodup :=
    (indexPairs_perm hm).nodup_iff.2 List.nodup_range
  have hdisj := (List.nodup_flatMap.1 hnodup).2
  have : Std.Symm (Function.onFun List.Disjoint (indexPair m)) := ⟨fun _ _ h => h.symm⟩
  rw [stagePass_eq_foldl]
  refine horder.foldl_eq' (fun x hx y hy z => ?_) wb
  rcases eq_or_ne x y with rfl | hne
  · rfl
  · exact runButterfly_comm (hdisj.forall (horder.subset hx) (horder.subset hy) hne) z

end

/-! ### The natural-order buffer (`42_fft.md` R133) -/

section
variable (num : Numerics) {bigM : Nat}

/-- The working buffer `WB[j] = B[rev(M, j)]` that a natural-order buffer `B` stands for. -/
def StandsFor (bigM : Nat) (b wb : List (Cplx num.R)) : Prop := b.length = 2^bigM ∧ loadReversed num bigM b = wb

theorem loadReversed_set {j : Nat} (hj : j < 2^bigM) (v : Cplx num.R) {b : List (Cplx num.R)} (hb : b.length = 2^bigM) :
    loadReversed num bigM (b.set (rev bigM j) v) = (loadReversed num bigM b).set j v := by
  refine List.ext_getElem (by simp) fun x hx _ => ?_
  rw [loadReversed_length] at hx
  rw [List.getElem_set]
  simp only [loadReversed, List.getElem_map, List.getElem_range]
  split_ifs with hjx
  · rw [← hjx]
    simp [List.getD, hb, rev_lt]
  · exact getD_set_ne num (fun h => hjx (by rw [← rev_rev hj, h, rev_rev hx])) v b

/-- A butterfly that reaches its operands through the bit-reversal table is the butterfly of R135. -/
theorem standsFor_butterflyAt {w : Cplx num.R} {p q : Nat} (hp : p < 2^bigM) (hq : q < 2^bigM) {b wb : List (Cplx num.R)}
    (h : StandsFor num bigM b wb) :
    StandsFor num bigM (butterflyAt num w (rev bigM p) (rev bigM q) b) (butterflyAt num w p q wb) := by
  obtain ⟨hlen, rfl⟩ := h
  refine ⟨by simpa using hlen, ?_⟩
  rw [butterflyAt, butterflyAt, loadReversed_getD num _ _ _ hp, loadReversed_getD num _ _ _ hq,
    loadReversed_set num hq _ (by simpa using hlen), loadReversed_set num hp _ hlen]

theorem standsFor_naturalStage {m : Nat} (hm : m < bigM) {b wb : List (Cplx num.R)} (h : StandsFor num bigM b wb) :
    StandsFor num bigM (naturalStage num bigM m b) (stagePass num 1 bigM m wb) := by
  refine List.foldl_rel h fun g hg b wb h => List.foldl_rel h fun i hi b wb h => ?_
  have hgroups : 2^bigM / 2^(m + 1) * 2^(m + 1) = 2^bigM := Nat.div_mul_cancel (pow_dvd_pow 2 hm)
  have hgroup : (g + 1) * 2^(m + 1) ≤ 2^bigM := hgroups ▸ Nat.mul_le_mul_right _ (List.mem_range.1 hg)
  have hspan : 2^(m + 1) = 2 * 2^m := Nat.pow_succ'
  rw [Nat.succ_mul] at hgroup
  rw [List.mem_range] at hi
  rw [one_mul]
  exact standsFor_butterflyAt num (by omega) (by omega) h

/-- The renaming holds after any number of stages. -/
theorem standsFor_stages {x : List (Cplx num.R)} (hx : x.length = 2^bigM) {k : Nat} (hk : k ≤ bigM) :
    StandsFor num bigM ((List.range k).foldl (fun b i => naturalStage num bigM i b) x)
      ((List.range k).foldl (fun wb i => stagePass num 1 bigM i wb) (loadReversed num bigM x)) :=
  List.foldl_rel ⟨hx, rfl⟩ fun _ hi _ _ h => standsFor_naturalStage num ((List.mem_range.1 hi).trans_le hk) h

end

/-! ### The discrete Fourier transform, by halves (`42_fft.md` R138) -/

/-- The transform of `n` elements of `y` with the exponents' sign `sgn`: `1` is the discrete Fourier transform, `-1` the
inverse one before the division by `n`. -/
noncomputable def dft (sgn : Int) (n : Nat) (y : Nat → ℂ) (k : Nat) : ℂ :=
  ∑ j ∈ Finset.range n, y j * W n (sgn * (j * k))

theorem dft_forward (n : Nat) (y : Nat → ℂ) (k : Nat) : dft 1 n y k = ∑ j ∈ Finset.range n, y j * W n (j * k) := by
  simp only [dft, one_mul]

theorem sum_range_two_mul (f : Nat → ℂ) (n : Nat) :
    ∑ j ∈ Finset.range (2 * n), f j = ∑ j ∈ Finset.range n, f (2 * j) + ∑ j ∈ Finset.range n, f (2 * j + 1) := by
  induction n with
  | zero => simp
  | succ n ih =>
    rw [Nat.mul_succ, Finset.sum_range_succ, Finset.sum_range_succ, ih, Finset.sum_range_succ, Finset.sum_range_succ]
    ring

section
variable {sgn : Int} {n : Nat} (y : Nat → ℂ) (k : Nat)

/-- A transform of `2n` elements, from those of its elements at even and at odd positions. -/
theorem dft_two_mul :
    dft sgn (2 * n) y k = dft sgn n (fun j => y (2 * j)) k + W (2 * n) (sgn * k) * dft sgn n (fun j => y (2 * j + 1)) k := by
  have hhalf : ∀ j : Nat, W (2 * n) (2 * (sgn * (j * k))) = W n (sgn * (j * k)) := fun j => W_mul_left n _ Nat.two_pos
  have heven : ∀ j : Nat, W (2 * n) (sgn * ((2 * j : Nat) * k)) = W n (sgn * (j * k)) := fun j => by
    rw [← hhalf]
    congr 1
    push_cast
    ring
  have hodd : ∀ j : Nat, W (2 * n) (sgn * ((2 * j + 1 : Nat) * k)) = W (2 * n) (sgn * k) * W n (sgn * (j * k)) := fun j => by
    rw [← hhalf, W_mul_W]
    congr 1
    push_cast
    ring
  simp only [dft, sum_range_two_mul, heven, hodd, Finset.mul_sum, mul_left_comm]

variable (hn : 0 < n)
include hn

theorem W_mul_self (q : Int) : W n (q * n) = 1 := by
  have h := W_mul_left 1 q hn
  rwa [W_one, mul_one, mul_comm] at h

theorem dft_add_period : dft sgn n y (k + n) = dft sgn n y k := by
  refine Finset.sum_congr rfl fun j _ => ?_
  have hsplit : sgn * (j * (k + n : Nat)) = sgn * (j * k) + sgn * j * n := by push_cast; ring
  rw [hsplit, ← W_mul_W, W_mul_self hn, mul_one]

/-- Half a period later the twiddle factor has the other sign, for either direction. -/
theorem W_add_half (hsgn : sgn = 1 ∨ sgn = -1) : W (2 * n) (sgn * (k + n : Nat)) = -W (2 * n) (sgn * k) := by
  have hhalf : W (2 * n) (sgn * n) = -1 := by
    rcases hsgn with rfl | rfl
    · rw [one_mul, W_half hn]
    · rw [neg_one_mul, W_neg, W_half hn, map_neg, map_one]
  rw [Nat.cast_add, mul_add, ← W_mul_W, hhalf, mul_neg_one]

theorem dft_two_mul_add_half (hsgn : sgn = 1 ∨ sgn = -1) :
    dft sgn (2 * n) y (k + n) =
      dft sgn n (fun j => y (2 * j)) k - W (2 * n) (sgn * k) * dft sgn n (fun j => y (2 * j + 1)) k := by
  rw [dft_two_mul, dft_add_period _ _ hn, dft_add_period _ _ hn, W_add_half k hn hsgn, neg_mul, sub_eq_add_neg]

end

/-! ### The network in exact arithmetic -/

/-- The decimated input of group `g` after `s` stages (`42_fft.md` R138). -/
noncomputable def decimated (m : Nat) (x : List (Cplx ℝ)) (s g j : Nat) : ℂ := elemC x (j * 2^(m - s) + rev (m - s) g)

/-- The working buffer after the first `s` stages. -/
noncomputable def idealStages (sgn : Int) (m s : Nat) (wb : List (Cplx ℝ)) : List (Cplx ℝ) :=
  (List.range s).foldl (fun wb j => stagePass idealNumerics sgn m j wb) wb

theorem idealStages_succ (sgn : Int) (m s : Nat) (wb : List (Cplx ℝ)) :
    idealStages sgn m (s + 1) wb = stagePass idealNumerics sgn m s (idealStages sgn m s wb) := by
  rw [idealStages, List.range_succ, List.foldl_append]
  rfl

section
variable {sgn : Int} {m s : Nat} {wb : List (Cplx ℝ)} (hs : s < m) (hlen : wb.length = 2^m) {g k : Nat} (hk : k < 2^s)
  (hg : (g + 1) * 2^(s + 1) ≤ 2^m)
include hs hlen hk hg

/-- The lower half of a group after a stage, as complex numbers. -/
theorem elemC_stagePass_lower :
    elemC (stagePass idealNumerics sgn m s wb) (g * 2^(s + 1) + k) =
      elemC wb (g * 2^(s + 1) + k) + W (2^(s + 1)) (sgn * k) * elemC wb (g * 2^(s + 1) + k + 2^s) := by
  have hspan : 2^(s + 1) = 2 * 2^s := Nat.pow_succ'
  have hpos : (g * 2^(s + 1) + k) % 2^(s + 1) = k := by rw [Nat.mul_add_mod_self_right, Nat.mod_eq_of_lt (by omega)]
  rw [Nat.succ_mul] at hg
  rw [elemC, stagePass_getD idealNumerics sgn m s hs wb hlen _ (by omega), hpos, if_pos hk, (toComplex_bfly _ _ _).1,
    toComplex_exactTwiddle]
  rfl

/-- The upper half of a group after a stage, as complex numbers. -/
theorem elemC_stagePass_upper :
    elemC (stagePass idealNumerics sgn m s wb) (g * 2^(s + 1) + k + 2^s) =
      elemC wb (g * 2^(s + 1) + k) - W (2^(s + 1)) (sgn * k) * elemC wb (g * 2^(s + 1) + k + 2^s) := by
  have hspan : 2^(s + 1) = 2 * 2^s := Nat.pow_succ'
  have hpos : (g * 2^(s + 1) + k + 2^s) % 2^(s + 1) = k + 2^s := by
    rw [Nat.add_assoc, Nat.mul_add_mod_self_right, Nat.mod_eq_of_lt (by omega)]
  rw [Nat.succ_mul] at hg
  rw [elemC, stagePass_getD idealNumerics sgn m s hs wb hlen _ (by omega), hpos, if_neg (by omega), (toComplex_bfly _ _ _).2,
    toComplex_exactTwiddle, Nat.add_sub_cancel, Nat.add_sub_cancel]
  rfl

end

section
variable {m s : Nat} (x : List (Cplx ℝ)) (hs : s < m) (g : Nat)
include hs

theorem decimated_even : decimated m x s (2 * g) = fun j => decimated m x (s + 1) g (2 * j) := by
  funext j
  obtain ⟨r, rfl⟩ : ∃ r, m = s + 1 + r := ⟨m - (s + 1), by omega⟩
  have hexp : s + 1 + r - (s + 1) = r ∧ s + 1 + r - s = r + 1 := by omega
  rw [decimated, decimated, hexp.1, hexp.2, rev_two_mul, Nat.pow_succ', Nat.mul_left_comm, Nat.mul_assoc]

theorem decimated_odd : decimated m x s (2 * g + 1) = fun j => decimated m x (s + 1) g (2 * j + 1) := by
  funext j
  obtain ⟨r, rfl⟩ : ∃ r, m = s + 1 + r := ⟨m - (s + 1), by omega⟩
  have hexp : s + 1 + r - (s + 1) = r ∧ s + 1 + r - s = r + 1 := by omega
  have hindex : (2 * j + 1) * 2^r + rev r g = j * 2^(r + 1) + (rev r g + 2^r) := by rw [Nat.pow_succ]; ring
  rw [decimated, decimated, hexp.1, hexp.2, rev_two_mul_add_one, hindex]

end

theorem idealStages_length (sgn : Int) {m s : Nat} (hs : s ≤ m) (x : List (Cplx ℝ)) :
    (idealStages sgn m s (loadReversed idealNumerics m x)).length = 2^m :=
  stageSteps_length idealNumerics sgn m _ (loadReversed_length idealNumerics m x) s hs

section
variable {sgn : Int} (hsgn : sgn = 1 ∨ sgn = -1) {m : Nat} (x : List (Cplx ℝ))
include hsgn

/-- The invariant of R138, for either direction: after `s` stages every group of `2^s` elements holds the transform of its
own decimated input. -/
theorem elemC_idealStages {s : Nat} (hs : s ≤ m) : ∀ g < 2^(m - s), ∀ k < 2^s,
    elemC (idealStages sgn m s (loadReversed idealNumerics m x)) (g * 2^s + k) = dft sgn (2^s) (decimated m x s g) k := by
  induction s with
  | zero =>
    intro g hg k hk
    obtain rfl : k = 0 := by simpa using hk
    have hload := loadReversed_getD idealNumerics m x g hg
    simpa [dft, decimated, idealStages, W_one, elemC] using congrArg toComplex hload
  | succ s ih =>
    intro g hg k hk
    have ih := ih (by omega)
    have hpow : 2^(m - s) = 2 * 2^(m - (s + 1)) := by rw [← Nat.pow_succ']; congr 1; omega
    have hspan : 2^(s + 1) = 2 * 2^s := Nat.pow_succ'
    have hgroup : (g + 1) * 2^(s + 1) ≤ 2^m := by
      calc (g + 1) * 2^(s + 1)
        _ ≤ 2^(m - (s + 1)) * 2^(s + 1) := Nat.mul_le_mul_right _ hg
        _ = 2^m := by rw [← Nat.pow_add, Nat.sub_add_cancel hs]
    have hlow : ∀ i, g * 2^(s + 1) + i = 2 * g * 2^s + i := fun i => by rw [hspan]; ring
    have hhigh : ∀ i, g * 2^(s + 1) + i + 2^s = (2 * g + 1) * 2^s + i := fun i => by rw [hspan]; ring
    have hlen := idealStages_length sgn (show s ≤ m by omega) x
    rw [idealStages_succ]
    rcases Nat.lt_or_ge k (2^s) with hk' | hk'
    · rw [elemC_stagePass_lower hs hlen hk' hgroup, hhigh, hlow, ih _ (by omega) k hk', ih _ (by omega) k hk',
        decimated_even x hs, decimated_odd x hs, hspan, dft_two_mul]
    · obtain ⟨i, rfl⟩ := Nat.exists_eq_add_of_le' hk'
      have hi : i < 2^s := by omega
      rw [← Nat.add_assoc, elemC_stagePass_upper hs hlen hi hgroup, hhigh, hlow, ih _ (by omega) i hi, ih _ (by omega) i hi,
        decimated_even x hs, decimated_odd x hs, hspan, dft_two_mul_add_half _ _ (Nat.two_pow_pos s) hsgn]

/-- After all stages the buffer holds the transform. -/
theorem elemC_stages {k : Nat} (hk : k < 2^m) :
    elemC (stages idealNumerics sgn m (loadReversed idealNumerics m x)) k = dft sgn (2^m) (elemC x) k := by
  have hgroup := elemC_idealStages hsgn x le_rfl 0 (by simp) k hk
  have hinput : decimated m x m 0 = elemC x := funext fun j => by simp [decimated, rev]
  rwa [hinput, Nat.zero_mul, Nat.zero_add] at hgroup

end

/-- The forward engine computes the discrete Fourier transform (`42_fft.md` R138). -/
theorem elemC_forward {m : Nat} (x : List (Cplx ℝ)) {k : Nat} (hk : k < 2^m) :
    elemC (forward idealNumerics m x) k = dft 1 (2^m) (elemC x) k :=
  elemC_stages (.inl rfl) x hk

/-! ### The three FFT commands as one (`42_fft.md` R131) -/

/-- An FFT command is `FFT` with its type tag. -/
theorem eq_fftOf {i : Instr} {ty : ElemTy} {m : Nat}
    (h : (i = .fftB m ∧ ty = .byte) ∨ (i = .fftI m ∧ ty = .int) ∨ (i = .fftC m ∧ ty = .complex)) : i = fftOf ty m := by
  rcases h with ⟨rfl, rfl⟩ | ⟨rfl, rfl⟩ | ⟨rfl, rfl⟩ <;> rfl

theorem fftOf_ne_halt (ty : ElemTy) (m : Nat) : fftOf ty m ≠ .halt := by cases ty <;> nofun

theorem writesOf_fftOf (T : Tier) (ty : ElemTy) (m : Nat) (d : Desc) (read : Nat → T.C) (n : Nat) :
    writesOf T (fftOf ty m) d read n = fftWrites T ty m d read n := by cases ty <;> rfl

theorem faultOf_fftOf (ty : ElemTy) {m : Nat} {s : State} (h : TransformRuns m s) : faultOf (fftOf ty m) s.par s.d = none :=
  faultOf_fft ty m s.par s.d h.order h.size h.src h.dst

theorem descAfter_fftOf (ty : ElemTy) (m : Nat) (d : Desc) : descAfter (fftOf ty m) d = d := by cases ty <;> rfl

/-! ### A command on the machine of tier IDEAL -/

/-- The cells after a command of tier IDEAL that passes its checks are those of its writes. -/
theorem idealExec_cells {i : Instr} {s : IdealState} (hf : faultOf i s.par s.d = none) (hi : i ≠ .halt) :
    ∃ t, idealExec i s = .next t ∧ ∀ a, t.cell a = (s.writeCells (writesOf idealTier i s.d s.cell 0)).cell a := by
  refine ⟨idealEffect i s, by rw [idealExec, hf], fun a => ?_⟩
  rw [idealEffect, if_neg hi]
  rfl

/-- After a complex vector is written, an element whose address is not written again holds its value. -/
theorem idealCell_writeCells (s : IdealState) (n : Nat) (addr : Nat → Nat) (zs : List (Cplx ℝ)) {k : Nat}
    (hk : k < zs.length) (hlast : lastWrite addr zs.length k) :
    (s.writeCells (cplxWrites idealTier n addr zs)).cell (addr k) = .complex zs[k] := by
  have hlen := cplxWrites_length idealTier n addr zs
  have hget := get?_writeAll_last s.dm (cplxWrites idealTier n addr zs) k (by omega) fun j hkj hj => by
    rw [cplxWrites_getElem, cplxWrites_getElem]
    exact hlast j hkj (by omega)
  rw [cplxWrites_getElem] at hget
  simp only [IdealState.cell, IdealState.writeCells, hget]

theorem elemC_paddedInput (ty : ElemTy) (m : Nat) (s : IdealState) {j : Nat} (hj : j < 2^m) :
    elemC (paddedInput idealTier ty m s.d s.cell) j =
      if j < s.d.len.toNat then toComplex (idealElem ty (s.cell (s.d.srcElem j))) else 0 := by
  have hzero : toComplex idealNumerics.czero = 0 := by apply Complex.ext <;> simp [toComplex, Numerics.czero]
  rw [elemC, paddedInput, List.getD_eq_getElem _ _ (by simpa using hj), List.getElem_map, List.getElem_range]
  split_ifs
  · rfl
  · exact hzero

/-- `FFT` in tier IDEAL leaves the discrete Fourier transform of the padded sequence. -/
theorem idealExec_fftOf (ty : ElemTy) {m : Nat} {s : IdealState} (hruns : TransformRuns m s.control)
    (hdstr : s.d.dstr ≠ 0 ∨ m = 0) :
    ∃ t, idealExec (fftOf ty m) s = .next t ∧ ∀ k < 2^m, toComplex (idealComplex (t.cell (s.d.dstElem k))) =
      dft 1 (2^m) (elemC (paddedInput idealTier ty m s.d s.cell)) k := by
  obtain ⟨t, ht, hcell⟩ := idealExec_cells (s := s) (faultOf_fftOf ty hruns) (fftOf_ne_halt ty m)
  refine ⟨t, ht, fun k hk => ?_⟩
  have hlen := forward_length idealNumerics m (paddedInput idealTier ty m s.d s.cell)
  rw [hcell, writesOf_fftOf, fftWrites, idealCell_writeCells s _ _ _ (by rwa [hlen])
    (by rw [hlen]; exact lastWrite_dstElem hdstr), ← elemC_forward _ hk, elemC,
    List.getD_eq_getElem _ _ (by rwa [hlen])]
  rfl

/-! ### What FFT leaves (`42_fft.md` R131, R132, R137) -/

theorem f64_czero : f64Numerics.czero = { re := 0, im := 0 } := congrArg₂ Cplx.mk ofInt_zero ofInt_zero

theorem paddedInput_eq (ty : ElemTy) (m : Nat) (s : State) :
    paddedInput f64Tier ty m s.d s.cell = (List.range (2^m)).map (inputElem ty s) := by
  refine List.map_congr_left fun j _ => ?_
  rw [inputElem, f64_czero]
  rfl

/-- The cells after a command that passes its checks are those of its writes. -/
theorem completed_cell (i : Instr) (s : State) (a : Nat) :
    (completed i s).cell a = (s.writeCells (writesOf f64Tier i s.d s.cell s.draws)).cell a := rfl

theorem completed_fftOf_holds (ty : ElemTy) {m j : Nat} (s : State) (hj : j < 2^m) (hlast : lastWrite s.d.dstElem (2^m) j) :
    holdsCplx ((completed (fftOf ty m) s).cell (s.d.dstElem j))
      ((forward f64Numerics m ((List.range (2^m)).map (inputElem ty s))).getD j f64Numerics.czero) := by
  have hlen := forward_length f64Numerics m ((List.range (2^m)).map (inputElem ty s))
  rw [completed_cell, writesOf_fftOf, fftWrites, paddedInput_eq, List.getD_eq_getElem _ _ (by rwa [hlen])]
  exact holdsCplx_writeCells s _ _ _ (by rwa [hlen]) (by rwa [hlen])

/-! ### Binary64 zeros in the network (`40_butterfly.md` R91, R102) -/

section
variable {x y z : F64}

theorem mag_ofUnits (sgn : Bool) (num den : Nat) : F64.mag (F64.ofUnits sgn num den) = F64.roundMag num den :=
  mag_ofMag sgn ((roundMag_le num den).trans_lt infMag_lt)

theorem sign_ofUnits (sgn : Bool) (num den : Nat) : F64.sign (F64.ofUnits sgn num den) = sgn :=
  sign_ofMag sgn ((roundMag_le num den).trans_lt infMag_lt)

/-- A finite value is its own rounding. -/
theorem roundMag_magUnits {m : Nat} (hm : m ≤ F64.infMag) : F64.roundMag (F64.magUnits m) 1 = m := by
  have hnear := (nearestMag_nearest one_pos (F64.magUnits m) m).1
  rw [Nat.mul_one, Nat.mul_one, sub_self, abs_zero, abs_nonpos_iff, sub_eq_zero, Nat.cast_inj] at hnear
  rw [roundMag_eq_min, magUnits_strictMono.injective hnear, min_eq_left hm]

theorem units_of_mag_zero (hz : F64.mag z = 0) : F64.units z = 0 := by simp [F64.units, hz, F64.magUnits]

/-- A zero of either sign leaves a finite value without a sign as it is, `+0` included. -/
theorem sum_zero_right (op : ArithOp) (hx : F64.isFinite x = true) (hsign : F64.sign x = false) (hz : F64.mag z = 0) :
    F64.sum op x z = x := by
  have hunits : F64.units x = F64.magUnits (F64.mag x) := by simp [F64.units, hsign]
  rw [sum_finite op hx (isFinite_of_mag_eq_zero hz), units_of_mag_zero hz, add_zero, hunits, hsign]
  have hmag : F64.ofMag false (F64.mag x) = x := by rw [← hsign, ofMag_sign_mag]
  split_ifs with h0
  · have : F64.mag x = 0 := magUnits_strictMono.injective (Nat.cast_eq_zero.1 h0)
    rw [← hmag, this, Bool.false_and]
  · have hle : F64.mag x ≤ F64.infMag := by
      simp only [F64.isFinite, decide_eq_true_eq] at hx
      omega
    rwa [Int.natAbs_natCast, F64.ofUnits, roundMag_magUnits hle, decide_eq_false (Int.natCast_nonneg _).not_gt]

theorem mag_sum_zeros (op : ArithOp) (hy : F64.mag y = 0) (hz : F64.mag z = 0) : F64.mag (F64.sum op y z) = 0 := by
  rw [sum_finite op (isFinite_of_mag_eq_zero hy) (isFinite_of_mag_eq_zero hz), units_of_mag_zero hy, units_of_mag_zero hz,
    if_pos (Int.add_zero 0), mag_ofMag _ (by decide)]

theorem mag_mul_zero (hx : F64.isFinite x = true) : F64.mag (F64.mul x 0) = 0 := by
  rw [(mul_zero_factor (z := 0) (by decide) hx).2, mag_ofMag _ (by decide)]

end

/-- Both parts are finite. -/
def FiniteParts (z : Cplx F64) : Prop := F64.isFinite z.re = true ∧ F64.isFinite z.im = true

/-- Both parts are finite and neither has a sign. -/
def PlainParts (z : Cplx F64) : Prop := FiniteParts z ∧ F64.sign z.re = false ∧ F64.sign z.im = false

/-- With a zero second operand a butterfly copies its first (R102 (c)), also in the signs of the zeros. -/
theorem bfly_czero {a w : Cplx F64} (ha : PlainParts a) (hw : FiniteParts w) :
    f64Numerics.bfly a f64Numerics.czero w = (a, a) := by
  obtain ⟨⟨hre, him⟩, hsre, hsim⟩ := ha
  have htre : F64.mag (f64Numerics.cmul w f64Numerics.czero).re = 0 := by
    rw [f64_czero]
    exact mag_sum_zeros _ (mag_mul_zero hw.1) ((mag_neg _).trans (mag_mul_zero hw.2))
  have htim : F64.mag (f64Numerics.cmul w f64Numerics.czero).im = 0 := by
    rw [f64_czero]
    exact mag_sum_zeros _ (mag_mul_zero hw.1) (mag_mul_zero hw.2)
  have hadd : f64Numerics.cadd a (f64Numerics.cmul w f64Numerics.czero) = a := by
    simp only [Numerics.cadd, F64.add, sum_zero_right _ hre hsre htre, sum_zero_right _ him hsim htim]
  have hsub : f64Numerics.csub a (f64Numerics.cmul w f64Numerics.czero) = a := by
    simp only [Numerics.csub, F64.sub, sum_zero_right _ hre hsre ((mag_neg _).trans htre),
      sum_zero_right _ him hsim ((mag_neg _).trans htim)]
  rw [Numerics.bfly, hadd, hsub]

theorem isFinite_toF64 (sgn : Bool) {v : Nat} (hv : v ≤ Twiddle.one) : F64.isFinite (Twiddle.toF64 sgn v) = true := by
  have hpow : 2^1074 < (2^54 - 1) * 2^2044 := two_pow_lt_mul (by omega) (by omega)
  have hsmall := Nat.mul_lt_mul_of_le_of_lt hv hpow twiddleOne_pos
  have hne := mt (roundMag_eq_infMag twiddleOne_pos (v * 2^1074)).1 (by omega)
  have hle := roundMag_le (v * 2^1074) Twiddle.one
  rw [F64.isFinite, mag_toF64, decide_eq_true_eq]
  omega

theorem finiteParts_twrom (e : Nat) (k : Int) : FiniteParts (Twiddle.twrom e k) := by
  obtain ⟨q, f, hsplit, hq, hf⟩ := exists_split e k
  obtain ⟨-, -, hcos, hsin⟩ := isCosSin_quadrant hf.le
  rw [twrom_of_split hsplit hf]
  interval_cases q
  · exact ⟨isFinite_toF64 _ hcos, isFinite_toF64 _ hsin⟩
  · exact ⟨isFinite_toF64 _ hsin, isFinite_toF64 _ hcos⟩
  · exact ⟨isFinite_toF64 _ hcos, isFinite_toF64 _ hsin⟩
  · exact ⟨isFinite_toF64 _ hsin, isFinite_toF64 _ hcos⟩

theorem plainParts_czero : PlainParts f64Numerics.czero := by
  rw [f64_czero]
  exact ⟨⟨by decide, by decide⟩, by decide, by decide⟩

/-! ### A single element (`42_fft.md` R139 (a), R140 (b)) -/

/-- The buffer holds `a` in its first `n` places and zeros from there on. -/
def Filled (n : Nat) (a : Cplx F64) (wb : List (Cplx F64)) : Prop :=
  ∀ j, wb.getD j f64Numerics.czero = if j < n then a else f64Numerics.czero

section
variable {a : Cplx F64} (ha : PlainParts a) (sgn : Int) {m : Nat} {wb : List (Cplx F64)} (hlen : wb.length = 2^m)
include ha hlen

/-- A stage doubles the filled part: every butterfly has a zero second operand, and so copies its first. -/
theorem filled_stagePass {s : Nat} (hs : s < m) (hfill : Filled (2^s) a wb) :
    Filled (2^(s + 1)) a (stagePass f64Numerics sgn m s wb) := by
  intro j
  have hspan : 2^(s + 1) = 2 * 2^s := Nat.pow_succ'
  have hcopy : ∀ p q k, 2^s ≤ q → f64Numerics.bfly (wb.getD p f64Numerics.czero) (wb.getD q f64Numerics.czero)
      (Twiddle.twrom (s + 1) k) = (wb.getD p f64Numerics.czero, wb.getD p f64Numerics.czero) := fun p q k hq => by
    have hplain : PlainParts (wb.getD p f64Numerics.czero) := by
      rw [hfill p]
      split_ifs
      · exact ha
      · exact plainParts_czero
    rw [hfill q, if_neg hq.not_gt, bfly_czero hplain (finiteParts_twrom _ _)]
  rcases Nat.lt_or_ge j (2^m) with hj | hj
  · have hle := Nat.mod_le j (2^(s + 1))
    have hself : j < 2^(s + 1) → j % 2^(s + 1) = j := Nat.mod_eq_of_lt
    rw [stagePass_getD f64Numerics sgn m s hs wb hlen j hj]
    rcases Nat.lt_or_ge (j % 2^(s + 1)) (2^s) with hlow | hhigh
    · have hfilled : j < 2^s ↔ j < 2^(s + 1) := by omega
      rw [if_pos hlow, hcopy j (j + 2^s) _ (by omega), hfill j]
      simp only [hfilled]
    · have hfilled : j - 2^s < 2^s ↔ j < 2^(s + 1) := by omega
      rw [if_neg hhigh.not_gt, hcopy (j - 2^s) j _ (by omega), hfill (j - 2^s)]
      simp only [hfilled]
  · have hle : 2^(s + 1) ≤ 2^m := Nat.pow_le_pow_right Nat.two_pos hs
    rw [List.getD_eq_default _ _ (by rwa [stagePass_length f64Numerics sgn m s wb hlen]), if_neg (by omega)]

theorem filled_stages (hfill : Filled 1 a wb) : Filled (2^m) a (stages f64Numerics sgn m wb) := by
  suffices h : ∀ s ≤ m, Filled (2^s) a ((List.range s).foldl (fun wb j => stagePass f64Numerics sgn m j wb) wb) from
    h m le_rfl
  intro s hs
  induction s with
  | zero => exact hfill
  | succ s ih =>
    rw [List.range_succ, List.foldl_append]
    exact filled_stagePass ha sgn (stageSteps_length f64Numerics sgn m wb hlen s (by omega)) hs (ih (by omega))

end

/-- An input with one element, the first, loads to a buffer with one element, the first. -/
theorem filled_loadReversed {a : Cplx F64} {m : Nat} {x : List (Cplx F64)} (hfill : Filled 1 a x) :
    Filled 1 a (loadReversed f64Numerics m x) := by
  intro j
  rcases Nat.lt_or_ge j (2^m) with hj | hj
  · have hrev : rev m j < 1 ↔ j < 1 := by
      rw [Nat.lt_one_iff, Nat.lt_one_iff]
      refine ⟨fun h => ?_, fun h => by rw [h, rev_zero_right]⟩
      rw [← rev_rev hj, h, rev_zero_right]
    simp only [loadReversed_getD f64Numerics m x j hj, hfill (rev m j), hrev]
  · have := Nat.two_pow_pos m
    rw [List.getD_eq_default _ _ (by rwa [loadReversed_length]), if_neg (by omega)]


/-- A transform of a single element fills the buffer with it, in either direction. -/
theorem stages_of_filled {a : Cplx F64} (ha : PlainParts a) (sgn : Int) {m : Nat} {x : List (Cplx F64)} (hfill : Filled 1 a x) :
    ∀ z ∈ stages f64Numerics sgn m (loadReversed f64Numerics m x), z = a := by
  have hload := loadReversed_length f64Numerics m x
  have hlen : (stages f64Numerics sgn m (loadReversed f64Numerics m x)).length = 2^m :=
    stageSteps_length f64Numerics sgn m _ hload m le_rfl
  intro z hz
  obtain ⟨j, hj, rfl⟩ := List.getElem_of_mem hz
  rw [← List.getD_eq_getElem _ f64Numerics.czero hj, filled_stages ha sgn hload (filled_loadReversed hfill) j,
    if_pos (by rwa [hlen] at hj)]

/-- `+0` divided by a positive value, an infinity included, is `+0`. -/
theorem div_zero_left {y : F64} (hnan : F64.isNaN y = false) (hsign : F64.sign y = false) (hmag : F64.mag y ≠ 0) :
    F64.div 0 y = 0 := by
  have hfin : F64.isFinite 0 = true := by decide
  rcases kind_cases y with h | hinf | hy
  · exact absurd h (by simp [hnan])
  · simp only [F64.div, isNaN_of_isFinite hfin, isInf_of_isFinite hfin, hnan, hinf, hsign, Bool.or_false, Bool.false_eq_true,
      if_false, if_true]
    decide
  · have hunits : 0 < F64.magUnits (F64.mag y) := magUnits_strictMono (Nat.pos_of_ne_zero hmag)
    rw [div_finite hfin hy hmag, hsign, show F64.magUnits (F64.mag 0) = 0 by decide, Nat.zero_mul, F64.ofUnits,
      roundMag_zero hunits]
    decide

/-- Division by a power of two keeps a zero, whatever the order. -/
theorem cdivN_czero (m : Nat) : f64Numerics.cdivN f64Numerics.czero m = f64Numerics.czero := by
  have hpos : (0 : Int) < 2^m := by positivity
  have hsign : F64.sign (F64.ofInt (2^m)) = false := by rw [F64.ofInt, sign_ofUnits, decide_eq_false hpos.not_gt]
  have hnan : F64.isNaN (F64.ofInt (2^m)) = false := by
    rw [F64.ofInt, F64.isNaN, mag_ofUnits]
    exact decide_eq_false (roundMag_le _ _).not_gt
  have hmag : F64.mag (F64.ofInt (2^m)) ≠ 0 := by
    have hnum : 2^1 < ((2 : Int)^m).natAbs * 2^1074 := two_pow_lt_mul (by omega) (Int.natAbs_pos.2 hpos.ne')
    rw [F64.ofInt, mag_ofUnits]
    exact roundMag_ne_zero one_pos (by omega)
  rw [f64_czero]
  simp only [Numerics.cdivN, div_zero_left hnan hsign hmag]

/-! ### A vector of equal values -/

/-- An address that is written reads as the value, when all writes have the same value. -/
theorem get?_writeAll_const {α : Type} (m : Memory α) {ws : List (Nat × α)} {v : α} (hv : ∀ p ∈ ws, p.2 = v) {a : Nat}
    (ha : ∃ p ∈ ws, p.1 = a) : Memory.get? (Memory.writeAll m ws) a = some v := by
  induction ws generalizing m with
  | nil => simp at ha
  | cons p ws ih =>
    by_cases hlater : ∃ q ∈ ws, q.1 = a
    · exact ih _ (fun q hq => hv q (List.mem_cons_of_mem _ hq)) hlater
    · have hp : p.1 = a := by
        obtain ⟨q, hq, rfl⟩ := ha
        rcases List.mem_cons.1 hq with rfl | hq
        · rfl
        · exact absurd ⟨q, hq, rfl⟩ hlater
      rw [writeAll_cons, get?_writeAll_other _ _ _ fun q hq hqa => hlater ⟨q, hq, hqa⟩, ← hp, get?_set_same,
        hv p List.mem_cons_self]

theorem cellOf_of_finiteParts (n : Nat) {z : Cplx F64} (hz : FiniteParts z) : cellOf n z = cplxCell z := by
  rw [cellOf, halfBits_of_not_nan _ _ (isNaN_of_isFinite hz.1), halfBits_of_not_nan _ _ (isNaN_of_isFinite hz.2)]
  rfl

theorem cell_writeCells_const (s : State) (n : Nat) (addr : Nat → Nat) {zs : List (Cplx F64)} {a : Cplx F64}
    (ha : FiniteParts a) (hzs : ∀ z ∈ zs, z = a) {j : Nat} (hj : j < zs.length) :
    (s.writeCells (cplxWrites f64Tier n addr zs)).cell (addr j) = cplxCell a := by
  have hlen : j < (cplxWrites f64Tier n addr zs).length := by rwa [cplxWrites_length]
  have hget := get?_writeAll_const s.dm (ws := cplxWrites f64Tier n addr zs) (v := cplxCell a) (fun p hp => by
      obtain ⟨k, hk, rfl⟩ := List.getElem_of_mem hp
      rw [cplxWrites_getElem, hzs _ (List.getElem_mem _)]
      exact cellOf_of_finiteParts _ ha)
    ⟨_, List.getElem_mem hlen, by rw [cplxWrites_getElem]⟩
  rw [State.cell, writeCells_dm, hget]


/-- What a transform leaves where all its outputs are one value. -/
theorem completed_cell_const {i : Instr} {m : Nat} {s : State} {zs : List (Cplx F64)} {a : Cplx F64} (ha : FiniteParts a)
    (hwrites : writesOf f64Tier i s.d s.cell s.draws = cplxWrites f64Tier s.draws s.d.dstElem zs) (hlen : zs.length = 2^m)
    (hzs : ∀ z ∈ zs, z = a) {j : Nat} (hj : j < 2^m) : (completed i s).cell (s.d.dstElem j) = cplxCell a := by
  rw [completed_cell, hwrites]
  exact cell_writeCells_const s _ _ ha hzs (by rwa [hlen])

/-! ### An impulse and an empty input -/

theorem getD_paddedInput (ty : ElemTy) (m : Nat) (s : State) (j : Nat) :
    (paddedInput f64Tier ty m s.d s.cell).getD j f64Numerics.czero =
      if j < 2^m ∧ j < s.d.len.toNat then elemOf ty (s.cell (s.d.srcElem j)) else f64Numerics.czero := by
  rw [paddedInput, List.getD, List.getElem?_map]
  rcases Nat.lt_or_ge j (2^m) with hj | hj
  · simp [hj]
  · simp [hj.not_gt]

/-- The spectrum's value of an impulse: `(1, +0)`. -/
def unitValue : Cplx F64 := { re := F64.ofInt 1, im := F64.ofInt 0 }

theorem plainParts_unitValue : PlainParts unitValue := by
  refine ⟨⟨?_, ?_⟩, ?_, ?_⟩ <;> decide +kernel

theorem elemOf_byte_of_byteOf {c : Cell} {v : Int} (h : byteOf c = v) :
    elemOf .byte c = { re := F64.ofInt v, im := F64.ofInt 0 } := by rw [elemOf, h]

theorem filled_impulse {m : Nat} {s : State} (hlen : 1 ≤ s.d.len.toNat) (hfirst : byteOf (s.cell (s.d.srcElem 0)) = 1)
    (hrest : ∀ j, 1 ≤ j → j < s.d.len.toNat → byteOf (s.cell (s.d.srcElem j)) = 0) :
    Filled 1 unitValue (paddedInput f64Tier .byte m s.d s.cell) := by
  intro j
  rw [getD_paddedInput]
  have hpos := Nat.two_pow_pos m
  rcases Nat.eq_zero_or_pos j with rfl | hj
  · rw [if_pos ⟨hpos, hlen⟩, if_pos one_pos]
    exact elemOf_byte_of_byteOf hfirst
  · rw [if_neg (show ¬ j < 1 by omega)]
    split_ifs with h
    · exact elemOf_byte_of_byteOf (hrest j hj h.2)
    · rfl

theorem filled_empty (ty : ElemTy) (m : Nat) {s : State} (hlen : s.d.len = 0) :
    Filled 1 f64Numerics.czero (paddedInput f64Tier ty m s.d s.cell) := by
  intro j
  rw [getD_paddedInput, hlen, if_neg (fun h => Nat.not_lt_zero _ h.2), ite_self]


theorem transformRuns_of_empty {m : Nat} {s : State} (hm : m ≤ s.par.mmax) (hlen : s.d.len = 0)
    (hdst : ∀ j < 2^m, s.d.dst.toNat + j * s.d.dstr.toNat < s.par.dmCells) : TransformRuns m s where
  order := hm
  size := by simp [hlen]
  src := by simp [hlen]
  dst := hdst

theorem inverse_of_filled_czero {m : Nat} {x : List (Cplx F64)} (hfill : Filled 1 f64Numerics.czero x) :
    ∀ z ∈ inverse f64Numerics m x, z = f64Numerics.czero := by
  intro z hz
  obtain ⟨y, hy, rfl⟩ := List.mem_map.1 hz
  rw [stages_of_filled plainParts_czero (-1) hfill y hy, cdivN_czero]

/-! ### The statements -/

/-- Settles O49: the index pairs are the whole buffer, so that different butterflies touch different places. -/
theorem butterfliesOfAStageCommute : Obligations.ButterfliesOfAStageCommute := by
  intro bigM m hm pairs p
  exact ⟨indexPairs_perm hm, fun num sgn wb _ order horder => foldl_runButterfly_perm hm horder wb⟩

/-- Settles O50: the renaming `WB[j] = B[rev(M, j)]` holds after the load and is kept by every butterfly. -/
theorem sourceWordingIsTheSameTransform : Obligations.SourceWordingIsTheSameTransform := fun num _ _ hx =>
  ⟨fun _ hk => (standsFor_stages num hx hk).2, (standsFor_stages num hx le_rfl).2⟩

/-- Settles O51, by the invariant `elemC_idealStages`; the command writes the network's output on the padded input. -/
theorem forwardEngineIsTheDft : Obligations.ForwardEngineIsTheDft := by
  intro m x _
  refine ⟨fun s hs g hg k hk => ?_, fun k hk => ?_, fun s i ty hi hruns hdstr => ?_⟩
  · rw [← dft_forward]
    exact elemC_idealStages (.inl rfl) x hs g hg k hk
  · rw [elemC_forward x hk, dft_forward]
  · obtain rfl := eq_fftOf hi
    obtain ⟨t, ht, hcell⟩ := idealExec_fftOf ty hruns hdstr
    refine ⟨t, ht, fun k hk => ((hcell k hk).trans (dft_forward _ _ _)).trans (Finset.sum_congr rfl fun n hn => ?_)⟩
    rw [elemC_paddedInput ty m s (Finset.mem_range.1 hn)]
    rfl

/-- Settles O19: the checks pass, and the command writes the forward transform of the padded input. -/
theorem fftWritesTheSpectrum : Obligations.FftWritesTheSpectrum := by
  intro m s hruns i ty hi
  obtain rfl := eq_fftOf hi
  exact ⟨_, exec_completed (faultOf_fftOf ty hruns) (fftOf_ne_halt ty m), completes_completed (descAfter_fftOf ty m s.d),
    fun j hj hlast => completed_fftOf_holds ty s hj hlast⟩

/-- Settles O54: the impulse fills the buffer stage by stage, and no stored value is a NaN. -/
theorem impulseSpectrumBitForBit : Obligations.ImpulseSpectrumBitForBit := by
  intro m s hruns hlen hfirst hrest
  have hone : cplxCell unitValue = 0x00000000000000003ff0000000000000#128 := by decide +kernel
  have hfill := filled_impulse (m := m) hlen (by simpa [Desc.srcElem] using hfirst) hrest
  rw [← hone]
  exact ⟨_, exec_completed (faultOf_fftOf .byte hruns) nofun, fun j hj =>
    completed_cell_const plainParts_unitValue.1 rfl (forward_length _ _ _) (stages_of_filled plainParts_unitValue 1 hfill) hj⟩

/-- Settles O55: an empty input keeps the buffer of zeros through all stages and through the division. -/
theorem emptyInputGivesZeros : Obligations.EmptyInputGivesZeros := by
  intro m s hm hlen hdst i hi
  have hruns := transformRuns_of_empty hm hlen hdst
  have hzero : cplxCell f64Numerics.czero = 0 := by rw [f64_czero]; decide
  have hfft : ∀ ty, ∃ t, exec (fftOf ty m) s = .next t ∧ ∀ j < 2^m, t.cell (s.d.dstElem j) = 0 := fun ty => by
    rw [← hzero]
    exact ⟨_, exec_completed (faultOf_fftOf ty hruns) (fftOf_ne_halt ty m), fun j hj => completed_cell_const
      plainParts_czero.1 (writesOf_fftOf f64Tier ty m _ _ _) (forward_length _ _ _)
      (stages_of_filled plainParts_czero 1 (filled_empty ty m hlen)) hj⟩
  have hifft : ∃ t, exec (.ifft m) s = .next t ∧ ∀ j < 2^m, t.cell (s.d.dstElem j) = 0 := by
    rw [← hzero]
    exact ⟨_, exec_completed (faultOf_ifft m s.par s.d hruns.order hruns.size hruns.src hruns.dst) nofun, fun j hj =>
      completed_cell_const plainParts_czero.1 rfl (inverse_length _ _ _) (inverse_of_filled_czero (filled_empty .complex m hlen))
        hj⟩
  simp only [List.mem_cons, List.not_mem_nil, or_false] at hi
  rcases hi with rfl | rfl | rfl | rfl
  · exact hfft .byte
  · exact hfft .int
  · exact hfft .complex
  · exact hifft

end Sys2Proof.Proofs

/-! # The inverse engine: proofs of the statements about `43_ifft.md`

First the transform of either direction as a sum: it is linear, conjugation turns its direction, and the transform back gives
`n` times the input, since the powers of a root of unity other than 1 sum to zero. Then the inverse engine in exact
arithmetic, and what IFFT leaves in each tier. The statements are settled at the end, from these rules. -/

namespace Sys2Proof.Proofs

open Sys2Proof.Machine Sys2Proof.Laws

/-! ### The transform and its inverse (`43_ifft.md` R153, R154) -/

section
variable {sgn : Int} {n : Nat} (y : Nat → ℂ) (k : Nat)

theorem dft_inverse : dft (-1) n y k = ∑ j ∈ Finset.range n, y j * W n (-(k * j)) := by
  simp only [dft, neg_one_mul, mul_comm (k : Int)]

theorem dft_congr {y z : Nat → ℂ} (h : ∀ j < n, y j = z j) : dft sgn n y k = dft sgn n z k :=
  Finset.sum_congr rfl fun j hj => by rw [h j (Finset.mem_range.1 hj)]

theorem dft_div (c : ℂ) : dft sgn n (fun j => y j / c) k = dft sgn n y k / c := by
  rw [dft, dft, Finset.sum_div]
  exact Finset.sum_congr rfl fun j _ => div_mul_eq_mul_div _ _ _

/-- Conjugation before and after turns the direction of a transform. -/
theorem dft_neg : dft (-sgn) n y k = starRingEnd ℂ (dft sgn n (fun j => starRingEnd ℂ (y j)) k) := by
  rw [dft, dft, map_sum]
  refine Finset.sum_congr rfl fun j _ => ?_
  rw [map_mul, Complex.conj_conj, neg_mul, W_neg]

end

section
variable {n : Nat}

theorem W_pow (d : Int) (j : Nat) : W n d ^ j = W n (j * d) := by
  induction j with
  | zero => simp [W_zero_right]
  | succ j ih =>
    rw [pow_succ, ih, W_mul_W]
    congr 1
    push_cast
    ring

variable (hn : 0 < n)
include hn

/-- Only at a whole number of turns is the twiddle factor 1. -/
theorem dvd_of_W_eq_one {d : Int} (h : W n d = 1) : (n : Int) ∣ d := by
  obtain ⟨q, hq⟩ := Complex.exp_eq_one_iff.1 h
  have hn0 : (n : ℂ) ≠ 0 := by exact_mod_cast hn.ne'
  have hturn : -(d / n : ℂ) = q := mul_right_cancel₀ Complex.two_pi_I_ne_zero (by rw [← hq]; ring)
  have hd : (d : ℂ) = n * (-q : Int) := by
    rw [Int.cast_neg, ← hturn, neg_neg, mul_div_cancel₀ _ hn0]
  exact ⟨-q, by exact_mod_cast hd⟩

/-- The powers of a twiddle factor other than 1 sum to zero over a period. -/
theorem sum_W_eq_zero {d : Int} (hd : ¬ (n : Int) ∣ d) : ∑ j ∈ Finset.range n, W n (j * d) = 0 := by
  have hne : W n d - 1 ≠ 0 := sub_ne_zero.2 fun h => hd (dvd_of_W_eq_one hn h)
  have hperiod : W n d ^ n = 1 := by rw [W_pow, mul_comm, W_mul_self hn]
  have hgeom := mul_geom_sum (W n d) n
  rw [hperiod, sub_self] at hgeom
  simpa only [W_pow] using (mul_eq_zero.1 hgeom).resolve_left hne

/-- The twiddle factors of two indices are orthogonal, in either direction. -/
theorem sum_W_sub {sgn : Int} (hsgn : sgn = 1 ∨ sgn = -1) {i k : Nat} (hi : i < n) (hk : k < n) :
    ∑ j ∈ Finset.range n, W n (j * (sgn * (i - k))) = if i = k then (n : ℂ) else 0 := by
  split_ifs with hik
  · simp [hik, W_zero_right]
  · refine sum_W_eq_zero hn fun hdvd => hik ?_
    have hdvd' : (n : Int) ∣ i - k := by
      rcases hsgn with rfl | rfl
      · rwa [one_mul] at hdvd
      · rwa [neg_one_mul, dvd_neg] at hdvd
    have := Int.eq_zero_of_abs_lt_dvd hdvd' (by rw [abs_lt]; omega)
    omega

/-- The transform in the other direction gives the input back, `n` times (`43_ifft.md` R154). -/
theorem dft_neg_dft {sgn : Int} (hsgn : sgn = 1 ∨ sgn = -1) (y : Nat → ℂ) {k : Nat} (hk : k < n) :
    dft (-sgn) n (dft sgn n y) k = n * y k := by
  have hexp : ∀ i j : Nat, W n (sgn * (i * j)) * W n (-sgn * (j * k)) = W n (j * (sgn * (i - k))) := fun i j => by
    rw [W_mul_W]
    ring_nf
  calc dft (-sgn) n (dft sgn n y) k
    _ = ∑ j ∈ Finset.range n, ∑ i ∈ Finset.range n, y i * W n (j * (sgn * (i - k))) := by
        simp only [dft, Finset.sum_mul, mul_assoc, hexp]
    _ = ∑ i ∈ Finset.range n, y i * ∑ j ∈ Finset.range n, W n (j * (sgn * (i - k))) := by
        rw [Finset.sum_comm]
        simp only [Finset.mul_sum]
    _ = ∑ i ∈ Finset.range n, y i * if i = k then (n : ℂ) else 0 :=
        Finset.sum_congr rfl fun i hi => by rw [sum_W_sub hn hsgn (Finset.mem_range.1 hi) hk]
    _ = n * y k := by simp [hk, mul_comm]

end

/-! ### Lists of exact values as complex numbers -/

theorem toComplex_inj {z w : Cplx ℝ} (h : toComplex z = toComplex w) : z = w := by
  obtain ⟨hre, him⟩ := Complex.mk.inj h
  exact congrArg₂ Cplx.mk hre him

/-- A list is its elements, read as complex numbers. -/
theorem list_ext_elemC {xs ys : List (Cplx ℝ)} (hlen : xs.length = ys.length)
    (h : ∀ k < ys.length, elemC xs k = elemC ys k) : xs = ys := by
  refine List.ext_getElem hlen fun k hx hy => toComplex_inj ?_
  have := h k hy
  rwa [elemC, elemC, List.getD_eq_getElem _ _ hx, List.getD_eq_getElem _ _ hy] at this

/-- An operation on every element, one that keeps zero, as an operation on complex numbers. -/
theorem elemC_map {f : Cplx ℝ → Cplx ℝ} {F : ℂ → ℂ} (hf : ∀ z, toComplex (f z) = F (toComplex z))
    (hzero : f idealNumerics.czero = idealNumerics.czero) (xs : List (Cplx ℝ)) (k : Nat) :
    elemC (xs.map f) k = F (elemC xs k) := by
  have hget := List.getD_map xs idealNumerics.czero (n := k) f
  rw [hzero] at hget
  rw [elemC, hget, hf, elemC]

/-- The complex conjugate of an exact value. -/
def conjugate (z : Cplx ℝ) : Cplx ℝ := { re := z.re, im := -z.im }

theorem elemC_map_conjugate (xs : List (Cplx ℝ)) (k : Nat) : elemC (xs.map conjugate) k = starRingEnd ℂ (elemC xs k) :=
  elemC_map (F := starRingEnd ℂ) (fun _ => rfl) (by simp [conjugate, Numerics.czero]) xs k

theorem toComplex_cdivN (m : Nat) (z : Cplx ℝ) : toComplex (idealNumerics.cdivN z m) = toComplex z / (2^m : Nat) := by
  apply Complex.ext
  · rw [Complex.div_natCast_re]
    simp [toComplex, Numerics.cdivN]
  · rw [Complex.div_natCast_im]
    simp [toComplex, Numerics.cdivN]

/-! ### The inverse engine in exact arithmetic -/

/-- The inverse engine computes the inverse discrete Fourier transform (`43_ifft.md` R153). -/
theorem elemC_inverse {m : Nat} (x : List (Cplx ℝ)) {k : Nat} (hk : k < 2^m) :
    elemC (inverse idealNumerics m x) k = dft (-1) (2^m) (elemC x) k / (2^m : Nat) := by
  rw [← elemC_stages (.inr rfl) x hk]
  exact elemC_map (F := (· / (2^m : Nat))) (toComplex_cdivN m) (by simp [Numerics.cdivN, Numerics.czero]) _ k

theorem elemC_inverse_sum {m : Nat} (x : List (Cplx ℝ)) {n : Nat} (hn : n < 2^m) :
    elemC (inverse idealNumerics m x) n = 1 / 2^m * ∑ k ∈ Finset.range (2^m), elemC x k * W (2^m) (-(n * k)) := by
  rw [elemC_inverse x hn, dft_inverse, div_eq_inv_mul, one_div]
  push_cast
  rfl

/-- The inverse engine is the forward engine between conjugations, but for the division (`43_ifft.md` R153). -/
theorem elemC_inverse_conjugate {m : Nat} (x : List (Cplx ℝ)) {n : Nat} (hn : n < 2^m) :
    elemC (inverse idealNumerics m x) n = starRingEnd ℂ (elemC (forward idealNumerics m (x.map conjugate)) n) / 2^m := by
  rw [elemC_inverse x hn, elemC_forward _ hn, funext (elemC_map_conjugate x), dft_neg]
  push_cast
  rfl

section
variable {m : Nat} {x : List (Cplx ℝ)} (hx : x.length = 2^m)
include hx

theorem inverse_forward : inverse idealNumerics m (forward idealNumerics m x) = x := by
  refine list_ext_elemC (by rw [inverse_length, hx]) fun k hk => ?_
  rw [hx] at hk
  rw [elemC_inverse _ hk, dft_congr k fun j hj => elemC_forward x hj, dft_neg_dft (Nat.two_pow_pos m) (.inl rfl) _ hk,
    mul_div_cancel_left₀ _ (Nat.cast_ne_zero.2 (Nat.two_pow_pos m).ne')]

theorem forward_inverse : forward idealNumerics m (inverse idealNumerics m x) = x := by
  refine list_ext_elemC (by rw [forward_length, hx]) fun k hk => ?_
  rw [hx] at hk
  have hback := dft_neg_dft (Nat.two_pow_pos m) (.inr rfl) (elemC x) hk
  rw [neg_neg] at hback
  rw [elemC_forward _ hk, dft_congr k fun j hj => elemC_inverse x hj, dft_div, hback,
    mul_div_cancel_left₀ _ (Nat.cast_ne_zero.2 (Nat.two_pow_pos m).ne')]

end

/-! ### What IFFT leaves (`43_ifft.md` R151, R152) -/

theorem faultOf_ifft_of_runs {m : Nat} {s : State} (h : TransformRuns m s) : faultOf (.ifft m) s.par s.d = none :=
  faultOf_ifft m s.par s.d h.order h.size h.src h.dst

/-- A command that writes a complex vector leaves its elements at the destination elements, up to a NaN's free bits. -/
theorem completed_vector_holds {i : Instr} {s : State} {zs : List (Cplx F64)}
    (hwrites : writesOf f64Tier i s.d s.cell s.draws = cplxWrites f64Tier s.draws s.d.dstElem zs) {j : Nat}
    (hj : j < zs.length) (hlast : lastWrite s.d.dstElem zs.length j) :
    holdsCplx ((completed i s).cell (s.d.dstElem j)) (zs.getD j f64Numerics.czero) := by
  rw [completed_cell, hwrites, List.getD_eq_getElem _ _ hj]
  exact holdsCplx_writeCells s _ _ _ hj hlast

/-- In tier IDEAL, a command that writes a complex vector leaves its elements at the destination elements. -/
theorem idealExec_vector {i : Instr} {m : Nat} {s : IdealState} {zs : List (Cplx ℝ)} (hf : faultOf i s.par s.d = none)
    (hi : i ≠ .halt) (hwrites : writesOf idealTier i s.d s.cell 0 = cplxWrites idealTier 0 s.d.dstElem zs)
    (hlen : zs.length = 2^m) (hdstr : s.d.dstr ≠ 0 ∨ m = 0) :
    ∃ t, idealExec i s = .next t ∧ ∀ k < 2^m, toComplex (idealComplex (t.cell (s.d.dstElem k))) = elemC zs k := by
  obtain ⟨t, ht, hcell⟩ := idealExec_cells hf hi
  refine ⟨t, ht, fun k hk => ?_⟩
  rw [← hlen] at hk
  rw [hcell, hwrites, idealCell_writeCells s _ _ _ hk (hlen ▸ lastWrite_dstElem hdstr), elemC,
    List.getD_eq_getElem _ _ hk]
  rfl

/-! ### The statements -/

/-- Settles O52: both engines are the one network, whose direction the conjugation turns; the command writes the inverse
network's output on the padded input. -/
theorem inverseEngineIsTheInverseDft : Obligations.InverseEngineIsTheInverseDft := by
  refine ⟨fun m x _ n hn => ⟨elemC_inverse_sum x hn, elemC_inverse_conjugate x hn⟩, fun m s hruns hdstr => ?_⟩
  obtain ⟨t, ht, hcell⟩ := idealExec_vector (s := s) (faultOf_ifft_of_runs hruns) nofun rfl (inverse_length _ _ _) hdstr
  refine ⟨t, ht, fun n hn => ((hcell n hn).trans (elemC_inverse_sum _ hn)).trans
    (congrArg _ (Finset.sum_congr rfl fun k hk => ?_))⟩
  rw [elemC_paddedInput .complex m s (Finset.mem_range.1 hk)]
  rfl

/-- Settles O53: each engine is a transform, and the transform back gives `2^m` times the input. -/
theorem roundTripInExactArithmetic : Obligations.RoundTripInExactArithmetic := fun _ _ hx =>
  ⟨inverse_forward hx, forward_inverse hx⟩

/-- Settles O20: the checks pass, and the command writes the inverse transform of the padded complex input. -/
theorem ifftWritesTheSequence : Obligations.IfftWritesTheSequence := by
  intro m s hruns out
  have hlen : out.length = 2^m := inverse_length _ _ _
  have hwrites : writesOf f64Tier (.ifft m) s.d s.cell s.draws = cplxWrites f64Tier s.draws s.d.dstElem out :=
    congrArg (fun x => cplxWrites f64Tier s.draws s.d.dstElem (inverse f64Numerics m x)) (paddedInput_eq .complex m s)
  exact ⟨_, exec_completed (faultOf_ifft_of_runs hruns) nofun, completes_completed rfl, fun j hj hlast =>
    completed_vector_holds hwrites (hlen ▸ hj) (hlen ▸ hlast)⟩

end Sys2Proof.Proofs

/-! # The quadrant shifter: proofs of the statements about `44_qshift.md`

First the shift of an index by half the extent. Then a matrix written row by row, which is a vector in row-major order, and
what `QSHIFT` leaves. The statements are settled at the end, from these rules. -/

namespace Sys2Proof.Proofs

open Sys2Proof.Machine Sys2Proof.Laws

/-! ### The shift by half the extent (`44_qshift.md` R161, R162) -/

theorem shifted_lt (m i : Nat) : shifted (2^m) i < 2^m := Nat.mod_lt _ (Nat.two_pow_pos m)

/-- The shift is an involution: the two halves add up to the extent, and an extent of 1 has one index alone. -/
theorem shifted_shifted {m i : Nat} (hi : i < 2^m) : shifted (2^m) (shifted (2^m) i) = i := by
  rw [shifted, shifted, Nat.mod_add_mod, Nat.add_assoc]
  cases m with
  | zero => omega
  | succ m =>
    have hwhole : 2^(m + 1) / 2 + 2^(m + 1) / 2 = 2^(m + 1) := by omega
    rw [hwhole, Nat.add_mod_right, Nat.mod_eq_of_lt hi]

/-! ### A matrix written row by row (`20_memory.md` R53) -/

theorem rowMajor_index {n c : Nat} (r : Nat) (hc : c < n) : (r * n + c) / n = r ∧ (r * n + c) % n = c :=
  (Nat.div_mod_unique (Nat.zero_lt_of_lt hc)).2 ⟨by ring, hc⟩

theorem rowMajor_lt {n r c : Nat} (hr : r < n) (hc : c < n) : r * n + c < n * n :=
  calc r * n + c
    _ < (r + 1) * n := by rw [Nat.succ_mul]; omega
    _ ≤ n * n := Nat.mul_le_mul_right n hr

/-- Row by row is row-major order: entry `k` is in row `k / n` and column `k % n`. -/
theorem flatMap_rows {α : Type} (n : Nat) (entry : Nat → Nat → α) :
    ((List.range n).flatMap fun r => (List.range n).map fun c => entry r c) =
      (List.range (n * n)).map fun k => entry (k / n) (k % n) := by
  rw [← flatMap_groups n n, List.map_flatMap]
  refine List.flatMap_congr fun r _ => ?_
  rw [List.map_map]
  refine List.map_congr_left fun c hc => ?_
  obtain ⟨hrow, hcol⟩ := rowMajor_index r (List.mem_range.1 hc)
  rw [Function.comp_apply, hrow, hcol]

/-- An entry that comes later in row-major order lies in a later row, or in the same row and a later column. -/
theorem rowMajor_later {n r c j : Nat} (hc : c < n) (hj : r * n + c < j) : r < j / n ∨ (r = j / n ∧ c < j % n) := by
  have hrow : r ≤ j / n := by
    rw [← (rowMajor_index r hc).1]
    exact Nat.div_le_div_right hj.le
  rcases hrow.lt_or_eq with hlt | rfl
  · exact .inl hlt
  · have hsplit := Nat.div_add_mod' j n
    exact .inr ⟨rfl, by omega⟩

/-- After a matrix is written, an entry whose address is not written again holds its value. -/
theorem cell_writeCells_matrix (s : State) (addr : Nat → Nat → Nat) (value : Nat → Nat → Cell) {n r c : Nat} (hr : r < n)
    (hc : c < n) (hlast : lastEntry addr n r c) :
    (s.writeCells ((List.range n).flatMap fun r => (List.range n).map fun c => (addr r c, value r c))).cell (addr r c) =
      value r c := by
  obtain ⟨hrow, hcol⟩ := rowMajor_index r hc
  have hlastWrite : lastWrite (fun k => addr (k / n) (k % n)) (n * n) (r * n + c) := fun j hj hjn => by
    simp only [hrow, hcol]
    exact hlast _ (Nat.div_lt_of_lt_mul hjn) _ (Nat.mod_lt j (Nat.zero_lt_of_lt hc)) (rowMajor_later hc hj)
  have hcell := cell_writeCells_vector s _ (fun k => value (k / n) (k % n)) (rowMajor_lt hr hc) hlastWrite
  rw [hrow, hcol] at hcell
  rw [flatMap_rows n fun r c => (addr r c, value r c), hcell]

/-! ### QSHIFT (`44_qshift.md` R161) -/

theorem faultOf_qshift {m : Nat} {par : Params} {d : Desc} (hm : m ≤ par.mmax)
    (hsrc : ∀ r < 2^m, ∀ c < 2^m, d.srcAt r c < par.dmCells) (hdst : ∀ r < 2^m, ∀ c < 2^m, d.dstAt r c < par.dmCells) :
    faultOf (.qshift m) par d = none := by
  rw [← firstFault_checksOf, checksOf, (orderCheck_eq_none par m).2 hm, (srcMatValid_iff par d _).2 hsrc,
    (dstMatValid_iff par d _).2 hdst]
  rfl

theorem completed_qshift_cell {m r c : Nat} {s : State} (hr : r < 2^m) (hc : c < 2^m)
    (hlast : lastEntry s.d.dstAt (2^m) r c) :
    (completed (.qshift m) s).cell (s.d.dstAt r c) = s.cell (s.d.srcAt (shifted (2^m) r) (shifted (2^m) c)) :=
  cell_writeCells_matrix s s.d.dstAt (fun r c => s.cell (s.d.srcAt (shifted (2^m) r) (shifted (2^m) c))) hr hc hlast

/-! ### The statements -/

/-- Settles O21: the checks pass, and the command writes the matrix of shifted source entries. -/
theorem qshiftSwapsQuadrants : Obligations.QshiftSwapsQuadrants := fun _ _ hm hsrc hdst =>
  ⟨_, exec_completed (faultOf_qshift hm hsrc hdst) nofun, completes_completed rfl, rfl, fun _ hr _ hc hlast =>
    completed_qshift_cell hr hc hlast⟩

/-- Settles O39: the second command reads each cell where the first wrote it, and the shift is an involution. -/
theorem qshiftTwiceRestores : Obligations.QshiftTwiceRestores := by
  intro m s t u v hst _ ht hdm hboot _ hsrc hsstr hspitch huv hv hs hu r hr c hc
  obtain ⟨-, rfl⟩ := completed_of_running hst ht
  obtain ⟨-, rfl⟩ := completed_of_running huv hv
  have hcell : ∀ a, u.cell a = (completed (.qshift m) s).cell a := fun a => by rw [State.cell, State.cell, hdm, hboot]
  have hat : ∀ i j, u.d.srcAt i j = s.d.dstAt i j := fun i j => by rw [Desc.srcAt, Desc.dstAt, hsrc, hsstr, hspitch]
  have hr' := shifted_lt m r
  have hc' := shifted_lt m c
  calc (completed (.qshift m) u).cell (u.d.dstAt r c)
    _ = u.cell (u.d.srcAt (shifted (2^m) r) (shifted (2^m) c)) := completed_qshift_cell hr hc (hu r hr c hc)
    _ = (completed (.qshift m) s).cell (s.d.dstAt (shifted (2^m) r) (shifted (2^m) c)) := by rw [hcell, hat]
    _ = s.cell (s.d.srcAt (shifted (2^m) (shifted (2^m) r)) (shifted (2^m) (shifted (2^m) c))) :=
      completed_qshift_cell hr' hc' (hs _ hr' _ hc')
    _ = s.cell (s.d.srcAt r c) := by rw [shifted_shifted hr, shifted_shifted hc]

end Sys2Proof.Proofs

/-! # The control of a program: proofs of the statements about `45_control.md`

First a step of a running program, which always leaves a next state. Then a run: each step ends it or advances `cpc`, so the
words left in `CM` bound its steps. The statements are settled at the end, from these rules. -/

namespace Sys2Proof.Proofs

open Sys2Proof.Machine Sys2Proof.Laws

variable {s t : State}

/-! ### One step of a running program (`10_state.md` R26) -/

/-- No step of a running program is a fault or a refusal of the model: what the block raises is a next state. -/
theorem runStep_next (s : State) : ∃ t, runStep s = .next t := by
  rcases runStep_cases s with ⟨-, hrun⟩ | ⟨-, ⟨_, -, hrun⟩ | ⟨i, -, hrun⟩⟩
  · exact ⟨_, hrun⟩
  · exact ⟨_, hrun⟩
  · exact ⟨_, hrun.trans (exec_eq i s)⟩

theorem step_running (hok : s.par.ok = true) (hs : s.status = .run) (hturns : s.turns = []) : step s = runStep s :=
  (step_sequencer hok hturns).trans (sequencerMove_running hs)

/-- A step that does not end the run is the completion of a command of `CM` (`45_control.md` R175). -/
theorem runStepEnd_stops_or_advances (hok : s.par.ok = true) (h : RunStepEnd s t) :
    (t.status = .done ∨ t.status = .err) ∨
    (t.cpc.toNat = s.cpc.toNat + 1 ∧ t.status = s.status ∧ t.par = s.par ∧ t.turns = s.turns) := by
  cases h with
  | fetchFault => exact .inl (.inr rfl)
  | commandFault => exact .inl (.inr rfl)
  | halt => exact .inl (.inl rfl)
  | completes hpc => exact .inr ⟨cpc_succ_toNat hok hpc, rfl, rfl, rfl⟩

/-! ### A run (`45_control.md` R175, `70_reset_and_hazards.md` R261) -/

theorem run_succ_of_step (h : step s = .next t) (n : Nat) : Sys2Proof.core.run (n + 1) s = Sys2Proof.core.run n t := by
  have hstep : Sys2Proof.core.step s = .next t := h
  simp only [Host.Core.run, hstep]

/-- A run with at most `left` words of `CM` before it ends within one step more: the last one fetches at `CM_WORDS`. -/
theorem run_ends_of_wordsLeft (left : Nat) (hok : s.par.ok = true) (hs : s.status = .run) (hturns : s.turns = [])
    (hleft : s.par.cmWords ≤ s.cpc.toNat + left) :
    ∃ n ≤ left + 1, ∃ t : State, Sys2Proof.core.run n s = .next t ∧ (t.status = .done ∨ t.status = .err) := by
  induction left generalizing s with
  | zero =>
    have hstep : step s = .next (s.raise .fetch) := (step_running hok hs hturns).trans (runStep_past_end hleft)
    exact ⟨1, le_rfl, _, run_succ_of_step hstep 0, .inr rfl⟩
  | succ left ih =>
    obtain ⟨u, hrun⟩ := runStep_next s
    have hstep : step s = .next u := (step_running hok hs hturns).trans hrun
    rcases runStepEnd_stops_or_advances hok (runStep_end hrun) with hstop | ⟨hcpc, hstatus, hpar, hnone⟩
    · exact ⟨1, by omega, u, run_succ_of_step hstep 0, hstop⟩
    · obtain ⟨n, hn, t, ht, hstop⟩ := ih (by rwa [hpar]) (hstatus.trans hs) (hnone.trans hturns) (by rw [hpar, hcpc]; omega)
      exact ⟨n + 1, by omega, t, (run_succ_of_step hstep n).trans ht, hstop⟩

/-! ### The statements -/

/-- Settles O29: the words from `cpc` on are at most `CM_WORDS`. -/
theorem everyRunEnds : Obligations.EveryRunEnds := fun s hok hs hturns _ =>
  run_ends_of_wordsLeft s.par.cmWords hok hs hturns (Nat.le_add_left _ _)

/-- Settles O14: HALT leaves `State.finish`. -/
theorem haltEndsTheProgram : Obligations.HaltEndsTheProgram := fun s =>
  ⟨s.finish, rfl, rfl, rfl, rfl, rfl, rfl, rfl, rfl, rfl, rfl, rfl, rfl, rfl⟩

/-- Settles O15: SETD has no check, and completes with `d[rd]` set. -/
theorem setdWritesOneRegister : Obligations.SetdWritesOneRegister := fun rd imm s =>
  ⟨_, exec_completed (faultOf_setd rd imm s.par s.d) nofun, desc_get_set_same s.d rd imm,
    fun r hr => desc_get_set_other s.d rd r imm hr, rfl, rfl, rfl, rfl, rfl, rfl, rfl, rfl, rfl, rfl⟩

end Sys2Proof.Proofs

/-! # The routines of the driver: proofs of the statements about `46_macros_2d.md`

First matrices in row-major order and the round trip in exact arithmetic, where each pass is a transform along its dimension.
Then the expansions on the hardware, from below: what one transform, a pass of transforms and a quadrant swap leave of the
data, which of these each group of commands does, and what a call of a job answers. The statements are settled at the end,
from these rules. -/

namespace Sys2Proof.Proofs

open Sys2Proof.Machine Sys2Proof.Laws

/-! ### Orders (`46_macros_2d.md` R181, R183, R187) -/

theorem sizeOrder_eq_some (par : Params) (n m : Nat) : sizeOrder par n = some m ↔ m ≤ par.mmax ∧ 2^m = n := by
  constructor
  · intro h
    exact ⟨Nat.le_of_lt_succ (List.mem_range.1 (List.mem_of_find?_eq_some h)), by simpa using List.find?_some h⟩
  · rintro ⟨hm, rfl⟩
    have hfound : ((List.range (par.mmax + 1)).find? fun k => 2^k == 2^m).isSome :=
      List.find?_isSome.2 ⟨m, List.mem_range.2 (Nat.lt_succ_of_le hm), by simp⟩
    obtain ⟨k, hk⟩ := Option.isSome_iff_exists.1 hfound
    have hkm : 2^k = 2^m := by simpa using List.find?_some hk
    rwa [Nat.pow_right_injective le_rfl hkm] at hk

/-- The padded extent holds the rows. -/
theorem rows_le_padded (rows : Nat) : rows ≤ 2^(paddedOrder rows) := by
  have hfound : ((List.range (rows + 1)).find? fun m => rows ≤ 2^m).isSome :=
    List.find?_isSome.2 ⟨rows, List.self_mem_range_succ, by simpa using Nat.lt_two_pow_self.le⟩
  obtain ⟨m, hm⟩ := Option.isSome_iff_exists.1 hfound
  rw [paddedOrder, hm]
  simpa using List.find?_some hm

/-! ### Matrices (`46_macros_2d.md` R180 (a)) -/

theorem entryIndex_lt {rows cols r c : Nat} (hr : r < rows) (hc : c < cols) : r * cols + c < rows * cols :=
  (Nat.div_lt_iff_lt_mul (Nat.zero_lt_of_lt hc)).1 (by rwa [(rowMajor_index r hc).1])

/-- The entries of an `n` by `n` region lie below its end. -/
theorem regionEntry_lt {base n bound r c : Nat} (h : base + n * n ≤ bound) (hr : r < n) (hc : c < n) :
    base + r * n + c < bound := by
  have := rowMajor_lt hr hc
  omega

section
variable {α : Type}

theorem tabulate_entries (rows cols : Nat) (f : Nat → Nat → α) :
    (Mat.tabulate rows cols f).entries = (List.range (rows * cols)).map fun k => f (k / cols) (k % cols) := by
  rw [← flatMap_groups rows cols, List.map_flatMap]
  refine List.flatMap_congr fun r _ => ?_
  rw [List.map_map]
  refine List.map_congr_left fun c hc => ?_
  obtain ⟨hrow, hcol⟩ := rowMajor_index r (List.mem_range.1 hc)
  rw [Function.comp_apply, hrow, hcol]

theorem getD_map_range (dflt : α) (f : Nat → α) {n k : Nat} (hk : k < n) : ((List.range n).map f).getD k dflt = f k := by
  rw [List.getD_eq_getElem _ _ (by simpa using hk), List.getElem_map, List.getElem_range]

theorem at_tabulate {rows cols r c : Nat} (hr : r < rows) (hc : c < cols) (dflt : α) (f : Nat → Nat → α) :
    (Mat.tabulate rows cols f).at dflt r c = f r c := by
  obtain ⟨hrow, hcol⟩ := rowMajor_index r hc
  have hwidth : (Mat.tabulate rows cols f).cols = cols := rfl
  rw [Mat.at, hwidth, tabulate_entries, getD_map_range _ _ (entryIndex_lt hr hc), hrow, hcol]

theorem at_quadrantSwap {m r c : Nat} (hr : r < 2^m) (hc : c < 2^m) (dflt : α) (a : Mat α) :
    (quadrantSwap dflt (2^m) a).at dflt r c = a.at dflt (shifted (2^m) r) (shifted (2^m) c) := at_tabulate hr hc _ _

/-- Swapping the quadrants twice restores a matrix (`44_qshift.md` R162). -/
theorem at_quadrantSwap_twice {m r c : Nat} (hr : r < 2^m) (hc : c < 2^m) (dflt : α) (a : Mat α) :
    (quadrantSwap dflt (2^m) (quadrantSwap dflt (2^m) a)).at dflt r c = a.at dflt r c := by
  rw [at_quadrantSwap hr hc, at_quadrantSwap (shifted_lt m r) (shifted_lt m c), shifted_shifted hr, shifted_shifted hc]

/-- Row `r` after the column pass. -/
def rowAfterColumns (dflt : α) (f : Nat → List α → List α) (cols : List (List α)) (r : Nat) : List α :=
  (cols.zipIdx.map fun p => f p.2 p.1).map fun col => col.getD r dflt

@[simp] theorem rowAfterColumns_length (dflt : α) (f : Nat → List α → List α) (cols : List (List α)) (r : Nat) :
    (rowAfterColumns dflt f cols r).length = cols.length := by simp [rowAfterColumns]

theorem rowAfterColumns_getD (dflt : α) (f : Nat → List α → List α) (cols : List (List α)) (r : Nat) {c : Nat}
    (hc : c < cols.length) : (rowAfterColumns dflt f cols r).getD c dflt = (f c (cols.getD c [])).getD r dflt := by
  rw [List.getD_eq_getElem _ _ (by simpa using hc), List.getD_eq_getElem _ _ hc]
  simp [rowAfterColumns]

theorem columnsThenRows_at {n r c : Nat} (hr : r < n) (hc : c < n) (dflt : α) (f : Nat → List α → List α)
    (cols : List (List α)) :
    (columnsThenRows dflt n f cols).at dflt r c = (f (n + r) (rowAfterColumns dflt f cols r)).getD c dflt := by
  rw [columnsThenRows, at_tabulate hr hc, getD_map_range _ _ hr]
  rfl

end

/-! ### The two passes in exact arithmetic -/

/-- The inverse discrete Fourier transform (`43_ifft.md` R153). -/
noncomputable def inverseDft (n : Nat) (y : Nat → ℂ) (k : Nat) : ℂ := dft (-1) n y k / n

theorem inverseDft_congr {n : Nat} {y z : Nat → ℂ} (h : ∀ j < n, y j = z j) (k : Nat) :
    inverseDft n y k = inverseDft n z k := by
  rw [inverseDft, dft_congr k h, inverseDft]

theorem inverseDft_dft {n k : Nat} (hk : k < n) (y : Nat → ℂ) : inverseDft n (dft 1 n y) k = y k := by
  have hn : 0 < n := Nat.zero_lt_of_lt hk
  rw [inverseDft, dft_neg_dft hn (.inl rfl) y hk, mul_div_cancel_left₀ _ (Nat.cast_ne_zero.2 hn.ne')]

/-- Transforms along different dimensions commute. -/
theorem inverseDft_dft_comm (n : Nat) (y : Nat → Nat → ℂ) (k l : Nat) :
    inverseDft n (fun i => dft 1 n (y i) l) k = dft 1 n (fun j => inverseDft n (fun i => y i j) k) l := by
  simp only [inverseDft, dft_div]
  congr 1
  simp only [dft, Finset.sum_mul]
  rw [Finset.sum_comm]
  exact Finset.sum_congr rfl fun j _ => Finset.sum_congr rfl fun i _ => mul_right_comm _ _ _

/-- Inverse columns and rows undo forward columns and rows. -/
theorem inverseDft_dft_grid {n r c : Nat} (hr : r < n) (hc : c < n) (y : Nat → Nat → ℂ) :
    inverseDft n (fun c' => inverseDft n (fun r' => dft 1 n (fun c'' => dft 1 n (y c'') r') c') r) c = y c r := by
  have hcolumns : ∀ c', inverseDft n (fun r' => dft 1 n (fun c'' => dft 1 n (y c'') r') c') r =
      dft 1 n (fun c'' => y c'' r) c' := fun c' => by
    rw [inverseDft_dft_comm]
    exact dft_congr c' fun c'' _ => inverseDft_dft hr (y c'')
  simp only [hcolumns]
  exact inverseDft_dft hc _

theorem asWritten_ideal (n : Nat) (zs : List (Cplx ℝ)) : asWritten idealTier n zs = zs :=
  List.zipIdx_map_fst 0 zs

theorem elemC_padTo {m k : Nat} (hk : k < 2^m) (xs : List (Cplx ℝ)) : elemC (padTo idealNumerics m xs) k = elemC xs k :=
  congrArg toComplex (getD_map_range _ _ hk)

theorem elemC_fft1dValue {m k : Nat} (hk : k < 2^m) (n : Nat) (xs : List (Cplx ℝ)) :
    elemC (fft1dValue idealTier n m xs) k = dft 1 (2^m) (elemC xs) k := by
  rw [fft1dValue, asWritten_ideal, elemC_forward _ hk]
  exact dft_congr k fun j hj => elemC_padTo hj xs

theorem elemC_ifft1dValue {m k : Nat} (hk : k < 2^m) (n : Nat) (xs : List (Cplx ℝ)) :
    elemC (ifft1dValue idealTier n m xs) k = inverseDft (2^m) (elemC xs) k := by
  rw [ifft1dValue, asWritten_ideal, elemC_inverse _ hk]
  exact inverseDft_congr (fun j hj => elemC_padTo hj xs) k

/-- Two passes of transforms that do `G` to the elements do `G` along each dimension. -/
theorem toComplex_columnsThenRows {n r c : Nat} {f : Nat → List (Cplx ℝ) → List (Cplx ℝ)} {G : (Nat → ℂ) → Nat → ℂ}
    (hf : ∀ i xs, ∀ k < n, elemC (f i xs) k = G (elemC xs) k)
    (hG : ∀ y z : Nat → ℂ, (∀ j < n, y j = z j) → ∀ k, G y k = G z k) {cols : List (List (Cplx ℝ))} (hlen : cols.length = n)
    (hr : r < n) (hc : c < n) :
    toComplex ((columnsThenRows idealNumerics.czero n f cols).at idealNumerics.czero r c) =
      G (fun c' => G (elemC (cols.getD c' [])) r) c := by
  have hrow : ∀ c' < n, elemC (rowAfterColumns idealNumerics.czero f cols r) c' = G (elemC (cols.getD c' [])) r :=
    fun c' hc' => by
      rw [elemC, rowAfterColumns_getD _ f cols r (hlen ▸ hc')]
      exact hf c' _ r hr
  rw [columnsThenRows_at hr hc]
  exact (hf _ _ c hc).trans (hG _ _ hrow c)

/-- The inverse passes undo the forward passes, and un-centering the centering (`46_macros_2d.md` R190). -/
theorem ifft2dValue_fft2dValue {m : Nat} (n n' : Nat) {cols : List (List (Cplx ℝ))} (hlen : cols.length = 2^m) {r c : Nat}
    (hr : r < 2^m) (hc : c < 2^m) :
    (ifft2dValue idealTier n' m (fft2dValue idealTier n m cols)).at idealNumerics.czero r c =
      (cols.getD c []).getD r idealNumerics.czero := by
  set spectrum := columnsThenRows idealNumerics.czero (2^m) (fun k => fft1dValue idealTier (n + k * (2 * 2^m)) m) cols
    with hspectrum
  set columns := (List.range (2^m)).map
    ((quadrantSwap idealNumerics.czero (2^m) (fft2dValue idealTier n m cols)).column idealNumerics.czero) with hcolumns
  have hforward : ∀ r < 2^m, ∀ c < 2^m, toComplex (spectrum.at idealNumerics.czero r c) =
      dft 1 (2^m) (fun c' => dft 1 (2^m) (elemC (cols.getD c' [])) r) c := fun r hr c hc =>
    toComplex_columnsThenRows (fun _ xs _ hk => elemC_fft1dValue hk _ xs) (fun _ _ h k => dft_congr k h) hlen hr hc
  have hcolumn : ∀ c < 2^m, ∀ r < 2^m, elemC (columns.getD c []) r = toComplex (spectrum.at idealNumerics.czero r c) :=
    fun c hc r hr => by
      rw [hcolumns, getD_map_range _ _ hc, elemC]
      exact congrArg toComplex ((getD_map_range _ _ hr).trans (at_quadrantSwap_twice hr hc _ spectrum))
  refine toComplex_inj ((toComplex_columnsThenRows (fun _ xs _ hk => elemC_ifft1dValue hk _ xs)
    (fun _ _ h k => inverseDft_congr h k) (by simp) hr hc).trans ?_)
  refine Eq.trans (inverseDft_congr (fun c' hc' => inverseDft_congr (fun r' hr' => ?_) r) c)
    (inverseDft_dft_grid hr hc fun c' => elemC (cols.getD c' []))
  rw [hcolumn c' hc' r' hr', hforward r' hr' c' hc']

/-- Entry `(r, c)` of the image, in the columns of the padded image. -/
theorem paddedColumn_getD (T : Tier) (x : Image T.num.R) {n r c : Nat} (hcn : c < n) (hr : r < x.rows) (hc : c < x.cols) :
    (((List.range n).map (x.paddedColumn T)).getD c []).getD r T.num.czero = x.widened T r c := by
  rw [getD_map_range _ _ hcn, Image.paddedColumn, if_pos hc, getD_map_range _ _ hr]

/-! ### Cells of the data between two runs (`20_memory.md` R53) -/

/-- An address that is written, always with the same value, reads as that value. -/
theorem get?_writeAll_of_mem {α : Type} (m : Memory α) {ws : List (Nat × α)} {a : Nat} {v : α} (hmem : (a, v) ∈ ws)
    (hsame : ∀ p ∈ ws, p.1 = a → p.2 = v) : Memory.get? (Memory.writeAll m ws) a = some v := by
  induction ws generalizing m with
  | nil => cases hmem
  | cons p ws ih =>
    rw [writeAll_cons]
    by_cases hlater : (a, v) ∈ ws
    · exact ih _ hlater fun q hq => hsame q (List.mem_cons_of_mem p hq)
    · obtain rfl : (a, v) = p := (List.mem_cons.1 hmem).resolve_right hlater
      rw [get?_writeAll_other, get?_set_same]
      rintro q hq rfl
      exact hlater (hsame q (List.mem_cons_of_mem _ hq) rfl ▸ hq)

section
variable {boot n a : Nat} {x : Data} {ws : List (Nat × Cell)}

theorem dataCell_written {v : Cell} (hmem : (a, v) ∈ ws) (hsame : ∀ p ∈ ws, p.1 = a → p.2 = v) :
    Data.cell boot { dm := Memory.writeAll x.dm ws, draws := n } a = v := by
  rw [Data.cell, get?_writeAll_of_mem x.dm hmem hsame]

theorem dataCell_unwritten (hother : ∀ p ∈ ws, p.1 ≠ a) :
    Data.cell boot { dm := Memory.writeAll x.dm ws, draws := n } a = x.cell boot a := by
  rw [Data.cell, get?_writeAll_other x.dm ws a hother, Data.cell]

end

theorem rowMajor_inj {n r c r' c' : Nat} (hc : c < n) (hc' : c' < n) (h : r * n + c = r' * n + c') : r = r' ∧ c = c' := by
  obtain ⟨hrow, hcol⟩ := rowMajor_index r hc
  obtain ⟨hrow', hcol'⟩ := rowMajor_index r' hc'
  exact ⟨by rw [← hrow, h, hrow'], by rw [← hcol, h, hcol']⟩

/-- After a matrix is written row by row with its own width as pitch, its entries are in place. -/
theorem dataCell_matrix (boot n base : Nat) (x : Data) (value : Nat → Nat → Cell) {rows cols r c : Nat} (hr : r < rows)
    (hc : c < cols) :
    Data.cell boot { dm := Memory.writeAll x.dm ((List.range rows).flatMap fun r => (List.range cols).map fun c =>
      (base + r * cols + c, value r c)), draws := n } (base + r * cols + c) = value r c := by
  refine dataCell_written (List.mem_flatMap.2 ⟨r, List.mem_range.2 hr, List.mem_map.2 ⟨c, List.mem_range.2 hc, rfl⟩⟩) ?_
  simp only [List.mem_flatMap, List.mem_map, List.mem_range]
  rintro _ ⟨r', -, c', hc', rfl⟩ haddr
  obtain ⟨rfl, rfl⟩ := rowMajor_inj hc' hc (by simpa [Nat.add_assoc] using haddr)
  rfl

/-! ### One transform of the data -/

/-- The operands of a transform: the type tag, the source and destination vectors, and the length of the source. -/
structure Operands where
  ty : ElemTy
  src : Nat
  sstr : Nat
  dst : Nat
  dstr : Nat
  len : Nat

/-- Address of source element `j`. -/
def Operands.srcElem (o : Operands) (j : Nat) : Nat := o.src + j * o.sstr

/-- Address of destination element `j`. -/
def Operands.dstElem (o : Operands) (j : Nat) : Nat := o.dst + j * o.dstr

/-- What the transform `f` of order `m` does to the data. -/
def Operands.transform (boot m : Nat) (f : List (Cplx F64) → List (Cplx F64)) (o : Operands) : Data → Data :=
  transformData boot m f o.ty o.src o.sstr o.dst o.dstr o.len

/-- The source vector holds the elements `xs`. -/
structure Operands.Holds (boot : Nat) (o : Operands) (x : Data) (xs : List (Cplx F64)) : Prop where
  length : xs.length = o.len
  elem : ∀ j < o.len, elemOf o.ty (x.cell boot (o.srcElem j)) = xs.getD j f64Numerics.czero

/-- What a transform `f` of order `m` leaves of the elements `xs` when its first draw is `n`: `fft1dValue` and
`ifft1dValue` are those of the two engines. -/
def transformValue (f : List (Cplx F64) → List (Cplx F64)) (m n : Nat) (xs : List (Cplx F64)) : List (Cplx F64) :=
  asWritten f64Tier n (f (padTo f64Numerics m xs))

theorem asWritten_getD (n : Nat) (zs : List (Cplx F64)) {j : Nat} (hj : j < zs.length) :
    (asWritten f64Tier n zs).getD j f64Numerics.czero = cplxOf (cellOf (n + 2 * j) zs[j]) := by
  rw [asWritten, List.getD_eq_getElem _ _ (by simpa using hj)]
  simp [elemOf]

section
variable {boot m : Nat} {f : List (Cplx F64) → List (Cplx F64)} (hf : ∀ xs, (f xs).length = 2^m) {o : Operands} {x : Data}
  {xs : List (Cplx F64)}

theorem transform_eq_of_holds (hx : o.Holds boot x xs) :
    o.transform boot m f x =
      { dm := Memory.writeAll x.dm (cplxWrites f64Tier x.draws o.dstElem (f (padTo f64Numerics m xs))),
        draws := x.draws + 2 * 2^m } := by
  have hinput : ((List.range (2^m)).map fun j =>
      if j < o.len then elemOf o.ty (x.cell boot (o.src + j * o.sstr)) else f64Numerics.czero) = padTo f64Numerics m xs := by
    refine List.map_congr_left fun j _ => ?_
    split_ifs with hj
    · exact hx.elem j hj
    · rw [List.getD_eq_default _ _ (by rw [hx.length]; omega)]
  rw [Operands.transform, transformData, hinput]
  rfl

include hf

/-- The destination vector of a transform holds its value. -/
theorem transform_written (hx : o.Holds boot x xs) (hdstr : 0 < o.dstr) {j : Nat} (hj : j < 2^m) :
    cplxOf ((o.transform boot m f x).cell boot (o.dstElem j)) = (transformValue f m x.draws xs).getD j f64Numerics.czero := by
  have hlen : j < (f (padTo f64Numerics m xs)).length := by rwa [hf]
  rw [transform_eq_of_holds hx, transformValue, asWritten_getD _ _ hlen]
  have hmem := List.mem_of_getElem (cplxWrites_getElem f64Tier x.draws o.dstElem _ j (by rwa [cplxWrites_length]))
  refine congrArg cplxOf (dataCell_written hmem fun p hp haddr => ?_)
  obtain ⟨i, hi, rfl⟩ := List.getElem_of_mem hp
  rw [cplxWrites_getElem] at haddr ⊢
  obtain rfl : i = j := Nat.eq_of_mul_eq_mul_right hdstr (Nat.add_left_cancel haddr)
  rfl

theorem transform_unwritten {a : Nat} (ha : ∀ j < 2^m, a ≠ o.dstElem j) :
    (o.transform boot m f x).cell boot a = x.cell boot a := by
  refine dataCell_unwritten fun p hp => ?_
  obtain ⟨j, hj, hpj⟩ := mem_cplxWrites_addr _ _ _ _ _ hp
  rw [hf] at hj
  rw [hpj]
  exact (ha j hj).symm

end

/-! ### A pass of transforms (`46_macros_2d.md` R183, R187) -/

theorem inSequence_append (fs gs : List (Data → Data)) (x : Data) :
    inSequence (fs ++ gs) x = inSequence gs (inSequence fs x) := List.foldl_append

/-- The transforms of the first `k` operands, in order. -/
def pass (boot m : Nat) (f : List (Cplx F64) → List (Cplx F64)) (o : Nat → Operands) (k : Nat) : List (Data → Data) :=
  (List.range k).map fun i => (o i).transform boot m f

/-- Operands that a pass may run one after another: what one transform writes, no later one reads or writes. -/
structure Apart (m n : Nat) (o : Nat → Operands) : Prop where
  stride : ∀ k < n, 0 < (o k).dstr
  src : ∀ k < n, ∀ i < k, ∀ j < (o k).len, ∀ l < 2^m, (o k).srcElem j ≠ (o i).dstElem l
  dst : ∀ k < n, ∀ i < k, ∀ j < 2^m, ∀ l < 2^m, (o k).dstElem j ≠ (o i).dstElem l

/-- What a pass of `k` transforms of the vectors `xs` leaves. -/
structure PassLeaves (boot m : Nat) (f : List (Cplx F64) → List (Cplx F64)) (o : Nat → Operands)
    (xs : Nat → List (Cplx F64)) (x : Data) (k : Nat) (y : Data) : Prop where
  draws : y.draws = x.draws + k * (2 * 2^m)
  written : ∀ i < k, ∀ j < 2^m, cplxOf (y.cell boot ((o i).dstElem j)) =
    (transformValue f m (x.draws + i * (2 * 2^m)) (xs i)).getD j f64Numerics.czero
  unwritten : ∀ a, (∀ i < k, ∀ j < 2^m, a ≠ (o i).dstElem j) → y.cell boot a = x.cell boot a

theorem passLeaves {boot m n : Nat} {f : List (Cplx F64) → List (Cplx F64)} (hf : ∀ xs, (f xs).length = 2^m)
    {o : Nat → Operands} {xs : Nat → List (Cplx F64)} {x : Data} (hapart : Apart m n o)
    (hread : ∀ k < n, (o k).Holds boot x (xs k)) :
    ∀ k ≤ n, PassLeaves boot m f o xs x k (inSequence (pass boot m f o k) x) := by
  intro k hk
  induction k with
  | zero =>
    exact ⟨by simp [pass, inSequence], fun i hi => absurd hi (Nat.not_lt_zero i), fun a _ => rfl⟩
  | succ k ih =>
    obtain ⟨hdraws, hwritten, hunwritten⟩ := ih (Nat.le_of_succ_le hk)
    rw [pass, List.range_succ, List.map_append, inSequence_append]
    set y := inSequence (pass boot m f o k) x
    have hholds : (o k).Holds boot y (xs k) := by
      obtain ⟨hlen, helem⟩ := hread k hk
      refine ⟨hlen, fun j hj => ?_⟩
      rw [hunwritten _ fun i hi l hl => hapart.src k hk i hi j hj l hl, helem j hj]
    refine ⟨?_, fun i hi j hj => ?_, fun a ha => ?_⟩
    · show y.draws + 2 * 2^m = _
      rw [hdraws]
      ring
    · rcases Nat.lt_succ_iff_lt_or_eq.1 hi with hi | rfl
      · exact (congrArg cplxOf (transform_unwritten hf fun l hl => (hapart.dst k hk i hi l hl j hj).symm)).trans
          (hwritten i hi j hj)
      · rw [← hdraws]
        exact transform_written hf hholds (hapart.stride i hk) hj
    · exact (transform_unwritten hf fun j hj => ha k (Nat.lt_succ_self k) j hj).trans
        (hunwritten a fun i hi => ha i (Nat.lt_succ_of_lt hi))

/-- Column `c` of the `2^m` by `2^m` matrix at `t`, transformed in place. -/
def columnInPlace (t m c : Nat) : Operands :=
  { ty := .complex, src := t + c, sstr := 2^m, dst := t + c, dstr := 2^m, len := 2^m }

/-- Row `r` of the `2^m` by `2^m` matrix at `t`, transformed in place. -/
def rowInPlace (t m r : Nat) : Operands :=
  { ty := .complex, src := t + r * 2^m, sstr := 1, dst := t + r * 2^m, dstr := 1, len := 2^m }

theorem rowInPlace_dstElem (t m r c : Nat) : (rowInPlace t m r).dstElem c = t + r * 2^m + c :=
  congrArg (t + r * 2^m + ·) (Nat.mul_one c)

theorem apart_rowInPlace (t m : Nat) : Apart m (2^m) (rowInPlace t m) := by
  have hdst : ∀ k < 2^m, ∀ i < k, ∀ j < 2^m, ∀ l < 2^m, (rowInPlace t m k).dstElem j ≠ (rowInPlace t m i).dstElem l := by
    intro k _ i hi j hj l hl heq
    rw [rowInPlace_dstElem, rowInPlace_dstElem, Nat.add_assoc, Nat.add_assoc] at heq
    exact hi.ne' (rowMajor_inj hj hl (Nat.add_left_cancel heq)).1
  exact ⟨fun _ _ => one_pos, hdst, hdst⟩

/-- Transforms whose destinations are the columns of the matrix at `t`. -/
def IntoColumns (t m : Nat) (o : Nat → Operands) : Prop := ∀ c, (o c).dst = t + c ∧ (o c).dstr = 2^m

theorem IntoColumns.dstElem_eq {t m : Nat} {o : Nat → Operands} (ho : IntoColumns t m o) (c r : Nat) :
    (o c).dstElem r = t + r * 2^m + c := by
  rw [Operands.dstElem, (ho c).1, (ho c).2]
  omega

theorem apart_of_intoColumns {t m : Nat} {o : Nat → Operands} (ho : IntoColumns t m o)
    (hsrc : ∀ k < 2^m, ∀ i < k, ∀ j < (o k).len, ∀ l < 2^m, (o k).srcElem j ≠ t + l * 2^m + i) : Apart m (2^m) o where
  stride k _ := by rw [(ho k).2]; exact Nat.two_pow_pos m
  src k hk i hi j hj l hl := by rw [ho.dstElem_eq]; exact hsrc k hk i hi j hj l hl
  dst k hk i hi j hj l hl := by
    rw [ho.dstElem_eq, ho.dstElem_eq, Nat.add_assoc, Nat.add_assoc]
    exact fun heq => hi.ne' (rowMajor_inj hk (hi.trans hk) (Nat.add_left_cancel heq)).2

theorem intoColumns_columnInPlace (t m : Nat) : IntoColumns t m (columnInPlace t m) := fun _ => ⟨rfl, rfl⟩

theorem apart_columnInPlace (t m : Nat) : Apart m (2^m) (columnInPlace t m) :=
  have ho := intoColumns_columnInPlace t m
  apart_of_intoColumns ho fun k hk i hi j _ l _ heq => by
    have haddr : t + j * 2^m + k = t + l * 2^m + i := (ho.dstElem_eq k j).symm.trans heq
    rw [Nat.add_assoc, Nat.add_assoc] at haddr
    exact hi.ne' (rowMajor_inj hk (hi.trans hk) (Nat.add_left_cancel haddr)).2

/-- A column pass into the matrix at `t` and a row pass in place leave the value of both passes there. -/
theorem columnsThenRows_cell {boot m t : Nat} {f : List (Cplx F64) → List (Cplx F64)} (hf : ∀ xs, (f xs).length = 2^m)
    {o : Nat → Operands} {cols : List (List (Cplx F64))} {x : Data} (ho : IntoColumns t m o)
    (hapart : Apart m (2^m) o) (hlen : cols.length = 2^m) (hread : ∀ c < 2^m, (o c).Holds boot x (cols.getD c []))
    {r c : Nat} (hr : r < 2^m) (hc : c < 2^m) :
    cplxOf ((inSequence (pass boot m f o (2^m) ++ pass boot m f (rowInPlace t m) (2^m)) x).cell boot (t + r * 2^m + c)) =
      (columnsThenRows f64Numerics.czero (2^m) (fun k => transformValue f m (x.draws + k * (2 * 2^m))) cols).at
        f64Numerics.czero r c := by
  set value := fun k => transformValue f m (x.draws + k * (2 * 2^m))
  obtain ⟨hdraws, hcolumns, -⟩ := passLeaves (f := f) hf hapart hread (2^m) le_rfl
  rw [inSequence_append]
  set y := inSequence (pass boot m f o (2^m)) x
  have hrows : ∀ r < 2^m, (rowInPlace t m r).Holds boot y (rowAfterColumns f64Numerics.czero value cols r) := by
    refine fun r hr => ⟨(rowAfterColumns_length _ _ _ _).trans hlen, fun c hc => ?_⟩
    have hcell := hcolumns c hc r hr
    rw [ho.dstElem_eq] at hcell
    have haddr : (rowInPlace t m r).srcElem c = t + r * 2^m + c := rowInPlace_dstElem t m r c
    rw [rowAfterColumns_getD _ _ _ _ (hlen ▸ hc), ← hcell, haddr]
    rfl
  obtain ⟨-, hwritten, -⟩ := passLeaves (f := f) hf (apart_rowInPlace t m) hrows (2^m) le_rfl
  have hcell := hwritten r hr c hc
  rw [hdraws, Nat.add_assoc, ← Nat.add_mul] at hcell
  rw [columnsThenRows_at hr hc, ← hcell, rowInPlace_dstElem]

/-! ### The quadrant swap of the data (`44_qshift.md` R161) -/

/-- `QSHIFT` from the matrix at `src` to the matrix at `dst`. -/
def swapData (boot m src dst : Nat) (x : Data) : Data :=
  { dm := Memory.writeAll x.dm ((List.range (2^m)).flatMap fun r => (List.range (2^m)).map fun c =>
      (dst + r * 2^m + c, x.cell boot (src + shifted (2^m) r * 2^m + shifted (2^m) c))),
    draws := x.draws }

theorem swapData_cell {boot m src dst : Nat} {x : Data} {r c : Nat} (hr : r < 2^m) (hc : c < 2^m) :
    (swapData boot m src dst x).cell boot (dst + r * 2^m + c) =
      x.cell boot (src + shifted (2^m) r * 2^m + shifted (2^m) c) :=
  dataCell_matrix boot _ dst x (fun r c => x.cell boot (src + shifted (2^m) r * 2^m + shifted (2^m) c)) hr hc

/-! ### The groups of the expansions (`46_macros_2d.md` R181, R182, R184, R188) -/

/-- The commands of a group, where its numbers fit, do `f` to the data, and their words spell them. -/
def Expands (par : Params) (boot : Nat) (group : List (Option Instr)) (f : Data → Data) : Prop :=
  ∀ g, allSome group = some g → GroupDoes par boot g f ∧ ∀ i ∈ g, decode (encode i) = .ok i

/-- SETDs of numbers. -/
def setCommands (regs : List (Reg × Nat)) : List Instr := regs.map fun p => .setd p.1 (BitVec.ofNat 24 p.2)

/-- The registers after SETDs of numbers. -/
def setAll (regs : List (Reg × Nat)) (d : Desc) : Desc := regs.foldl (fun d p => d.set p.1 (BitVec.ofNat 24 p.2)) d

theorem allSome_setup {regs : List (Reg × Nat)} {i : Instr} {g : List Instr}
    (h : allSome (regs.map (fun p => setd p.1 p.2) ++ [some i]) = some g) :
    (∀ p ∈ regs, p.2 < 2^24) ∧ g = setCommands regs ++ [i] := by
  rw [allSome_eq_some] at h
  induction regs generalizing g with
  | nil => exact ⟨nofun, (List.map_injective_iff.2 (Option.some_injective Instr) (a₁ := [i]) h).symm⟩
  | cons p regs ih =>
    cases g with
    | nil => cases h
    | cons j g =>
      obtain ⟨hhead, htail⟩ := List.cons.inj h
      obtain ⟨hp, rfl⟩ := (setd_eq_some _ _ _).1 hhead
      obtain ⟨hregs, rfl⟩ := ih htail
      exact ⟨List.forall_mem_cons.2 ⟨hp, hregs⟩, rfl⟩

theorem passes_setCommands (regs : List (Reg × Nat)) (s : State) : Passes (setCommands regs) s := by
  induction regs generalizing s with
  | nil => trivial
  | cons p regs ih => exact ⟨nofun, faultOf_setd _ _ _ _, ih _⟩

theorem runCommands_setCommands (regs : List (Reg × Nat)) (s : State) :
    (runCommands (setCommands regs) s).d = setAll regs s.d ∧ dataOf (runCommands (setCommands regs) s) = dataOf s := by
  induction regs generalizing s with
  | nil => exact ⟨rfl, rfl⟩
  | cons p regs ih => exact ih (completed (.setd p.1 (BitVec.ofNat 24 p.2)) s)

/-- A group of SETDs and a command does what the command does once the registers are set. -/
theorem expands_setup {par : Params} {boot : Nat} {f : Data → Data} (regs : List (Reg × Nat)) {i : Instr} (hwf : i.wf = true)
    (hi : i ≠ .halt)
    (hdoes : (∀ p ∈ regs, p.2 < 2^24) → ∀ (s : State) (d : Desc), s.boot = boot → s.d = setAll regs d →
      faultOf i par s.d = none ∧ dataOf (completed i s) = f (dataOf s)) :
    Expands par boot (regs.map (fun p => setd p.1 p.2) ++ [some i]) f := by
  intro g hg
  obtain ⟨hfit, rfl⟩ := allSome_setup hg
  refine ⟨fun s hpar hboot => ?_, fun j hj => decodeOfEncode j ?_⟩
  · obtain ⟨hd, hdata⟩ := runCommands_setCommands regs s
    obtain ⟨hfault, heffect⟩ := hdoes hfit (runCommands (setCommands regs) s) s.d (by simpa using hboot) hd
    rw [passes_append, runCommands_append]
    refine ⟨⟨passes_setCommands regs s, hi, ?_, trivial⟩, ?_⟩
    · rw [runCommands_par, hpar, hfault]
    · rw [← hdata, ← heffect]
      rfl
  · rcases List.mem_append.1 hj with hj | hj
    · obtain ⟨p, -, rfl⟩ := List.mem_map.1 hj
      rfl
    · rwa [List.mem_singleton.1 hj]

/-- A command that transforms: its checks and its effect on the data (`60_exceptions.md` R227, `42_fft.md` R131,
`43_ifft.md` R151). -/
structure Transforms (m : Nat) (ty : ElemTy) (f : List (Cplx F64) → List (Cplx F64)) (i : Instr) : Prop where
  wf : orderFits m = true → i.wf = true
  notHalt : i ≠ .halt
  passes : ∀ (par : Params) (d : Desc), m ≤ par.mmax → d.len.toNat ≤ 2^m →
    (∀ j < d.len.toNat, d.src.toNat + j * d.sstr.toNat < par.dmCells) →
    (∀ j < 2^m, d.dst.toNat + j * d.dstr.toNat < par.dmCells) → faultOf i par d = none
  data : ∀ s : State, dataOf (completed i s) =
    transformData s.boot m f ty s.d.src.toNat s.d.sstr.toNat s.d.dst.toNat s.d.dstr.toNat s.d.len.toNat (dataOf s)

theorem transforms_fftOf (ty : ElemTy) (m : Nat) : Transforms m ty (forward f64Numerics m) (fftOf ty m) where
  wf hm := by cases ty <;> exact hm
  notHalt := fftOf_ne_halt ty m
  passes := faultOf_fft ty m
  data := dataOf_fft ty m

theorem transforms_ifft (m : Nat) : Transforms m .complex (inverse f64Numerics m) (.ifft m) where
  wf hm := hm
  notHalt := nofun
  passes := faultOf_ifft m
  data := dataOf_ifft m

/-- The SETDs give a transform its operands; of an empty source only the length counts. -/
structure SetsOperands (regs : List (Reg × Nat)) (o : Operands) (d : Desc) : Prop where
  src : o.len = 0 ∨ ((setAll regs d).src.toNat = o.src ∧ (setAll regs d).sstr.toNat = o.sstr)
  dst : (setAll regs d).dst.toNat = o.dst
  dstr : (setAll regs d).dstr.toNat = o.dstr
  len : (setAll regs d).len.toNat = o.len

/-- The operands of a transform are valid (`60_exceptions.md` R227). -/
structure Operands.Valid (par : Params) (m : Nat) (o : Operands) : Prop where
  order : m ≤ par.mmax
  len : o.len ≤ 2^m
  src : ∀ j < o.len, o.srcElem j < par.dmCells
  dst : ∀ j < 2^m, o.dstElem j < par.dmCells

theorem orderFits_of_le {par : Params} {m : Nat} (hok : par.ok = true) (hm : m ≤ par.mmax) : orderFits m = true := by
  obtain ⟨hmmax, -⟩ := (params_ok_iff par).1 hok
  exact decide_eq_true (by omega)

section
variable {par : Params} {boot m : Nat} (hok : par.ok = true)
include hok

/-- A group that sets the operands of a transform and runs it. -/
theorem expands_transform (regs : List (Reg × Nat)) {o : Operands} {f : List (Cplx F64) → List (Cplx F64)} {i : Instr}
    (hi : Transforms m o.ty f i) (hvalid : o.Valid par m)
    (hset : (∀ p ∈ regs, p.2 < 2^24) → ∀ d, SetsOperands regs o d) :
    Expands par boot (regs.map (fun p => setd p.1 p.2) ++ [some i]) (o.transform boot m f) := by
  refine expands_setup regs (hi.wf (orderFits_of_le hok hvalid.order)) hi.notHalt fun hfit s d hboot hd => ?_
  obtain ⟨hsrc, hdst, hdstr, hlen⟩ := hset hfit d
  rw [← hd] at hsrc hdst hdstr hlen
  constructor
  · refine hi.passes par s.d hvalid.order (hlen ▸ hvalid.len) (fun j hj => ?_) fun j hj => ?_
    · obtain ⟨hbase, hstride⟩ := hsrc.resolve_left (by omega)
      rw [hbase, hstride]
      exact hvalid.src j (hlen ▸ hj)
    · rw [hdst, hdstr]
      exact hvalid.dst j hj
  · rw [hi.data, hboot, hdst, hdstr, hlen, Operands.transform]
    rcases hsrc with hempty | ⟨hbase, hstride⟩
    · simp [transformData, hempty]
    · rw [hbase, hstride]

/-- The groups of `vectorSetup`. -/
theorem expands_vector {o : Operands} {f : List (Cplx F64) → List (Cplx F64)} {i : Instr} (hi : Transforms m o.ty f i)
    (hvalid : o.Valid par m) :
    Expands par boot (vectorSetup o.src o.sstr o.dst o.dstr o.len ++ [some i]) (o.transform boot m f) := by
  refine expands_transform hok [(.SRC, o.src), (.SSTR, o.sstr), (.DST, o.dst), (.DSTR, o.dstr), (.LEN, o.len)] hi hvalid
    fun hfit d => ?_
  simp only [List.forall_mem_cons] at hfit
  obtain ⟨hsrc, hsstr, hdst, hdstr, hlen, -⟩ := hfit
  exact ⟨.inr ⟨setd_toNat _ hsrc, setd_toNat _ hsstr⟩, setd_toNat _ hdst, setd_toNat _ hdstr, setd_toNat _ hlen⟩

/-- Column `c` of an image of `rows` by `cols` elements at `a`, transformed into column `c` of the matrix at `t`; nothing of a
column the image has not. -/
def imageColumn (ty : ElemTy) (a t rows cols m c : Nat) : Operands :=
  { ty := ty, src := a + c, sstr := cols, dst := t + c, dstr := 2^m, len := if c < cols then rows else 0 }

/-- The groups of the column pass of `fft2d` (`46_macros_2d.md` R184). -/
theorem expands_imageColumn {ty : ElemTy} {a t rows cols c : Nat} (hc : c < 2^m)
    (hvalid : (imageColumn ty a t rows cols m c).Valid par m) :
    Expands par boot
      ((if c < Nat.min cols (2^m) then [setd .SRC (a + c), setd .SSTR cols, setd .LEN rows] else [setd .LEN 0]) ++
        [setd .DST (t + c), setd .DSTR (2^m), some (fftOf ty m)])
      ((imageColumn ty a t rows cols m c).transform boot m (forward f64Numerics m)) := by
  have hmin : c < Nat.min cols (2^m) ↔ c < cols := Nat.lt_min.trans (and_iff_left hc)
  by_cases hcol : c < cols
  · rw [if_pos (hmin.2 hcol)]
    refine expands_transform hok [(.SRC, a + c), (.SSTR, cols), (.LEN, rows), (.DST, t + c), (.DSTR, 2^m)]
      (transforms_fftOf ty m) hvalid fun hfit d => ?_
    simp only [List.forall_mem_cons] at hfit
    obtain ⟨hsrc, hsstr, hlen, hdst, hdstr, -⟩ := hfit
    exact ⟨.inr ⟨setd_toNat _ hsrc, setd_toNat _ hsstr⟩, setd_toNat _ hdst, setd_toNat _ hdstr,
      (setd_toNat _ hlen).trans (if_pos hcol).symm⟩
  · rw [if_neg (hmin.not.2 hcol)]
    refine expands_transform hok [(.LEN, 0), (.DST, t + c), (.DSTR, 2^m)] (transforms_fftOf ty m) hvalid fun hfit d => ?_
    simp only [List.forall_mem_cons] at hfit
    obtain ⟨hlen, hdst, hdstr, -⟩ := hfit
    exact ⟨.inl (if_neg hcol), setd_toNat _ hdst, setd_toNat _ hdstr, (setd_toNat _ hlen).trans (if_neg hcol).symm⟩

/-- The group of a quadrant swap. -/
theorem expands_swap {src dst : Nat} (hm : m ≤ par.mmax) (hsrc : src + 2^m * 2^m ≤ par.dmCells)
    (hdst : dst + 2^m * 2^m ≤ par.dmCells) :
    Expands par boot (matrixSetup src dst (2^m) ++ [some (.qshift m)]) (swapData boot m src dst) := by
  refine expands_setup [(.SRC, src), (.SSTR, 1), (.SPITCH, 2^m), (.DST, dst), (.DSTR, 1), (.DPITCH, 2^m)]
    (orderFits_of_le hok hm) nofun fun hfit s d hboot hd => ?_
  simp only [List.forall_mem_cons] at hfit
  obtain ⟨hs, h1, hp, ht, -⟩ := hfit
  have hsrcAt : ∀ r c, s.d.srcAt r c = src + r * 2^m + c := fun r c => by
    rw [hd]
    show (BitVec.ofNat 24 src).toNat + r * (BitVec.ofNat 24 (2^m)).toNat + c * (BitVec.ofNat 24 1).toNat = _
    rw [setd_toNat _ hs, setd_toNat _ hp, setd_toNat _ h1, Nat.mul_one]
  have hdstAt : ∀ r c, s.d.dstAt r c = dst + r * 2^m + c := fun r c => by
    rw [hd]
    show (BitVec.ofNat 24 dst).toNat + r * (BitVec.ofNat 24 (2^m)).toNat + c * (BitVec.ofNat 24 1).toNat = _
    rw [setd_toNat _ ht, setd_toNat _ hp, setd_toNat _ h1, Nat.mul_one]
  constructor
  · refine faultOf_qshift hm (fun r hr c hc => ?_) fun r hr c hc => ?_
    · rw [hsrcAt]
      exact regionEntry_lt hsrc hr hc
    · rw [hdstAt]
      exact regionEntry_lt hdst hr hc
  · have hwrites : writesOf f64Tier (.qshift m) s.d s.cell s.draws =
        (List.range (2^m)).flatMap fun r => (List.range (2^m)).map fun c =>
          (dst + r * 2^m + c, (dataOf s).cell boot (src + shifted (2^m) r * 2^m + shifted (2^m) c)) := by
      simp only [writesOf, qshiftWrites, hsrcAt, hdstAt, ← hboot]
      rfl
    rw [swapData, ← hwrites]
    rfl

end

/-! ### Jobs and calls (`46_macros_2d.md` R180) -/

theorem forall₂_of_expands {par : Params} {boot : Nat} {groups : List (List (Option Instr))} {fs : List (Data → Data)}
    (hfs : List.Forall₂ (Expands par boot) groups fs) {gs : List (List Instr)}
    (hgs : allSome (groups.map allSome) = some gs) :
    List.Forall₂ (GroupDoes par boot) gs fs ∧ ∀ g ∈ gs, ∀ i ∈ g, decode (encode i) = .ok i := by
  rw [allSome_eq_some] at hgs
  induction hfs generalizing gs with
  | nil =>
    obtain rfl : gs = [] := by simpa using hgs.symm
    exact ⟨.nil, nofun⟩
  | cons hgroup _ ih =>
    cases gs with
    | nil => cases hgs
    | cons g gs =>
      obtain ⟨hhead, htail⟩ := List.cons.inj hgs
      obtain ⟨hdoes, hdecode⟩ := hgroup g hhead
      obtain ⟨hrest, hdecodes⟩ := ih htail
      exact ⟨.cons hdoes hrest, List.forall_mem_cons.2 ⟨hdecode, hdecodes⟩⟩

/-- Packing keeps the commands. -/
theorem mem_of_mem_pack {room : Nat} {gs : List (List Instr)} {cur p : List Instr} {i : Instr} (hp : p ∈ pack room cur gs)
    (hi : i ∈ p) : i ∈ cur ∨ ∃ g ∈ gs, i ∈ g := by
  induction gs generalizing cur with
  | nil =>
    obtain rfl := List.mem_singleton.1 hp
    exact .inl hi
  | cons g gs ih =>
    rw [List.exists_mem_cons_iff]
    rw [pack] at hp
    split_ifs at hp
    · rw [← or_assoc, ← List.mem_append]
      exact ih hp
    · rcases List.mem_cons.1 hp with rfl | hp
      · exact .inl hi
      · exact .inr (ih hp)

/-- A job exists where its regions lie in `DM`, and its programs are its groups packed into runs. -/
theorem makeJob_eq_ok {C : Type} {par : Params} {regions : List (Nat × Nat)} {inputs : List (Nat × C)}
    {groups : List (List (Option Instr))} {outputs : List Nat} {j : Job C}
    (h : makeJob par regions inputs groups outputs = .ok j) :
    (∀ r ∈ regions, r.1 + r.2 ≤ par.dmCells) ∧ ∃ gs, allSome (groups.map allSome) = some gs ∧
      (∀ g ∈ gs, g.length < par.cmWords) ∧
      j = { inputs := inputs, programs := (pack (par.cmWords - 1) [] gs).map (· ++ [.halt]), outputs := outputs } := by
  unfold makeJob at h
  split_ifs at h with hregions
  unfold programsOf at h
  cases hgs : allSome (groups.map allSome) with
  | none => simp [hgs] at h
  | some gs =>
    simp only [hgs, Option.bind_some] at h
    split_ifs at h with hfit
    · exact ⟨by simpa using hregions, gs, rfl, by simpa using hfit, (Except.ok.inj h).symm⟩

/-- The data from which the groups of a call start. -/
def placed (s : State) (inputs : List (Nat × Cell)) : Data := { dm := Memory.writeAll s.dm inputs, draws := s.draws }

/-- What the groups of an expansion do, one by one, and that its cells lie in `DM`. -/
structure ExpandsTo (s : State) (inputs : List (Nat × Cell)) (groups : List (List (Option Instr))) (outputs : List Nat)
    (fs : List (Data → Data)) : Prop where
  groups : List.Forall₂ (Expands s.par s.boot) groups fs
  inputs : ∀ p ∈ inputs, p.1 < s.par.dmCells
  outputs : ∀ a ∈ outputs, a < s.par.dmCells

section
variable {s : State} (hok : s.par.ok = true) (hs : s.status ≠ .run) {inputs : List (Nat × Cell)}
  {groups : List (List (Option Instr))} {outputs : List Nat} {fs : List (Data → Data)} {regions : List (Nat × Nat)}
  {j : Job Cell} (hj : makeJob s.par regions inputs groups outputs = .ok j) (hfs : ExpandsTo s inputs groups outputs fs)
include hj hfs

theorem job_decodes : ∀ p ∈ j.programs, ∀ i ∈ p, decode (encode i) = .ok i := by
  obtain ⟨-, gs, hgs, -, rfl⟩ := makeJob_eq_ok hj
  obtain ⟨-, hdecodes⟩ := forall₂_of_expands hfs.groups hgs
  intro p hp i hi
  obtain ⟨q, hq, rfl⟩ := List.mem_map.1 hp
  rcases List.mem_append.1 hi with hi | hi
  · obtain ⟨g, hg, hig⟩ := (mem_of_mem_pack hq hi).resolve_left List.not_mem_nil
    exact hdecodes g hg i hig
  · exact decodeOfEncode i (by rw [List.mem_singleton.1 hi]; rfl)

include hok hs

/-- A call answers the result cells, which are those that the groups leave. -/
theorem callJob_answers :
    ∃ t, callJob f64Port (.ok j) s = .next (.ok (outputs.map t.cell), t) ∧ t.status = .done ∧
      ∀ a, t.cell a = (inSequence fs (placed s inputs)).cell s.boot a := by
  obtain ⟨-, gs, hgs, hfit, rfl⟩ := makeJob_eq_ok hj
  obtain ⟨hdoes, hdecodes⟩ := forall₂_of_expands hfs.groups hgs
  obtain ⟨-, -, -, hwords, -⟩ := (params_ok_iff s.par).1 hok
  obtain ⟨t, hrun, hdone, -, hboot, hdata⟩ := runPrograms_done (s.par.cmWords - 1) outputs gs fs [] id inputs s hok hs
    (by omega) hfs.inputs hfs.outputs (Nat.zero_le _) (fun g hg => Nat.le_sub_one_of_lt (hfit g hg)) nofun hdecodes
    (groupDoes_nil _ _) hdoes
  refine ⟨t, ?_, hdone, fun a => ?_⟩
  · rw [callJob]
    simp only [hrun, andThen_next]
    rfl
  · rw [← dataOf_cell, hboot, hdata]
    rfl

end

theorem exists_of_bind_eq_ok {ε α β : Type} {e : Except ε α} {f : α → Except ε β} {y : β} (h : e.bind f = .ok y) :
    ∃ x, e = .ok x ∧ f x = .ok y := by
  cases e with
  | error e => cases h
  | ok x => exact ⟨x, rfl, h⟩

/-- A routine from its checks: where they pass, its expansion leaves its value. -/
theorem routineRuns_of_checks {α : Type} {s : State} (hok : s.par.ok = true) (hs : s.status ≠ .run)
    {job : Except DriverError (Job Cell)} {check : Except DriverError Nat} {inputs : List (Nat × Cell)}
    {regions : Nat → List (Nat × Nat)} {groups : Nat → List (List (Option Instr))} {outputs : Nat → List Nat}
    (hjob : job = check.bind fun m => makeJob s.par (regions m) inputs (groups m) (outputs m))
    (fs : Nat → List (Data → Data)) {view : List Cell → α} {value : Nat → α}
    (hvalue : ∀ m, check = .ok m → (∀ r ∈ regions m, r.1 + r.2 ≤ s.par.dmCells) →
      ExpandsTo s inputs (groups m) (outputs m) (fs m) ∧
        view ((outputs m).map ((inSequence (fs m) (placed s inputs)).cell s.boot)) = value m) :
    RoutineRuns s job (check.map value) (answering view (callJob f64Port job s)) := by
  refine ⟨fun j hj => ?_, fun j hj => ?_, fun e he => by rw [he]; rfl⟩
  · obtain ⟨m, hcheck, hmake⟩ := exists_of_bind_eq_ok (hjob.symm.trans hj)
    exact job_decodes hmake (hvalue m hcheck (makeJob_eq_ok hmake).1).1
  · obtain ⟨m, hcheck, hmake⟩ := exists_of_bind_eq_ok (hjob.symm.trans hj)
    obtain ⟨hexpands, hview⟩ := hvalue m hcheck (makeJob_eq_ok hmake).1
    obtain ⟨t, hcall, hdone, hcell⟩ := callJob_answers hok hs hmake hexpands
    refine ⟨value m, t, by rw [hcheck]; rfl, ?_, hdone⟩
    rw [hj, hcall, ← hview, ← funext hcell]
    rfl

/-! ### The cells that a routine places and reads (`46_macros_2d.md` R180) -/

theorem cplxOf_cplxCell (z : Cplx F64) : cplxOf (cplxCell z) = z :=
  congrArg₂ Cplx.mk BitVec.extractLsb'_append_eq_right BitVec.extractLsb'_append_eq_left

theorem stored_lt {x : Image F64} {base bound : Nat} (h : base + x.rows * x.cols ≤ bound) :
    ∀ p ∈ x.stored f64Tier base, p.1 < bound := by
  simp only [Image.stored, List.mem_flatMap, List.mem_map, List.mem_range]
  rintro _ ⟨r, hr, c, hc, rfl⟩
  have := entryIndex_lt hr hc
  show base + r * x.cols + c < bound
  omega

/-- The image is in place when the groups start. -/
theorem placed_stored_cell (s : State) (x : Image F64) (base : Nat) {r c : Nat} (hr : r < x.rows) (hc : c < x.cols) :
    (placed s (x.stored f64Tier base)).cell s.boot (base + r * x.cols + c) = x.cell f64Tier r c :=
  dataCell_matrix s.boot s.draws base (dataOf s) (x.cell f64Tier) hr hc

theorem cellsAt_lt {base pitch rows cols bound : Nat} (h : ∀ r < rows, ∀ c < cols, base + r * pitch + c < bound) :
    ∀ a ∈ cellsAt base pitch rows cols, a < bound := by
  simp only [cellsAt, List.mem_flatMap, List.mem_map, List.mem_range]
  rintro _ ⟨r, hr, c, hc, rfl⟩
  exact h r hr c hc

/-- The complex views of the cells of a matrix are its entries. -/
theorem complexViews_cellsAt {base pitch rows cols : Nat} {cell : Nat → Cell} (g : Nat → Nat → Cplx F64)
    (hcell : ∀ r < rows, ∀ c < cols, cplxOf (cell (base + r * pitch + c)) = g r c) :
    complexViews f64Tier ((cellsAt base pitch rows cols).map cell) = (Mat.tabulate rows cols g).entries := by
  rw [complexViews, cellsAt, Mat.tabulate, List.map_map, List.map_flatMap]
  refine List.flatMap_congr fun r hr => ?_
  rw [List.map_map]
  exact List.map_congr_left fun c hc => hcell r (List.mem_range.1 hr) c (List.mem_range.1 hc)

/-- The complex views of the cells of a vector are its elements. -/
theorem complexViews_vector {base n : Nat} {cell : Nat → Cell} {xs : List (Cplx F64)} (hlen : xs.length = n)
    (hcell : ∀ j < n, cplxOf (cell (base + j)) = xs.getD j f64Numerics.czero) :
    complexViews f64Tier ((cellsAt base n 1 n).map cell) = xs := by
  rw [complexViews_cellsAt (fun _ c => xs.getD c f64Numerics.czero) fun r hr c hc => by
    rw [Nat.lt_one_iff.1 hr, Nat.zero_mul, Nat.add_zero]; exact hcell c hc]
  refine List.ext_getElem (by simp [tabulate_entries, hlen]) fun k _ hk => ?_
  rw [← List.getD_eq_getElem _ f64Numerics.czero hk]
  simp [tabulate_entries, Nat.mod_eq_of_lt (hlen ▸ hk)]

/-! ### The one-dimensional routines (`46_macros_2d.md` R181, R182) -/

theorem oneRow_eq_ok {R : Type} {par : Params} {x : Image R} {size m : Nat} (h : oneRow par x size = .ok m) :
    x.rows = 1 ∧ m ≤ par.mmax ∧ 2^m = size ∧ x.cols ≤ size := by
  rw [oneRow] at h
  cases hm : sizeOrder par size with
  | none =>
    rw [hm] at h
    split_ifs at h
  | some k =>
    simp only [hm] at h
    split_ifs at h with hrows hcols
    obtain rfl : k = m := Except.ok.inj h
    obtain ⟨hmax, hsize⟩ := (sizeOrder_eq_some par size k).1 hm
    exact ⟨not_not.1 hrows, hmax, hsize, Nat.not_lt.1 hcols⟩

/-- The operands of the one transform of `fft1d` and `ifft1d`. -/
def sequenceOperands (a b : Nat) (x : Image F64) : Operands :=
  { ty := x.ty, src := a, sstr := 1, dst := b, dstr := 1, len := x.cols }

theorem transformValue_length {f : List (Cplx F64) → List (Cplx F64)} {m : Nat} (hf : ∀ xs, (f xs).length = 2^m)
    (n : Nat) (xs : List (Cplx F64)) : (transformValue f m n xs).length = 2^m := by
  simp [transformValue, asWritten, hf]

section
variable {s : State} (hok : s.par.ok = true) {x : Image F64} {a b size m : Nat} {f : List (Cplx F64) → List (Cplx F64)}
  {i : Instr} (hi : Transforms m x.ty f i) (hcheck : oneRow s.par x size = .ok m)
  (hregions : ∀ r ∈ [(a, x.cols), (b, size)], r.1 + r.2 ≤ s.par.dmCells)
include hcheck

theorem holds_sequence : (sequenceOperands a b x).Holds s.boot (placed s (x.stored f64Tier a)) (x.sequence f64Tier) := by
  obtain ⟨hrows, -, -, -⟩ := oneRow_eq_ok hcheck
  refine ⟨by simp [Image.sequence, sequenceOperands], fun j hj => ?_⟩
  have hcell := placed_stored_cell s x a (r := 0) (hrows ▸ one_pos) hj
  rw [Nat.zero_mul, Nat.add_zero] at hcell
  rw [Operands.srcElem]
  simp only [sequenceOperands, Nat.mul_one, hcell]
  exact (getD_map_range _ (x.widened f64Tier 0) hj).symm

include hok hi hregions

theorem expandsTo_sequence :
    ExpandsTo s (x.stored f64Tier a) [vectorSetup a 1 b 1 x.cols ++ [some i]] (cellsAt b size 1 size)
      [(sequenceOperands a b x).transform s.boot m f] := by
  obtain ⟨hrows, hm, rfl, hcols⟩ := oneRow_eq_ok hcheck
  simp only [List.forall_mem_cons] at hregions
  obtain ⟨hsrc, hdst, -⟩ := hregions
  have hvalid : (sequenceOperands a b x).Valid s.par m := by
    refine ⟨hm, hcols, fun j hj => ?_, fun j hj => ?_⟩
    · simp only [Operands.srcElem, sequenceOperands] at hj ⊢
      omega
    · simp only [Operands.dstElem, sequenceOperands]
      omega
  refine ⟨.cons (expands_vector hok hi hvalid) .nil, stored_lt (by rwa [hrows, Nat.one_mul]), cellsAt_lt fun r hr c hc => ?_⟩
  rw [Nat.lt_one_iff.1 hr, Nat.zero_mul]
  omega

end

section
variable {s : State} (hok : s.par.ok = true) (hs : s.status ≠ .run) {x : Image F64} (a b size : Nat)
  {f : Nat → List (Cplx F64) → List (Cplx F64)} (hf : ∀ m xs, (f m xs).length = 2^m) {i : Nat → Instr}
  (hi : ∀ m, Transforms m x.ty (f m) (i m))
include hok hs hf hi

/-- A routine whose expansion is one transform of a sequence. -/
theorem routineRuns_sequence {job : Except DriverError (Job Cell)}
    (hjob : job = (oneRow s.par x size).bind fun m => makeJob s.par [(a, x.cols), (b, size)] (x.stored f64Tier a)
      [vectorSetup a 1 b 1 x.cols ++ [some (i m)]] (cellsAt b size 1 size)) :
    RoutineRuns s job ((oneRow s.par x size).map fun m => transformValue (f m) m s.draws (x.sequence f64Tier))
      (answering (complexViews f64Tier) (callJob f64Port job s)) := by
  refine routineRuns_of_checks hok hs hjob (fun m => [(sequenceOperands a b x).transform s.boot m (f m)])
    fun m hcheck hregions => ⟨expandsTo_sequence hok (hi m) hcheck hregions, ?_⟩
  obtain ⟨-, -, rfl, -⟩ := oneRow_eq_ok hcheck
  refine complexViews_vector (transformValue_length (hf m) _ _) fun j hj => ?_
  have hcell := transform_written (hf m) (holds_sequence (a := a) (b := b) hcheck) one_pos hj
  rwa [Operands.dstElem, sequenceOperands, Nat.mul_one] at hcell

end

theorem fft1dJob_eq (par : Params) (a b : Nat) (x : Image F64) (size : Nat) :
    fft1dJob f64Tier par a b x size = (oneRow par x size).bind fun m => makeJob par [(a, x.cols), (b, size)]
      (x.stored f64Tier a) [vectorSetup a 1 b 1 x.cols ++ [some (fftOf x.ty m)]] (cellsAt b size 1 size) := by
  rw [fft1dJob]
  cases oneRow par x size <;> rfl

theorem ifft1dJob_eq (par : Params) (a b : Nat) (x : Mat (Cplx F64)) (size : Nat) :
    ifft1dJob f64Tier par a b x size = (oneRow par (Image.complex x) size).bind fun m =>
      makeJob par [(a, x.cols), (b, size)] ((Image.complex x).stored f64Tier a)
        [vectorSetup a 1 b 1 x.cols ++ [some (.ifft m)]] (cellsAt b size 1 size) := by
  rw [ifft1dJob]
  cases oneRow par (Image.complex x : Image F64) size <;> rfl

/-- `fft1d` leaves its result in the cells from `b` on. -/
theorem fft1dCall_cells {s t : State} (hok : s.par.ok = true) (hs : s.status ≠ .run) {a b size : Nat} {x : Image F64}
    {v : List (Cplx F64)} (hcall : fft1dCall f64Port a b x size s = .next (.ok v, t)) {k : Nat} (hk : k < size) :
    cplxOf (t.cell (b + k)) = v.getD k f64Numerics.czero := by
  rw [fft1dCall] at hcall
  cases hjob : fft1dJob f64Tier s.par a b x size with
  | error e =>
    rw [hjob] at hcall
    cases hcall
  | ok j =>
    have hmake := hjob
    rw [fft1dJob_eq] at hmake
    obtain ⟨m, hcheck, hmake⟩ := exists_of_bind_eq_ok hmake
    have hexpands := expandsTo_sequence hok (transforms_fftOf x.ty m) hcheck (makeJob_eq_ok hmake).1
    obtain ⟨u, hu, -, -⟩ := callJob_answers hok hs hmake hexpands
    rw [hjob, hu] at hcall
    obtain ⟨rfl, rfl⟩ : complexViews f64Tier ((cellsAt b size 1 size).map u.cell) = v ∧ u = t := by
      simpa [answering, Except.map] using hcall
    have hentry := at_tabulate one_pos hk f64Numerics.czero fun r c => cplxOf (u.cell (b + r * size + c))
    rw [complexViews_cellsAt _ fun _ _ _ _ => rfl]
    simpa [Mat.at] using hentry.symm

/-! ### The two-dimensional routines (`46_macros_2d.md` R184, R188) -/

theorem paddedSquare_eq_ok {R : Type} {par : Params} {x : Image R} {m : Nat} (h : paddedSquare par x = .ok m) :
    m = paddedOrder x.rows ∧ m ≤ par.mmax := by
  rw [paddedSquare] at h
  split_ifs at h with hempty hmax
  obtain rfl := Except.ok.inj h
  exact ⟨rfl, Nat.not_lt.1 hmax⟩

theorem cropsSquare_eq_ok {α : Type} {par : Params} {x : Mat α} {rows cols m : Nat}
    (h : cropsSquare par x rows cols = .ok m) :
    m ≤ par.mmax ∧ x.rows = 2^m ∧ x.cols = 2^m ∧ rows ≤ 2^m ∧ cols ≤ 2^m := by
  rw [cropsSquare] at h
  cases hm : sizeOrder par x.rows with
  | none =>
    rw [hm] at h
    cases h
  | some k =>
    simp only [hm] at h
    split_ifs at h with hsquare hcrop
    obtain rfl : k = m := Except.ok.inj h
    obtain ⟨hmax, hrows⟩ := (sizeOrder_eq_some par x.rows k).1 hm
    obtain ⟨hr, hc⟩ := not_or.1 hcrop
    have hcols := not_not.1 hsquare
    omega

theorem forall₂_pass {par : Params} {boot m n : Nat} {f : List (Cplx F64) → List (Cplx F64)} {o : Nat → Operands}
    {group : Nat → List (Option Instr)} (h : ∀ k < n, Expands par boot (group k) ((o k).transform boot m f)) :
    List.Forall₂ (Expands par boot) ((List.range n).map group) (pass boot m f o n) := by
  rw [pass, List.forall₂_map_left_iff, List.forall₂_map_right_iff, List.forall₂_same]
  exact fun k hk => h k (List.mem_range.1 hk)

section
variable {par : Params} {m t : Nat} (ht : t + 2^m * 2^m ≤ par.dmCells)
include ht

theorem dstElem_lt_of_intoColumns {o : Nat → Operands} (ho : IntoColumns t m o) {c : Nat} (hc : c < 2^m) :
    ∀ j < 2^m, (o c).dstElem j < par.dmCells := fun j hj => by
  rw [ho.dstElem_eq]
  exact regionEntry_lt ht hj hc

theorem valid_columnInPlace (hm : m ≤ par.mmax) {c : Nat} (hc : c < 2^m) : (columnInPlace t m c).Valid par m :=
  have hdst := dstElem_lt_of_intoColumns ht (intoColumns_columnInPlace t m) hc
  ⟨hm, le_rfl, hdst, hdst⟩

theorem valid_rowInPlace (hm : m ≤ par.mmax) {r : Nat} (hr : r < 2^m) : (rowInPlace t m r).Valid par m := by
  have hdst : ∀ j < 2^m, (rowInPlace t m r).dstElem j < par.dmCells := fun j hj => by
    rw [rowInPlace_dstElem]
    exact regionEntry_lt ht hr hj
  exact ⟨hm, le_rfl, hdst, hdst⟩

end

theorem intoColumns_imageColumn (ty : ElemTy) (a t rows cols m : Nat) : IntoColumns t m (imageColumn ty a t rows cols m) :=
  fun _ => ⟨rfl, rfl⟩

/-- A column of an image has elements only if the image has the column; they lie in the image. -/
theorem imageColumn_srcElem {ty : ElemTy} {a t rows cols m c j : Nat} (hj : j < (imageColumn ty a t rows cols m c).len) :
    c < cols ∧ j < rows ∧ (imageColumn ty a t rows cols m c).srcElem j = a + j * cols + c := by
  simp only [imageColumn] at hj
  split_ifs at hj with hc
  · refine ⟨hc, hj, ?_⟩
    simp only [Operands.srcElem, imageColumn]
    omega
  · exact absurd hj (Nat.not_lt_zero j)

theorem valid_imageColumn {par : Params} {ty : ElemTy} {a t rows cols m c : Nat} (hm : m ≤ par.mmax) (hrows : rows ≤ 2^m)
    (ha : a + rows * cols ≤ par.dmCells) (ht : t + 2^m * 2^m ≤ par.dmCells) (hc : c < 2^m) :
    (imageColumn ty a t rows cols m c).Valid par m := by
  refine ⟨hm, ?_, fun j hj => ?_, dstElem_lt_of_intoColumns ht (intoColumns_imageColumn ty a t rows cols m) hc⟩
  · simp only [imageColumn]
    split_ifs <;> omega
  · obtain ⟨hcol, hrow, heq⟩ := imageColumn_srcElem hj
    have := entryIndex_lt hrow hcol
    omega

theorem apart_imageColumn (ty : ElemTy) {a t rows cols m : Nat}
    (hregions : a + rows * cols ≤ t ∨ t + 2^m * 2^m ≤ a) : Apart m (2^m) (imageColumn ty a t rows cols m) :=
  apart_of_intoColumns (intoColumns_imageColumn ty a t rows cols m) fun k hk i hi j hj l hl => by
    obtain ⟨hcol, hrow, heq⟩ := imageColumn_srcElem hj
    have hsrc := entryIndex_lt hrow hcol
    have hdst := rowMajor_lt hl (hi.trans hk)
    omega

theorem holds_imageColumn (s : State) (x : Image F64) (a t m c : Nat) :
    (imageColumn x.ty a t x.rows x.cols m c).Holds s.boot (placed s (x.stored f64Tier a)) (x.paddedColumn f64Tier c) := by
  refine ⟨?_, fun j hj => ?_⟩
  · simp only [Image.paddedColumn, imageColumn]
    split_ifs <;> simp
  · obtain ⟨hcol, hrow, heq⟩ := imageColumn_srcElem hj
    rw [heq, placed_stored_cell s x a hrow hcol, Image.paddedColumn, if_pos hcol]
    exact (getD_map_range _ (fun r => x.widened f64Tier r c) hrow).symm

/-- What the groups of `fft2d` do. -/
def fft2dData (boot a t b m : Nat) (x : Image F64) : List (Data → Data) :=
  pass boot m (forward f64Numerics m) (imageColumn x.ty a t x.rows x.cols m) (2^m) ++
    pass boot m (forward f64Numerics m) (rowInPlace t m) (2^m) ++ [swapData boot m t b]

theorem fft2dData_cell (s : State) {a t b m : Nat} {x : Image F64}
    (hregions : a + x.rows * x.cols ≤ t ∨ t + 2^m * 2^m ≤ a) {r c : Nat} (hr : r < 2^m) (hc : c < 2^m) :
    cplxOf ((inSequence (fft2dData s.boot a t b m x) (placed s (x.stored f64Tier a))).cell s.boot (b + r * 2^m + c)) =
      (columnsThenRows f64Numerics.czero (2^m) (fun k => fft1dValue f64Tier (s.draws + k * (2 * 2^m)) m)
        ((List.range (2^m)).map (x.paddedColumn f64Tier))).at f64Numerics.czero (shifted (2^m) r) (shifted (2^m) c) := by
  have hread : ∀ c < 2^m, (imageColumn x.ty a t x.rows x.cols m c).Holds s.boot (placed s (x.stored f64Tier a))
      (((List.range (2^m)).map (x.paddedColumn f64Tier)).getD c []) := fun c hc => by
    rw [getD_map_range _ _ hc]
    exact holds_imageColumn s x a t m c
  rw [fft2dData, inSequence_append]
  exact (congrArg cplxOf (swapData_cell hr hc)).trans (columnsThenRows_cell (forward_length f64Numerics m)
    (intoColumns_imageColumn x.ty a t x.rows x.cols m) (apart_imageColumn x.ty hregions) (by simp) hread (shifted_lt m r)
    (shifted_lt m c))

/-- What the groups of `ifft2d` do. -/
def ifft2dData (boot a t m : Nat) : List (Data → Data) :=
  [swapData boot m a t] ++ pass boot m (inverse f64Numerics m) (columnInPlace t m) (2^m) ++
    pass boot m (inverse f64Numerics m) (rowInPlace t m) (2^m)

section
variable (s : State) {a t m : Nat} {x : Mat (Cplx F64)} (hrows : x.rows = 2^m) (hcols : x.cols = 2^m)
include hrows hcols

/-- After the un-centering, each column of the work region holds its column of the swapped spectrum. -/
theorem holds_columnInPlace {c : Nat} (hc : c < 2^m) :
    (columnInPlace t m c).Holds s.boot (swapData s.boot m a t (placed s ((Image.complex x).stored f64Tier a)))
      ((quadrantSwap f64Numerics.czero (2^m) x).column f64Numerics.czero c) := by
  refine ⟨by simp [Mat.column, quadrantSwap, Mat.tabulate, columnInPlace], fun j hj => ?_⟩
  have hplaced := placed_stored_cell s (.complex x) a (r := shifted (2^m) j) (c := shifted (2^m) c)
    (hrows ▸ shifted_lt m j) (hcols ▸ shifted_lt m c)
  have hwidth : (Image.complex x : Image F64).cols = 2^m := hcols
  rw [hwidth] at hplaced
  have haddr : (columnInPlace t m c).srcElem j = t + j * 2^m + c := (intoColumns_columnInPlace t m).dstElem_eq c j
  rw [haddr, swapData_cell hj hc, hplaced]
  exact (cplxOf_cplxCell _).trans ((getD_map_range _ _ hj).trans (at_quadrantSwap hj hc _ x)).symm

theorem ifft2dData_cell {r c : Nat} (hr : r < 2^m) (hc : c < 2^m) :
    cplxOf ((inSequence (ifft2dData s.boot a t m) (placed s ((Image.complex x).stored f64Tier a))).cell s.boot
      (t + r * 2^m + c)) = (ifft2dValue f64Tier s.draws m x).at f64Numerics.czero r c := by
  have hread : ∀ c < 2^m, (columnInPlace t m c).Holds s.boot
      (swapData s.boot m a t (placed s ((Image.complex x).stored f64Tier a)))
      (((List.range (2^m)).map ((quadrantSwap f64Numerics.czero (2^m) x).column f64Numerics.czero)).getD c []) :=
    fun c hc => by
      rw [getD_map_range _ _ hc]
      exact holds_columnInPlace s hrows hcols hc
  rw [ifft2dData, List.append_assoc, inSequence_append]
  exact columnsThenRows_cell (inverse_length f64Numerics m) (intoColumns_columnInPlace t m) (apart_columnInPlace t m)
    (by simp) hread hr hc

end

section
variable {s : State} (hok : s.par.ok = true)
include hok

theorem expandsTo_fft2d {a t b m : Nat} {x : Image F64} (hcheck : paddedSquare s.par x = .ok m)
    (hregions : ∀ r ∈ [(a, x.rows * x.cols), (t, 2^m * 2^m), (b, 2^m * 2^m)], r.1 + r.2 ≤ s.par.dmCells) :
    ExpandsTo s (x.stored f64Tier a) (fft2dGroups a t b x.rows x.cols m x.ty) (cellsAt b (2^m) (2^m) (2^m))
      (fft2dData s.boot a t b m x) := by
  obtain ⟨hpadded, hm⟩ := paddedSquare_eq_ok hcheck
  have hheight : x.rows ≤ 2^m := hpadded ▸ rows_le_padded x.rows
  simp only [List.forall_mem_cons] at hregions
  obtain ⟨ha, ht, hb, -⟩ := hregions
  refine ⟨?_, stored_lt ha, cellsAt_lt fun r hr c hc => ?_⟩
  · refine List.rel_append (List.rel_append (forall₂_pass fun c hc => ?_) (forall₂_pass fun r hr => ?_)) (.cons ?_ .nil)
    · exact expands_imageColumn hok hc (valid_imageColumn hm hheight ha ht hc)
    · exact expands_vector hok (transforms_fftOf .complex m) (valid_rowInPlace ht hm hr)
    · exact expands_swap hok hm ht hb
  · exact regionEntry_lt hb hr hc

theorem expandsTo_ifft2d {a t rows cols m : Nat} {x : Mat (Cplx F64)} (hcheck : cropsSquare s.par x rows cols = .ok m)
    (hregions : ∀ r ∈ [(a, 2^m * 2^m), (t, 2^m * 2^m)], r.1 + r.2 ≤ s.par.dmCells) :
    ExpandsTo s ((Image.complex x).stored f64Tier a) (ifft2dGroups a t m) (cellsAt t (2^m) rows cols)
      (ifft2dData s.boot a t m) := by
  obtain ⟨hm, hxrows, hxcols, hrows, hcols⟩ := cropsSquare_eq_ok hcheck
  simp only [List.forall_mem_cons] at hregions
  obtain ⟨ha, ht, -⟩ := hregions
  refine ⟨?_, stored_lt (le_of_eq_of_le (by rw [Image.rows, Image.cols, hxrows, hxcols]) ha), cellsAt_lt fun r hr c hc => ?_⟩
  · refine List.rel_append (List.rel_append (.cons ?_ .nil) (forall₂_pass fun c hc => ?_)) (forall₂_pass fun r hr => ?_)
    · exact expands_swap hok hm ha ht
    · exact expands_vector hok (transforms_ifft m) (valid_columnInPlace ht hm hc)
    · exact expands_vector hok (transforms_ifft m) (valid_rowInPlace ht hm hr)
  · exact regionEntry_lt ht (hr.trans_le hrows) (hc.trans_le hcols)

variable (hs : s.status ≠ .run)
include hs

theorem routineRuns_fft2d {a t b : Nat} {x : Image F64}
    (happart : a + x.rows * x.cols ≤ t ∨ t + 2^(paddedOrder x.rows) * 2^(paddedOrder x.rows) ≤ a) :
    RoutineRuns s (fft2dJob f64Tier s.par a t b x) (fft2d f64Tier s.par s.draws x) (fft2dCall f64Port a t b x s) := by
  have hjob : fft2dJob f64Tier s.par a t b x = (paddedSquare s.par x).bind fun m =>
      makeJob s.par [(a, x.rows * x.cols), (t, 2^m * 2^m), (b, 2^m * 2^m)] (x.stored f64Tier a)
        (fft2dGroups a t b x.rows x.cols m x.ty) (cellsAt b (2^m) (2^m) (2^m)) := by
    rw [fft2dJob]
    cases paddedSquare s.par x <;> rfl
  refine routineRuns_of_checks hok hs hjob (fun m => fft2dData s.boot a t b m x) fun m hcheck hregions =>
    ⟨expandsTo_fft2d hok hcheck hregions, ?_⟩
  obtain ⟨rfl, -⟩ := paddedSquare_eq_ok hcheck
  rw [complexViews_cellsAt _ fun r hr c hc => fft2dData_cell s happart hr hc]
  rfl

theorem routineRuns_ifft2d (mode : NarrowMode) (a t : Nat) (x : Mat (Cplx F64)) (rows cols : Nat) (ty : ElemTy) :
    RoutineRuns s (ifft2dJob f64Tier s.par a t x rows cols) (ifft2d f64Tier s.par mode s.draws x rows cols ty)
      (ifft2dCall f64Port mode a t x rows cols ty s) := by
  have hjob : ifft2dJob f64Tier s.par a t x rows cols = (cropsSquare s.par x rows cols).bind fun m =>
      makeJob s.par [(a, 2^m * 2^m), (t, 2^m * 2^m)] ((Image.complex x).stored f64Tier a) (ifft2dGroups a t m)
        (cellsAt t (2^m) rows cols) := by
    rw [ifft2dJob]
    cases cropsSquare s.par x rows cols <;> rfl
  refine routineRuns_of_checks hok hs hjob (fun m => ifft2dData s.boot a t m) fun m hcheck hregions =>
    ⟨expandsTo_ifft2d hok hcheck hregions, ?_⟩
  obtain ⟨-, hxrows, hxcols, hrows, hcols⟩ := cropsSquare_eq_ok hcheck
  rw [reconstruct, complexViews_cellsAt _ fun r hr c hc =>
    ifft2dData_cell s hxrows hxcols (hr.trans_le hrows) (hc.trans_le hcols)]
  rfl

end

/-! ### The statements -/

/-- Settles O56: in exact arithmetic each pass is a transform along its dimension, transforms along different dimensions
commute, and the crop keeps the entries of the image. -/
theorem twoDimensionalRoundTrip : Obligations.TwoDimensionalRoundTrip := by
  refine ⟨fun m n n' cols hlen _ r hr c hc => ifft2dValue_fft2dValue n n' hlen hr hc, ?_⟩
  intro par x mode n n' hrows hcols hm hwidth
  have hheight := rows_le_padded x.rows
  generalize hM : paddedOrder x.rows = m at hm hwidth hheight
  set cols := (List.range (2^m)).map (x.paddedColumn idealTier) with hcolsDef
  refine ⟨fft2dValue idealTier n m cols, (ifft2dValue idealTier n' m (fft2dValue idealTier n m cols)).crop
    idealNumerics.czero x.rows x.cols, ?_, ?_, rfl, rfl, fun r hr c hc => ?_⟩
  · have hchecks : paddedSquare par x = .ok m := by
      rw [paddedSquare, if_neg (not_or.2 ⟨hrows, hcols⟩), hM, if_neg (Nat.not_lt.2 hm)]
    rw [fft2d, hchecks]
    simp [Except.map, hwidth, hcolsDef]
  · have hchecks : cropsSquare par (fft2dValue idealTier n m cols) x.rows x.cols = .ok m := by
      have hrowsOf : (fft2dValue idealTier n m cols).rows = 2^m := rfl
      have hcolsOf : (fft2dValue idealTier n m cols).cols = 2^m := rfl
      rw [cropsSquare, hrowsOf, (sizeOrder_eq_some par _ m).2 ⟨hm, rfl⟩]
      simp [hcolsOf, Nat.not_lt.2 hheight, Nat.not_lt.2 hwidth]
    rw [ifft2d, hchecks]
    rfl
  · rw [Mat.crop, at_tabulate hr hc, ifft2dValue_fft2dValue n n' (by simp [hcolsDef]) (hr.trans_le hheight)
      (hc.trans_le hwidth)]
    exact paddedColumn_getD idealTier x (hc.trans_le hwidth) hr hc

/-- Settles O57: each expansion leaves in the result cells what its passes and swaps give as functions on values, however it
is packed into runs. -/
theorem runningTheExpansions : Obligations.RunningTheExpansions := by
  intro s hok hs
  refine ⟨fun a b x size => ?_, fun a b x size v t hcall k hk => fft1dCall_cells hok hs hcall hk, fun a b x size => ?_,
    fun a t b x happart => routineRuns_fft2d hok hs happart, fun mode a t x rows cols ty =>
      routineRuns_ifft2d hok hs mode a t x rows cols ty⟩
  · exact routineRuns_sequence hok hs a b size (forward_length f64Numerics) (transforms_fftOf x.ty)
      (fft1dJob_eq s.par a b x size)
  · exact routineRuns_sequence (x := .complex x) hok hs a b size (inverse_length f64Numerics) transforms_ifft
      (ifft1dJob_eq s.par a b x size)

end Sys2Proof.Proofs

/-! # The host software: proofs of the statements about `47_host_software.md`

First the metrics: what `mse`, `psnr` and the fidelity report answer in any host, then the mean of the squared differences in
each tier and the images that differ by one number in every pixel. Then the kernels, whose entries depend on the squared
distance from the centre alone, and the filter step. The statements are settled at the end, from these rules. -/

namespace Sys2Proof.Proofs

open Sys2Proof.Machine Sys2Proof.Laws

/-! ### What the metrics answer (`47_host_software.md` R210 to R212) -/

section
variable {T : Tier} {R : Type} {a b : Image R}

theorem mse_byte (T : Tier) (R : Type) {p q : Mat Byte} (hpix : 0 < p.rows * p.cols) (hrows : q.rows = p.rows)
    (hcols : q.cols = p.cols) : mse T (R := R) (.byte p) (.byte q) = .ok (T.mean (squares p q)) := by
  rw [mse, if_neg (by simp [hrows, hcols]), if_neg hpix.ne']

theorem mse_ideal (R : Type) {p q : Mat Byte} (hpix : 0 < p.rows * p.cols) (hrows : q.rows = p.rows)
    (hcols : q.cols = p.cols) : mse idealTier (R := R) (.byte p) (.byte q) =
      .ok (((squares p q).sum : ℝ) / ((p.rows * p.cols : Nat) : ℝ)) := by
  rw [mse_byte idealTier R hpix hrows hcols, ← squares_length p q]

theorem mse_mismatch (T : Tier) (h : a.rows ≠ b.rows ∨ a.cols ≠ b.cols ∨ a.ty ≠ .byte ∨ b.ty ≠ .byte) :
    mse T a b = .error (.code .dimensionMismatch) := by
  cases a with
  | byte p =>
    cases b with
    | byte q =>
      have hextents : p.rows ≠ q.rows ∨ p.cols ≠ q.cols := by simpa [Image.rows, Image.cols, Image.ty] using h
      rw [mse, if_pos hextents]
    | int _ => rfl
    | complex _ => rfl
  | int _ => rfl
  | complex _ => rfl

variable (log10 : T.num.R → T.num.R) (eps : EpsPsnr)

theorem psnr_error {err : DriverError} (hmse : mse T a b = .error err) : psnr T log10 eps a b = .error err := by
  rw [psnr, hmse, Except.map]

theorem fidelityReport_error {err : DriverError} (hmse : mse T a b = .error err) :
    fidelityReport T log10 eps a b = .error err := by
  rw [fidelityReport, hmse]

variable {e : T.num.R} (hmse : mse T a b = .ok e)
include hmse

theorem fidelityReport_ok {v : T.num.R} (hpsnr : psnr T log10 eps a b = .ok v) :
    fidelityReport T log10 eps a b = .ok (e, v) := by
  rw [fidelityReport, hmse, hpsnr]

/-- Below the epsilon both metrics answer, and `psnr` is the ceiling. -/
theorem metrics_of_below (hbelow : T.below e eps.1) : psnr T log10 eps a b = .ok (T.num.ofInt 100) ∧
    fidelityReport T log10 eps a b = .ok (e, T.num.ofInt 100) := by
  have hpsnr : psnr T log10 eps a b = .ok (T.num.ofInt 100) := by
    rw [psnr, hmse, Except.map, if_pos hbelow]
  exact ⟨hpsnr, fidelityReport_ok log10 eps hmse hpsnr⟩

/-- Elsewhere `psnr` is the formula. -/
theorem metrics_of_not_below (hbelow : ¬ T.below e eps.1) :
    let v := T.num.rmul (T.num.ofInt 10) (log10 (T.num.rdiv (T.num.ofInt 65025) e))
    psnr T log10 eps a b = .ok v ∧ fidelityReport T log10 eps a b = .ok (e, v) := by
  intro v
  have hpsnr : psnr T log10 eps a b = .ok v := by
    rw [psnr, hmse, Except.map, if_neg hbelow]
  exact ⟨hpsnr, fidelityReport_ok log10 eps hmse hpsnr⟩

end

/-! ### The mean of the squared differences (`47_host_software.md` R210) -/

theorem mean_isRounding {xs : List Nat} (hlen : 0 < xs.length) (hsum : xs.sum < 2^53) :
    F64.IsRounding false (xs.sum * 2^1074) xs.length (F64.mean xs) := by
  rw [F64.mean, if_pos (.inl hsum)]
  exact isRounding_ofUnits _ _ hlen

/-- An image is its own shift by 0. -/
theorem shift_self (p : Mat Byte) :
    ∀ i < p.rows, ∀ j < p.cols, ((p.at 0 i j).toNat : Int) = (p.at 0 i j).toNat + (0 : Int) :=
  fun _ _ _ _ => (Int.add_zero _).symm

section
variable {p q : Mat Byte} {c : Int}
  (hdiff : ∀ i < p.rows, ∀ j < p.cols, ((q.at 0 i j).toNat : Int) = (p.at 0 i j).toNat + c)
include hdiff

/-- Images that differ by `c` in every pixel have the one square `c^2`. -/
theorem squares_of_shift : squares p q = List.replicate (p.rows * p.cols) (c * c).natAbs := by
  refine squares_eq_replicate p q _ fun i hi j hj => ?_
  rw [hdiff i hi j hj, sub_add_cancel_left, Int.natAbs_neg, Int.natAbs_mul, sq]

variable (hpix : 0 < p.rows * p.cols)
include hpix

/-- Pixels are bytes, so the square of a shift is a binary64 integer. -/
theorem sq_shift_lt : (c * c).natAbs < 2^53 := by
  have hpixel := hdiff 0 (Nat.pos_of_mul_pos_right hpix) 0 (Nat.pos_of_mul_pos_left hpix)
  have hp := (p.at 0 0 0).isLt
  have hq := (q.at 0 0 0).isLt
  have hc : c.natAbs < 256 := by omega
  rw [Int.natAbs_mul]
  exact (Nat.mul_lt_mul'' hc hc).trans (by norm_num)

theorem toReal_ofInt_sq_shift : F64.toReal (F64.ofInt (c * c)) = (c : ℝ)^2 := by
  rw [F64.toReal, (ofInt_exact (sq_shift_lt hdiff hpix)).2, Int.cast_mul, Int.cast_pow, Int.cast_ofNat,
    mul_div_cancel_right₀ _ (by positivity), Int.cast_mul, sq]

variable (R : Type) (hrows : q.rows = p.rows) (hcols : q.cols = p.cols)
include hrows hcols

theorem mse_f64_shift : mse f64Tier (R := R) (.byte p) (.byte q) = .ok (F64.ofInt (c * c)) := by
  have hmean : F64.mean (squares p q) = F64.ofInt (c * c) := by
    rw [squares_of_shift hdiff, mean_replicate _ _ hpix, Int.natAbs_of_nonneg (mul_self_nonneg c)]
  rw [mse_byte f64Tier R hpix hrows hcols]
  exact congrArg Except.ok hmean

theorem mse_ideal_shift : mse idealTier (R := R) (.byte p) (.byte q) = .ok ((c : ℝ)^2) := by
  have hcount : ((p.rows * p.cols : Nat) : ℝ) ≠ 0 := Nat.cast_ne_zero.2 hpix.ne'
  rw [mse_ideal R hpix hrows hcols, squares_of_shift hdiff, List.sum_replicate, smul_eq_mul, Nat.cast_mul,
    mul_div_cancel_left₀ _ hcount, Nat.cast_natAbs, abs_of_nonneg (mul_self_nonneg c), Int.cast_mul, sq]

variable (log10 : F64 → F64) (eps : EpsPsnr)

/-- Both tiers give the ceiling for a shift whose square lies below the epsilon. -/
theorem metrics_of_small_shift (hsmall : (c : ℝ)^2 < eps.1) :
    psnr f64Tier log10 eps (R := R) (.byte p) (.byte q) = .ok (F64.ofInt 100) ∧
    psnrExact eps (R := R) (.byte p) (.byte q) = .ok 100 ∧
    fidelityReport f64Tier log10 eps (R := R) (.byte p) (.byte q) = .ok (F64.ofInt (c * c), F64.ofInt 100) ∧
    fidelityReport idealTier (Real.logb 10) eps (R := R) (.byte p) (.byte q) = .ok ((c : ℝ)^2, (100 : ℝ)) := by
  obtain ⟨hpsnr, hreport⟩ := metrics_of_below log10 eps (mse_f64_shift hdiff hpix R hrows hcols)
    ((toReal_ofInt_sq_shift hdiff hpix).trans_lt hsmall)
  obtain ⟨hexact, hreport'⟩ := metrics_of_below (Real.logb 10) eps (mse_ideal_shift hdiff hpix R hrows hcols) hsmall
  rw [show idealTier.num.ofInt 100 = (100 : ℝ) from Int.cast_ofNat 100] at hexact hreport'
  exact ⟨hpsnr, hexact, hreport, hreport'⟩

/-- Both tiers give the formula for every other shift. -/
theorem metrics_of_large_shift (hlarge : eps.1 ≤ (c : ℝ)^2) :
    let v := F64.mul (F64.ofInt 10) (log10 (F64.div (F64.ofInt 65025) (F64.ofInt (c * c))))
    let w : ℝ := 10 * Real.logb 10 (255^2 / (c : ℝ)^2)
    psnr f64Tier log10 eps (R := R) (.byte p) (.byte q) = .ok v ∧
    psnrExact eps (R := R) (.byte p) (.byte q) = .ok w ∧
    fidelityReport f64Tier log10 eps (R := R) (.byte p) (.byte q) = .ok (F64.ofInt (c * c), v) ∧
    fidelityReport idealTier (Real.logb 10) eps (R := R) (.byte p) (.byte q) = .ok ((c : ℝ)^2, w) := by
  obtain ⟨hpsnr, hreport⟩ := metrics_of_not_below log10 eps (mse_f64_shift hdiff hpix R hrows hcols)
    (hlarge.trans_eq (toReal_ofInt_sq_shift hdiff hpix).symm).not_gt
  obtain ⟨hexact, hreport'⟩ :=
    metrics_of_not_below (Real.logb 10) eps (mse_ideal_shift hdiff hpix R hrows hcols) hlarge.not_gt
  have hformula : (((10 : Int) : ℝ) * Real.logb 10 (((65025 : Int) : ℝ) / (c : ℝ)^2)) =
      10 * Real.logb 10 (255^2 / (c : ℝ)^2) := by norm_num
  simp only [hformula] at hpsnr hreport hexact hreport'
  exact ⟨hpsnr, hexact, hreport, hreport'⟩

end

/-! ### Kernels and the filter step (`47_host_software.md` R200 to R205) -/

theorem coe_sqDist (size i j : Nat) :
    (sqDist size i j : Int) = ((i : Int) - (size / 2 : Nat))^2 + ((j : Int) - (size / 2 : Nat))^2 :=
  Int.toNat_of_nonneg (by positivity)

theorem sqDist_comm (size i j : Nat) : sqDist size j i = sqDist size i j := by
  rw [sqDist, sqDist, add_comm]

@[simp] theorem sqDist_centre (size : Nat) : sqDist size (size / 2) (size / 2) = 0 := by
  simp [sqDist]

/-- No entry is farther from the centre than the corner `(0, 0)`. -/
theorem sqDist_le_corner {size i j : Nat} (hi : i < size) (hj : j < size) : sqDist size i j ≤ 2 * (size / 2)^2 := by
  have hside : ∀ k < size, ((k : Int) - (size / 2 : Nat))^2 ≤ ((size / 2 : Nat) : Int)^2 := fun k hk =>
    sq_le_sq' (by omega) (by omega)
  have hdist : (sqDist size i j : Int) ≤ (2 * (size / 2)^2 : Nat) := by
    rw [coe_sqDist, Nat.cast_mul, Nat.cast_pow, Nat.cast_ofNat]
    linarith [hside i hi, hside j hj]
  exact_mod_cast hdist

section
variable {size i j : Nat} (hi : i < size) (hj : j < size)
include hi hj

theorem bandKernel_at (num : Numerics) (passes : Nat → Bool) : (bandKernel num size passes).at num.czero i j =
    { re := num.ofInt (if passes (sqDist size i j) then 1 else 0), im := num.ofInt 0 } :=
  at_tabulate hi hj _ _

theorem idealLPF_f64_at (radius : Rat) : (idealLPF f64Numerics size radius).at f64Numerics.czero i j =
    { re := if 0 ≤ radius ∧ (sqDist size i j : Rat) ≤ radius^2 then F64.ofInt 1 else 0, im := 0 } := by
  rw [idealLPF, bandKernel_at hi hj, sq]
  simp only [decide_eq_true_eq, apply_ite F64.ofInt, ofInt_zero]

theorem idealLPFExact_at (radius : ℝ) : (idealLPFExact size radius).at idealNumerics.czero i j =
    { re := if Real.sqrt (sqDist size i j) ≤ radius then 1 else 0, im := 0 } := by
  rw [idealLPFExact, bandKernel_at hi hj]
  simp [apply_ite]

theorem idealLPFExact_at_of_corner {radius : ℝ} (hradius : ((size / 2 : Nat) : ℝ) * Real.sqrt 2 ≤ radius) :
    (idealLPFExact size radius).at idealNumerics.czero i j = { re := 1, im := 0 } := by
  have hdist : Real.sqrt (sqDist size i j) ≤ ((size / 2 : Nat) : ℝ) * Real.sqrt 2 := by
    rw [Real.sqrt_le_left (by positivity), mul_pow, Real.sq_sqrt (by norm_num), mul_comm]
    exact_mod_cast sqDist_le_corner hi hj
  rw [idealLPFExact_at hi hj, if_pos (hdist.trans hradius)]

theorem gaussianLPFExact_at {sigma : ℝ} (hsigma : 0 < sigma) : ∃ k, gaussianLPFExact size sigma = .ok k ∧
    k.at idealNumerics.czero i j = { re := gaussianEntry size sigma i j, im := 0 } :=
  ⟨_, if_pos hsigma, at_tabulate hi hj _ _⟩

theorem gaussianLPF_at (hexp : F64 → F64) {sigma : F64} (hnan : F64.isNaN sigma = false) (hsign : F64.sign sigma = false)
    (hmag : F64.mag sigma ≠ 0) : ∃ k, gaussianLPF hexp size sigma = .ok k ∧
      k.at f64Numerics.czero i j = { re := hexp (gaussianArg sigma (sqDist size i j)), im := 0 } := by
  refine ⟨_, if_neg (by simp [hnan, hsign, hmag]), ?_⟩
  rw [at_tabulate hi hj, ofInt_zero]

end

theorem gaussianEntry_le_one (size : Nat) (sigma : ℝ) (i j : Nat) : gaussianEntry size sigma i j ≤ 1 := by
  rw [gaussianEntry, Real.exp_le_one_iff, neg_div, neg_nonpos]
  positivity

theorem gaussianEntry_comm (size : Nat) (sigma : ℝ) (i j : Nat) :
    gaussianEntry size sigma j i = gaussianEntry size sigma i j := by
  rw [gaussianEntry, gaussianEntry, sqDist_comm]

theorem gaussianEntry_centre (size : Nat) (sigma : ℝ) : gaussianEntry size sigma (size / 2) (size / 2) = 1 := by
  simp [gaussianEntry]

theorem gaussianArg_centre (sigma : F64) : gaussianArg sigma 0 = F64.neg 0 := by
  rw [gaussianArg, if_pos rfl, ofInt_zero]

theorem filterStep_ok {num : Numerics} {s k : Mat (Cplx num.R)} (hrows : s.rows = k.rows) (hcols : s.cols = k.cols) :
    filterStep num s k =
      .ok (Mat.tabulate s.rows s.cols fun r c => num.cmul (s.at num.czero r c) (k.at num.czero r c)) :=
  if_pos ⟨hrows, hcols⟩

/-- A real factor scales both parts. -/
theorem cmul_ideal_of_real (z : Cplx ℝ) {w : Cplx ℝ} (hw : w.im = 0) :
    idealNumerics.cmul z w = { re := w.re * z.re, im := w.re * z.im } := by
  simp [Numerics.cmul, hw, mul_comm]

/-! ### The statements -/

/-- Settles O58: the squares are one list, whose mean is exact up to the rounding of the quotient; a shift gives a list of
equal squares, and an image is its own shift by 0. -/
theorem mseIdentities : Obligations.MseIdentities := by
  intro R p q hpix hrows hcols
  refine ⟨⟨?_, fun hsum => ?_⟩, ?_, fun c hdiff => ?_⟩
  · rw [mse_ideal R hpix hrows hcols, ← squares_sum, Int.cast_natCast]
  · rw [← squares_sum] at hsum ⊢
    refine ⟨_, mse_byte f64Tier R hpix hrows hcols, ?_⟩
    have hround := mean_isRounding (xs := squares p q) (by rwa [squares_length]) (by exact_mod_cast hsum)
    rwa [squares_length] at hround
  · rw [mse_f64_shift (shift_self p) hpix R rfl rfl, mse_ideal_shift (shift_self p) hpix R rfl rfl, mul_zero, ofInt_zero,
      Int.cast_zero, zero_pow two_ne_zero]
    exact ⟨rfl, rfl⟩
  · have hsquare : ((c * c : Int) : ℝ) = (c : ℝ)^2 := by rw [Int.cast_mul, sq]
    rw [hsquare]
    exact ⟨mse_f64_shift hdiff hpix R hrows hcols, mse_ideal_shift hdiff hpix R hrows hcols⟩

/-- Settles O59: `psnr` and the report follow the answer of `mse`, and both tiers answer the square of a shift, which lies
below the epsilon in one tier exactly where it does in the other. -/
theorem psnrRules : Obligations.PsnrRules := by
  intro R eps
  refine ⟨fun T log10 a b => ⟨fun e hmse => ⟨metrics_of_below log10 eps hmse, metrics_of_not_below log10 eps hmse⟩,
    fun h => ?_⟩, fun log10 p hpix => ⟨?_, fun q c hrows hcols hdiff => ?_⟩⟩
  · have hmse := mse_mismatch T h
    exact ⟨hmse, psnr_error log10 eps hmse, fidelityReport_error log10 eps hmse⟩
  · simpa [ofInt_zero] using metrics_of_small_shift (shift_self p) hpix R rfl rfl log10 eps (by simpa using eps.2)
  · exact ⟨metrics_of_large_shift hdiff hpix R hrows hcols log10 eps,
      metrics_of_small_shift hdiff hpix R hrows hcols log10 eps⟩

/-- Settles O60: an entry depends on the squared distance from the centre alone, which is 0 at the centre and greatest in the
corner; with a real factor the complex product scales both parts. -/
theorem kernelEntries : Obligations.KernelEntries := by
  refine ⟨fun size i j hi hj => ?_, fun s k hrows hcols => ?_, fun s size radius hrows hcols hradius => ?_⟩
  · have hcentre : size / 2 < size := Nat.div_lt_self (Nat.zero_lt_of_lt hi) one_lt_two
    simp only [← coe_sqDist, Int.cast_natCast]
    refine ⟨idealLPF_f64_at hi hj, idealLPFExact_at hi hj, fun sigma hsigma => ?_,
      fun hexp sigma hzero hnan hsign hmag => ?_⟩
    · exact ⟨Real.exp_pos _, gaussianEntry_le_one size sigma i j, gaussianEntry_comm size sigma i j,
        gaussianEntry_centre size sigma, gaussianLPFExact_at hi hj hsigma⟩
    · obtain ⟨k, hk, hentry⟩ := gaussianLPF_at hcentre hcentre hexp hnan hsign hmag
      rw [sqDist_centre, gaussianArg_centre, hzero] at hentry
      exact ⟨k, hk, hentry⟩
  · refine ⟨_, filterStep_ok hrows hcols, rfl, rfl, fun r hr c hc hreal => ?_⟩
    rw [at_tabulate hr hc, cmul_ideal_of_real _ hreal]
  · refine ⟨_, filterStep_ok hrows hcols, fun r hr c hc => ?_⟩
    rw [at_tabulate (hrows ▸ hr) (hcols ▸ hc), idealLPFExact_at_of_corner hr hc hradius, cmul_ideal_of_real _ rfl]
    simp only [one_mul]

end Sys2Proof.Proofs

/-! # Exceptions and reset: proofs of the statements about `60_exceptions.md` and `70_reset_and_hazards.md`

First the table of checks, check by check in the order of R227, and what a command leaves for each. Then the registers, which
a command computes from the registers alone. The statements are settled at the end, from these rules. -/

namespace Sys2Proof.Proofs

open Sys2Proof.Machine Sys2Proof.Laws

/-! ### The checks in order (`60_exceptions.md` R222, R223, R226, R227) -/

section
variable {i : Instr} {par : Params} {d : Desc}

/-- The command has a source or destination address outside `DM` (R226, `20_memory.md` R69). -/
def HasBadAddress (i : Instr) (par : Params) (d : Desc) : Prop :=
  ∃ a, (a ∈ srcSet i d ∨ a ∈ dstSet i d) ∧ par.dmCells ≤ a

/-- The command reads `LEN`, and `LEN` exceeds the extent of its order (R223). -/
abbrev IsTooLong (i : Instr) (d : Desc) : Prop := readsLen i = true ∧ 2^(orderField i) < d.len.toNat

/-- The address check of `faultOf` is the search for a bad address. -/
theorem any_bad_iff_hasBadAddress :
    ((srcSet i d).any (fun a => par.dmCells ≤ a) ∨ (dstSet i d).any (fun a => par.dmCells ≤ a)) ↔ HasBadAddress i par d := by
  simp only [HasBadAddress, List.any_eq_true, decide_eq_true_eq, or_and_right, exists_or]

theorem faultOf_order (horder : par.mmax < orderField i) : faultOf i par d = some .order := if_pos horder

theorem faultOf_size (horder : orderField i ≤ par.mmax) (hlong : IsTooLong i d) : faultOf i par d = some .size := by
  rw [faultOf, if_neg (Nat.not_lt.2 horder), if_pos hlong]

theorem faultOf_addr (horder : orderField i ≤ par.mmax) (hlong : ¬ IsTooLong i d) (hbad : HasBadAddress i par d) :
    faultOf i par d = some .addr := by
  rw [faultOf, if_neg (Nat.not_lt.2 horder), if_neg hlong, if_pos (any_bad_iff_hasBadAddress.2 hbad)]

theorem faultOf_pass (horder : orderField i ≤ par.mmax) (hlong : ¬ IsTooLong i d) (hbad : ¬ HasBadAddress i par d) :
    faultOf i par d = none := by
  rw [faultOf, if_neg (Nat.not_lt.2 horder), if_neg hlong, if_neg (mt any_bad_iff_hasBadAddress.1 hbad)]

end

/-! ### What a command leaves, by the answer of its checks (`10_state.md` R26) -/

theorem exec_fault {i : Instr} {s : State} {f : FaultCode} (hf : faultOf i s.par s.d = some f) :
    exec i s = .next (s.raise f) := by
  rw [exec_eq, hf]

/-- HALT ends the program; any other command that passes its checks leaves `STATUS` as it is (`45_control.md` R170). -/
theorem exec_status_of_pass {i : Instr} {s : State} (hpass : faultOf i s.par s.d = none) :
    ∃ t, exec i s = .next t ∧ t.status = if i = .halt then .done else s.status := by
  by_cases hi : i = .halt
  · subst hi
    exact ⟨s.finish, rfl, rfl⟩
  · exact ⟨completed i s, exec_completed hpass hi, (if_neg hi).symm⟩

/-! ### The registers depend on the registers alone (`60_exceptions.md` R227) -/

/-- Two states with the same parameters and registers, whatever their memories hold. -/
structure RegsAgree (s s' : State) : Prop where
  par : s.par = s'.par
  d : s.d = s'.d
  cpc : s.cpc = s'.cpc
  status : s.status = s'.status
  err : s.err = s'.err
  epc : s.epc = s'.epc

section
variable {s s' t t' : State}

theorem regsAgree_raise (h : RegsAgree s s') (f : FaultCode) : RegsAgree (s.raise f) (s'.raise f) :=
  { h with status := rfl, err := rfl, epc := h.cpc }

theorem regsAgree_finish (h : RegsAgree s s') : RegsAgree s.finish s'.finish := { h with status := rfl }

theorem regsAgree_completed (h : RegsAgree s s') (i : Instr) : RegsAgree (completed i s) (completed i s') :=
  { h with d := congrArg (descAfter i) h.d, cpc := congrArg (· + 1) h.cpc }

/-- The checks answer alike in both states, and each of the three ends of a command keeps the agreement. -/
theorem regsAgree_exec (h : RegsAgree s s') {i : Instr} (ht : exec i s = .next t) (ht' : exec i s' = .next t') :
    RegsAgree t t' := by
  have hfault : faultOf i s'.par s'.d = faultOf i s.par s.d := by rw [h.par, h.d]
  rcases exec_cases ht with ⟨f, hf, rfl⟩ | ⟨rfl, rfl⟩ | ⟨hpass, hi, rfl⟩
  · cases (exec_fault (hfault.trans hf)).symm.trans ht'
    exact regsAgree_raise h f
  · cases ht'
    exact regsAgree_finish h
  · cases (exec_completed (hfault.trans hpass) hi).symm.trans ht'
    exact regsAgree_completed h i

end

/-! ### The statements -/

/-- Settles O11, by the table of R227 check by check. -/
theorem checksInOrder : Obligations.ChecksInOrder := fun _ _ =>
  ⟨fun horder => exec_fault (faultOf_order horder),
    fun horder hlong => exec_fault (faultOf_size horder hlong),
    fun horder hlong hbad => exec_fault (faultOf_addr horder hlong hbad),
    fun horder hlong hbad => exec_status_of_pass (faultOf_pass horder hlong hbad)⟩

/-- Settles O12: a command keeps the agreement of two states on their registers. -/
theorem faultsDoNotDependOnData : Obligations.FaultsDoNotDependOnData := by
  intro i s s' t t' hpar hd hcpc hstatus herr hepc ht ht'
  obtain ⟨hpar, hd, hcpc, hstatus, herr, hepc⟩ := regsAgree_exec ⟨hpar, hd, hcpc, hstatus, herr, hepc⟩ ht ht'
  exact ⟨hpar, hd, hcpc, hstatus, herr, hepc⟩

/-- Settles O13, from the ends of a step: HALT and a completed command do not leave `ERR`. -/
theorem faultsArePrecise : Obligations.FaultsArePrecise := by
  intro s t hs hstep herr
  cases runStep_end hstep with
  | fetchFault => exact ⟨rfl, rfl⟩
  | commandFault _ f hblock => exact ⟨rfl, hblock⟩
  | halt => exact nomatch herr
  | completes _ i => exact nomatch hs.symm.trans herr

/-- Settles O8, by the rule for a move of the stopped sequencer. -/
theorem stoppedSequencerDoesNothing : Obligations.StoppedSequencerDoesNothing := fun s hok hs =>
  ⟨fun ht => (step_sequencer hok ht).trans (sequencerMove_stopped hs),
    fun rest ht => (step_sequencer_turn hok ht).trans (sequencerMove_stopped (s := { s with turns := rest }) hs)⟩

/-- Settles O10; the code is read back in CSR 2. -/
theorem raisingAFault : Obligations.RaisingAFault := fun s f =>
  ⟨rfl, rfl, rfl, rfl, csrRead_err (s.raise f), rfl, rfl, rfl, rfl, rfl, rfl, rfl, rfl⟩

/-- Settles O36: reset leaves `State.powerOn`, in whose memories nothing is listed. -/
theorem resetPulse : Obligations.ResetPulse := fun s =>
  ⟨s.powerOn, rfl, desc_zero_get, rfl, rfl, rfl, rfl, rfl, rfl, fun _ => rfl, fun _ => rfl⟩

end Sys2Proof.Proofs
